-- ==== Sys2Proof/Word.lean ====
section
/-! DEFINITION. The words of the block: bytes, entries, addresses and page numbers at the widths of
00_scope.md R7 and R9. -/

namespace Sys2Proof

/-- A byte of physical memory, and the width of `LAST_PERM` and `ABRT`. -/
abbrev Byte := BitVec 8

/-- 32 bits: control registers, non-PAE entries, the error code. -/
abbrev Dword := BitVec 32

/-- 64 bits: operand and result buses, PAE entries. -/
abbrev Qword := BitVec 64

/-- A logical address (`LADDR_W = 32`, R7). -/
abbrev LAddr := BitVec 32

/-- A physical address on the port (at most 40 bits, R7, R40). -/
abbrev PAddr := BitVec 40

/-- A logical page: a logical address shifted right by 12 (R9). -/
abbrev LPage := BitVec 20

/-- A physical page: a physical address shifted right by 12 (R9). -/
abbrev PPage := BitVec 28

end Sys2Proof
end

