-- ==== Sys2Proof/Syntax.lean ====
section
/-! DEFINITION. Commands as they are issued (a word and two operand buses) and the instructions they
stand for: one constructor of `Instr` for each row of spec/opcode_table.json. -/

namespace Sys2Proof

/-- What the command port carries (30_encoding.md R60): the 16-bit word `CMD` and the operand buses
`A` and `B`. -/
structure Command where
  cmd : BitVec 16
  a   : Qword
  b   : Qword
  deriving DecidableEq, Repr

/-- `SZ` (R61): the size of an access, 1, 2, 4 or 8 bytes. -/
inductive AccessSize where
  | b1
  | b2
  | b4
  | b8
  deriving DecidableEq, Repr

/-- The commands of R62 with their operands at the widths of R61 and R62. `w` is the `W` bit:
`true` for a write, `false` for a read or a fetch. -/
inductive Instr where
  | translate (w : Bool) (laddr : LAddr)
  | translateNoabrt (w : Bool) (laddr : LAddr)
  | lookupRead (lpage : LPage)
  | lookupWrite (lpage : LPage)
  | insertRead (lpage : LPage) (ppage : PPage)
  | insertWrite (lpage : LPage) (ppage : PPage)
  | flush
  | flushWritePage (ppage : PPage)
  | invalidate (laddr : LAddr)
  | access (w : Bool) (sz : AccessSize) (laddr : LAddr)
  | writeCr0 (v : Dword)
  | writeCr3 (v : Dword)
  | writeCr4 (v : Dword)
  | setRammask (mask : BitVec 40)
  | setPriv (cpl : BitVec 2) (ovr : Bool)
  | writeAbort (code : Byte)
  deriving DecidableEq, Repr

end Sys2Proof
end

