-- ==== Sys2Proof/Decode.lean ====
section
/-! DEFINITION. The decoder, total on every command and rejecting by name, the encoder written from
the same tables, the pseudo-commands and assembler text of 30_encoding.md R65, and the host's
`decodeTableWord`. -/

namespace Sys2Proof

/-- Why a command word is illegal (30_encoding.md R64). -/
inductive IllegalWord where
  /-- `OP = 0x0` or `OP = 0xF`. -/
  | reservedOp
  /-- `OP = 0xB` with `CRSEL = 3`. -/
  | reservedCrsel
  /-- Bit 7 or one of bits 15:13 is set. -/
  | reservedBit
  /-- A field is set that the command does not use. -/
  | unusedField
  deriving DecidableEq, Repr

/-- The size an `SZ` field names: 0 = 1 byte, 1 = 2, 2 = 4, 3 = 8 (R61). -/
def decodeSize (sz : BitVec 2) : AccessSize :=
  if sz = 0 then .b1 else if sz = 1 then .b2 else if sz = 2 then .b4 else .b8

/-- The `SZ` field of a size (R61). -/
def encodeSize : AccessSize → BitVec 2
  | .b1 => 0
  | .b2 => 1
  | .b4 => 2
  | .b8 => 3

/-- One row of the opcode map: the words with `CMD & mask = pattern` are this row's, and `build`
assembles its operands from the word and the buses by bit selection alone (R63). -/
structure OpcodeRow where
  mask    : BitVec 16
  pattern : BitVec 16
  build   : Command → Instr

/-- The rows for OP 0x1 to 0x9 (R62; mask and match of spec/opcode_table.json). -/
def walkerCacheRows : List OpcodeRow :=
  [ ⟨0xFFEF, 0x0001, fun c => .translate (c.cmd.getLsbD 4) (c.a.extractLsb 31 0)⟩,
    ⟨0xFFEF, 0x0002, fun c => .translateNoabrt (c.cmd.getLsbD 4) (c.a.extractLsb 31 0)⟩,
    ⟨0xFFFF, 0x0003, fun c => .lookupRead (c.a.extractLsb 19 0)⟩,
    ⟨0xFFFF, 0x0004, fun c => .lookupWrite (c.a.extractLsb 19 0)⟩,
    ⟨0xFFFF, 0x0005, fun c => .insertRead (c.a.extractLsb 19 0) (c.b.extractLsb 27 0)⟩,
    ⟨0xFFFF, 0x0006, fun c => .insertWrite (c.a.extractLsb 19 0) (c.b.extractLsb 27 0)⟩,
    ⟨0xFFFF, 0x0007, fun _ => .flush⟩,
    ⟨0xFFFF, 0x0008, fun c => .flushWritePage (c.a.extractLsb 27 0)⟩,
    ⟨0xFFFF, 0x0009, fun c => .invalidate (c.a.extractLsb 31 0)⟩ ]

/-- The rows for OP 0xA to 0xE (R62; mask and match of spec/opcode_table.json). -/
def accessControlRows : List OpcodeRow :=
  [ ⟨0xFF8F, 0x000A, fun c =>
      .access (c.cmd.getLsbD 4) (decodeSize (c.cmd.extractLsb 6 5)) (c.a.extractLsb 31 0)⟩,
    ⟨0xFFFF, 0x000B, fun c => .writeCr0 (c.a.extractLsb 31 0)⟩,
    ⟨0xFFFF, 0x010B, fun c => .writeCr3 (c.a.extractLsb 31 0)⟩,
    ⟨0xFFFF, 0x020B, fun c => .writeCr4 (c.a.extractLsb 31 0)⟩,
    ⟨0xFFFF, 0x000C, fun c => .setRammask (c.a.extractLsb 39 0)⟩,
    ⟨0xE3FF, 0x000D, fun c => .setPriv (c.cmd.extractLsb 11 10) (c.cmd.getLsbD 12)⟩,
    ⟨0xFFFF, 0x000E, fun c => .writeAbort (c.a.extractLsb 7 0)⟩ ]

/-- The opcode map of R62. -/
def opcodeRows : List OpcodeRow := walkerCacheRows ++ accessControlRows

/-- Whether a command word is one of a row's words. -/
def rowMatches (r : OpcodeRow) (cmd : BitVec 16) : Bool := cmd &&& r.mask == r.pattern

/-- The name under which a word outside the opcode map is rejected, in the order R64 lists the
reasons. -/
def illegalReason (cmd : BitVec 16) : IllegalWord :=
  let op : BitVec 4 := cmd.extractLsb 3 0
  if op = 0x0 ∨ op = 0xF then .reservedOp
  else if op = 0xB ∧ cmd.extractLsb 9 8 = 3#2 then .reservedCrsel
  else if cmd.getLsbD 7 ∨ cmd.extractLsb 15 13 ≠ 0#3 then .reservedBit
  else .unusedField

/-- The instruction a command stands for, or the name of what makes its word illegal (R60 to R64). -/
def decode (c : Command) : Except IllegalWord Instr :=
  match opcodeRows.find? (fun r => rowMatches r c.cmd) with
  | some r => .ok (r.build c)
  | none   => .error (illegalReason c.cmd)

/-- A command word from its fields at the positions of R61, reserved bits 0. -/
def wordOf (op : BitVec 4) (w : Bool) (sz crsel cplv : BitVec 2) (ovrv : Bool) : BitVec 16 :=
  0#3 ++ BitVec.ofBool ovrv ++ cplv ++ crsel ++ 0#1 ++ sz ++ BitVec.ofBool w ++ op

/-- The word and buses of an instruction (R61, R62), bus bits above the operands 0. -/
def encode : Instr → Command
  | .translate w a       => ⟨wordOf 0x1 w 0 0 0 false, a.setWidth 64, 0⟩
  | .translateNoabrt w a => ⟨wordOf 0x2 w 0 0 0 false, a.setWidth 64, 0⟩
  | .lookupRead lp       => ⟨wordOf 0x3 false 0 0 0 false, lp.setWidth 64, 0⟩
  | .lookupWrite lp      => ⟨wordOf 0x4 false 0 0 0 false, lp.setWidth 64, 0⟩
  | .insertRead lp pp    => ⟨wordOf 0x5 false 0 0 0 false, lp.setWidth 64, pp.setWidth 64⟩
  | .insertWrite lp pp   => ⟨wordOf 0x6 false 0 0 0 false, lp.setWidth 64, pp.setWidth 64⟩
  | .flush               => ⟨wordOf 0x7 false 0 0 0 false, 0, 0⟩
  | .flushWritePage pp   => ⟨wordOf 0x8 false 0 0 0 false, pp.setWidth 64, 0⟩
  | .invalidate a        => ⟨wordOf 0x9 false 0 0 0 false, a.setWidth 64, 0⟩
  | .access w sz a       => ⟨wordOf 0xA w (encodeSize sz) 0 0 false, a.setWidth 64, 0⟩
  | .writeCr0 v          => ⟨wordOf 0xB false 0 0 0 false, v.setWidth 64, 0⟩
  | .writeCr3 v          => ⟨wordOf 0xB false 0 1 0 false, v.setWidth 64, 0⟩
  | .writeCr4 v          => ⟨wordOf 0xB false 0 2 0 false, v.setWidth 64, 0⟩
  | .setRammask m        => ⟨wordOf 0xC false 0 0 0 false, m.setWidth 64, 0⟩
  | .setPriv cpl ovr     => ⟨wordOf 0xD false 0 0 cpl ovr, 0, 0⟩
  | .writeAbort code     => ⟨wordOf 0xE false 0 0 0 false, code.setWidth 64, 0⟩

/-! The pseudo-commands of R65 and their expansions. -/

/-- `FLUSHMMUCACHE_CR3` is `FLUSH`. -/
def pseudoFlushMmuCacheCr3 : Instr := .flush

/-- `A20_TOGGLE mask` is `SET_RAMMASK mask`. -/
def pseudoA20Toggle (mask : BitVec 40) : Instr := .setRammask mask

/-- `CLEAR_ABORT` is `WRITE_ABORT 0`. -/
def pseudoClearAbort : Instr := .writeAbort 0

/-- `FETCH laddr` is `ACCESS.R1 laddr`. -/
def pseudoFetch (laddr : LAddr) : Instr := .access false .b1 laddr

/-- One hexadecimal digit. -/
def hexDigit (n : Nat) : Char := "0123456789ABCDEF".toList.getD n '0'

/-- The low `n` hexadecimal digits of a number, most significant first. -/
def hexDigits : Nat → Nat → List Char
  | 0, _ => []
  | n + 1, v => hexDigits n (v / 16) ++ [hexDigit (v % 16)]

/-- A numeric operand in assembler text: hexadecimal with `0x` (R65), at the operand's full width
(notes/assumptions/17.md). -/
def hexOperand (digits v : Nat) : String := "0x" ++ String.ofList (hexDigits digits v)

/-- The access kind letter of R65. -/
def kindLetter (w : Bool) : String := if w then "W" else "R"

/-- The size digit of `ACCESS.<R|W><1|2|4|8>` (R65). -/
def sizeDigit : AccessSize → String
  | .b1 => "1"
  | .b2 => "2"
  | .b4 => "4"
  | .b8 => "8"

/-- The assembler text of an instruction (R65). -/
def asmText : Instr → String
  | .translate w a       => "TRANSLATE." ++ kindLetter w ++ " " ++ hexOperand 8 a.toNat
  | .translateNoabrt w a => "TRANSLATE_NOABRT." ++ kindLetter w ++ " " ++ hexOperand 8 a.toNat
  | .lookupRead lp       => "LOOKUP_READ " ++ hexOperand 5 lp.toNat
  | .lookupWrite lp      => "LOOKUP_WRITE " ++ hexOperand 5 lp.toNat
  | .insertRead lp pp    => "INSERT_READ " ++ hexOperand 5 lp.toNat ++ ", " ++ hexOperand 7 pp.toNat
  | .insertWrite lp pp   => "INSERT_WRITE " ++ hexOperand 5 lp.toNat ++ ", " ++ hexOperand 7 pp.toNat
  | .flush               => "FLUSH"
  | .flushWritePage pp   => "FLUSH_WRITE_PAGE " ++ hexOperand 7 pp.toNat
  | .invalidate a        => "INVALIDATE " ++ hexOperand 8 a.toNat
  | .access w sz a       => "ACCESS." ++ kindLetter w ++ sizeDigit sz ++ " " ++ hexOperand 8 a.toNat
  | .writeCr0 v          => "WRITE_CR0 " ++ hexOperand 8 v.toNat
  | .writeCr3 v          => "WRITE_CR3 " ++ hexOperand 8 v.toNat
  | .writeCr4 v          => "WRITE_CR4 " ++ hexOperand 8 v.toNat
  | .setRammask m        => "SET_RAMMASK " ++ hexOperand 10 m.toNat
  | .setPriv cpl ovr     => "SET_PRIV " ++ hexOperand 1 cpl.toNat ++ ", " ++ hexOperand 1 ovr.toNat
  | .writeAbort code     => "WRITE_ABORT " ++ hexOperand 2 code.toNat

/-- The command whose bits, numbered as spec/opcode_table.json numbers them, are `w`: CMD in bits
15:0, the A bus in bits 79:16, the B bus in bits 143:80. DESIGN CHOICE (notes/assumptions/11.md):
the spec puts the three on separate buses and gives them no common numbering. -/
def commandOfBits (w : Nat) : Command :=
  ⟨BitVec.ofNat 16 w, BitVec.ofNat 64 (w / 2 ^ 16), BitVec.ofNat 64 (w / 2 ^ 80)⟩

/-- The command of a table row's `nbits` bits, every bit above them 0. -/
def commandOfTableWord (nbits w : Nat) : Command := commandOfBits (w % 2 ^ nbits)

/-- The instruction the decoder reads from a table word (the host's interface). -/
def decodeTableWord (nbits w : Nat) : Option Instr := (decode (commandOfTableWord nbits w)).toOption

end Sys2Proof
end

