-- ==== Sys2Proof/Config.lean ====
section
/-! DEFINITION. The parameters of 00_scope.md R7 and 20_memory.md R48, and the one free value of the
model. The parameters are plain data so that a statement over all states holds for every setting of
them; no command writes them (notes/assumptions/1.md). -/

namespace Sys2Proof

/-- `PT_ACCESS` (R41): how the port reaches memory. -/
inductive PtAccess where
  | directRam
  | dispatch
  deriving DecidableEq, Repr

/-- The parameters of R7 and R48. A field's default is the default the spec gives; where the spec
gives none (`ptAccess`, `resetRammask`) it is a DESIGN CHOICE (notes/assumptions/1.md, 2.md). -/
structure Config where
  /-- `CACHE_SIZE = 2 ^ cacheBits`: a power of two by construction, 256 by default. -/
  cacheBits : Nat := 8
  /-- `PT_ACCESS`. -/
  ptAccess : PtAccess := .dispatch
  /-- `WP_SUPPORTED`: whether CR0.WP is honoured in the two-level walk (R100, D8). -/
  wpSupported : Bool := true
  /-- `PAE_LARGE_NEEDS_PSE`: whether a 2 MB page needs CR4.PSE (R96, D6). -/
  paeLargeNeedsPse : Bool := false
  /-- `FLUSH_ON_MODE_CHANGE`: whether a change of PG, PSE or PAE flushes (R190, R192, D21). -/
  flushOnModeChange : Bool := true
  /-- `EC_U_IGNORES_OVERRIDE`: whether the error code's U bit ignores OVR (R103, D9). -/
  ecUIgnoresOverride : Bool := true
  /-- `WALK_APPLIES_RAMMASK`: whether the walker masks its port addresses (R48, D43). -/
  walkAppliesRammask : Bool := false
  /-- `RESET_RAMMASK` (R240, D27). DESIGN CHOICE for the default: the value 95_test_vectors.md
  Part 3 starts from. -/
  resetRammask : BitVec 40 := 0xFFFFFFFFFF
  deriving DecidableEq, Repr

/-- `CACHE_SIZE`, the number of slots of each cache (R7). -/
def Config.cacheSize (c : Config) : Nat := 2 ^ c.cacheBits

/-- The setting with every default of R7 and R48. -/
def Config.standard : Config := {}

/-- FREE VALUE. The byte a device returns to the port (R47; 93_implementation_defined.md: "any value
for the value read, as the physical layer returns it"). The first argument is how many port accesses
were made before this one, so that two reads of one address need not agree (notes/assumptions/6.md). -/
opaque Config.deviceByte : Nat → PAddr → Byte

end Sys2Proof
end

