-- ==== Sys2Proof/Machine/State.lean ====
section
/-! DEFINITION. Everything the spec gives the block (10_state.md), what other parts of the machine
supply to it, and the model's own observation fields, as plain data; the ways a step can stop; and the
state right after reset (70_reset_and_hazards.md R240). -/

namespace Sys2Proof.Machine

/-- A slot of a translation cache (R22, R23, R78). `route` is the write cache's; it is `false` in the
read cache. -/
structure Slot where
  valid : Bool
  lpage : LPage
  ppage : PPage
  perm  : Byte
  route : Bool
  deriving DecidableEq, Repr

/-- A translation cache: its slots by number and its round-robin cursor (R22 to R24;
notes/assumptions/22.md). -/
structure Cache where
  slots : List Slot
  next  : Nat
  deriving DecidableEq, Repr

/-- Physical memory as (address, byte) pairs in canonical form (`Memory.wf` in Ops.lean). -/
abbrev Memory := List Host.Cell

/-- What the physical layer has at an address (R43, R44, R47). -/
inductive RegionKind where
  /-- Directly-addressable RAM. -/
  | ram
  /-- Readable memory whose writes are dropped (R43; 95_test_vectors.md S9). -/
  | rom
  /-- A device: a read returns any value, a write changes no memory (R47). -/
  | device
  deriving DecidableEq, Repr

/-- A range of the physical address space. -/
structure Region where
  base : Nat
  size : Nat
  kind : RegionKind
  deriving DecidableEq, Repr

/-- What other parts of the machine supply and may change between commands. No command writes it
(notes/assumptions/3.md, 4.md). -/
structure Platform where
  /-- The physical address map: the first region that holds an address decides; an address in none
  is unmapped. -/
  regions : List Region
  /-- The pairs (ppage, is-write) for which `cacheable` is false (D18). -/
  uncacheable : List (PPage × Bool)
  /-- The physical pages for which `code_present` is true (D18). -/
  codePages : List PPage
  deriving DecidableEq, Repr

/-- One access of the physical port (R40). -/
inductive PortAccess where
  | read4 (addr : PAddr) (value : Dword)
  | read8 (addr : PAddr) (value : Qword)
  | write4 (addr : PAddr) (value : Dword)
  deriving DecidableEq, Repr

/-- What a command drives: `RES`, `ST`, `RES1`, `LEN0` (R26). -/
structure Outputs where
  res  : Qword
  st   : BitVec 4
  res1 : Qword
  len0 : BitVec 4
  deriving DecidableEq, Repr

/-- What reaches the block from outside: commands, what other parts of the machine do between
commands (R49, R244, R247), and the lifecycle calls of R240 (notes/assumptions/12.md, 18.md). -/
inductive Input where
  /-- A command issued on the command port. -/
  | command (c : Command)
  /-- Another part of the machine stores a byte to physical memory. -/
  | guestStore (addr : PAddr) (v : Byte)
  /-- The Mapping Table, the cacheable predicate or the recompiler's predicate changes. -/
  | setPlatform (p : Platform)
  /-- The lifecycle's `reset`; `init` is a reset. -/
  | reset
  /-- The lifecycle's `close`; no command follows it. -/
  | close
  deriving DecidableEq, Repr

/-- The state of the block. -/
structure State where
  /-- The parameters of R7 and R48. -/
  cfg : Config
  /-- What other parts of the machine supply. -/
  env : Platform
  /-- `CR0` (R12). -/
  cr0 : Dword
  /-- `CR3` (R13). -/
  cr3 : Dword
  /-- `CR4` (R14). -/
  cr4 : Dword
  /-- `CPL` (R15). -/
  cpl : BitVec 2
  /-- `OVR` (R16). -/
  ovr : Bool
  /-- `RAMMASK` (R17). -/
  rammask : BitVec 40
  /-- `ABRT` (R18). -/
  abrt : Byte
  /-- `ABRT_ERR` (R19). -/
  abrtErr : Dword
  /-- `CR2` (R20). -/
  cr2 : LAddr
  /-- `LAST_PERM` (R21). -/
  lastPerm : Byte
  /-- The read cache `RC` and `RNEXT` (R22, R24). -/
  rc : Cache
  /-- The write cache `WC` and `WNEXT` (R23, R24). -/
  wc : Cache
  /-- Physical memory (R27, R40). -/
  mem : Memory
  /-- Model's own: what the last command drove (R26). -/
  out : Outputs
  /-- Model's own: the last command's port accesses in order (R222). -/
  portLog : List PortAccess
  /-- Model's own: how many port accesses were ever made; indexes the free value. -/
  portCount : Nat
  /-- Model's own: inputs not yet taken, in issue order (R6, R11). -/
  inputs : List Input
  /-- Model's own: `close` has happened (R240). -/
  closed : Bool
  deriving DecidableEq, Repr

/-- Why the machine stops with a fault. -/
inductive Fault where
  /-- Raised by `step` when an input stands after `close`: "`close` ends the block; no command
  follows it" (R240). Safe: the model stops where the spec says nothing happens. -/
  | afterClose
  deriving DecidableEq, Repr

/-- Why the machine refuses. -/
inductive Refusal where
  /-- An instruction without a meaning yet, by its mnemonic. Raised by no arm of `exec`. Safe. -/
  | notModelled (mnemonic : String)
  /-- Raised by TRANSLATE, TRANSLATE_NOABRT and ACCESS when `PT_ACCESS = DIRECT_RAM` and the walk
  fetches an entry that is not all in RAM: "A model refuses such a walk: it gives it no meaning"
  (R41, D28). Safe. -/
  | directRamOutsideRam
  deriving DecidableEq, Repr

/-- A slot with `valid = 0`. R22 and R23 leave the other fields unspecified and no rule reads them;
DESIGN CHOICE: zero (notes/assumptions/14.md). -/
def Slot.empty : Slot := ⟨false, 0, 0, 0, false⟩

/-- A cache of `n` invalid slots with its cursor at 0 (R240). -/
def Cache.empty (n : Nat) : Cache := ⟨List.replicate n Slot.empty, 0⟩

/-- DESIGN CHOICE (notes/assumptions/3.md, 4.md): RAM over the whole 40-bit space, every page
cacheable, no page with code, as the vectors of 95_test_vectors.md assume. -/
def Platform.standard : Platform := ⟨[⟨0, 2 ^ 40, .ram⟩], [], []⟩

/-- The block right after reset under a setting of the parameters and a platform: the table of R240,
no memory listed, nothing driven, nothing issued. -/
def State.resetWith (cfg : Config) (env : Platform) : State where
  cfg := cfg
  env := env
  cr0 := 0x00000000
  cr3 := 0x00000000
  cr4 := 0x00000000
  cpl := 0
  ovr := false
  rammask := cfg.resetRammask
  abrt := 0x00
  abrtErr := 0x00000000
  cr2 := 0x00000000
  lastPerm := 0x00
  rc := Cache.empty cfg.cacheSize
  wc := Cache.empty cfg.cacheSize
  mem := []
  out := ⟨0, 0, 0, 0⟩
  portLog := []
  portCount := 0
  inputs := []
  closed := false

/-- The block right after reset under the default parameters. -/
def State.reset : State := State.resetWith Config.standard Platform.standard

end Sys2Proof.Machine
end

