-- ==== Sys2Proof/Machine/Flags.lean ====
section
/-! DEFINITION. The control-register fields (30_encoding.md R77), the permission checker
(40_walker.md R100, R102), the error code (R103) and the status output (10_state.md R26). -/

namespace Sys2Proof.Machine

/-- `CR0.PG`, bit 31: translate through the walk. -/
def pg (s : State) : Bool := s.cr0.getLsbD 31

/-- `CR0.WP`, bit 16: supervisor write protection. -/
def wp (s : State) : Bool := s.cr0.getLsbD 16

/-- `CR4.PSE`, bit 4. -/
def pse (s : State) : Bool := s.cr4.getLsbD 4

/-- `CR4.PAE`, bit 5. -/
def pae (s : State) : Bool := s.cr4.getLsbD 5

/-- Only `CPL = 3` is user; 0, 1 and 2 are supervisor (R15, R219). -/
def isUser (s : State) : Bool := s.cpl == 3

/-- The walk mode (R90). -/
inductive WalkMode where
  | twoLevel
  | pae
  deriving DecidableEq, Repr

/-- `CR4.PAE = 1` selects the three-level walk (R90). -/
def walkMode (s : State) : WalkMode := if pae s then .pae else .twoLevel

/-- `WPeff(mode)` (R100). -/
def wpEff (s : State) (mode : WalkMode) : Bool := wp s && (mode == .pae || s.cfg.wpSupported)

/-- `user_fault` (R100): `e[2]` is the user/supervisor bit. -/
def userFault {n : Nat} (s : State) (e : BitVec n) : Bool := isUser s && !e.getLsbD 2 && !s.ovr

/-- `write_fault` (R100): `e[1]` is the read/write bit. -/
def writeFault {n : Nat} (s : State) (mode : WalkMode) (e : BitVec n) (w : Bool) : Bool :=
  w && !e.getLsbD 1 && !s.ovr && (isUser s || wpEff s mode)

/-- `PermOk(e, w)` (R100), of a combined entry or of a cache permission byte. -/
def permOk {n : Nat} (s : State) (mode : WalkMode) (e : BitVec n) (w : Bool) : Bool :=
  !userFault s e && !writeFault s mode e w

/-- `PermByte(e) = {0b00000, e[2], e[1], 1}` (R102, R76). -/
def permByte {n : Nat} (e : BitVec n) : Byte :=
  0#5 ++ BitVec.ofBool (e.getLsbD 2) ++ BitVec.ofBool (e.getLsbD 1) ++ 1#1

/-- The permission byte with paging disabled (R92). -/
def permAll : Byte := 0x07

/-- The error code's U bit (R103). -/
def errorUser (s : State) : Bool :=
  if s.cfg.ecUIgnoresOverride then isUser s else isUser s && !s.ovr

/-- The error code `zext_32({U, w, p})` (R103, R75). -/
def errorCode (s : State) (w p : Bool) : Dword :=
  (BitVec.ofBool (errorUser s) ++ BitVec.ofBool w ++ BitVec.ofBool p).setWidth 32

/-- `SENTINEL` (R8). -/
def sentinel : Qword := 0xFFFFFFFFFFFFFFFF

/-- `ST[0]`, OK or HIT (R26). -/
def stOk : BitVec 4 := 0b0001

/-- `ST[1]`, FAULT (R26). -/
def stFault : BitVec 4 := 0b0010

/-- `ST[2]`, ROUTE (R26). -/
def stRoute : BitVec 4 := 0b0100

/-- `ST[3]`, SPLIT (R26). -/
def stSplit : BitVec 4 := 0b1000

/-- `ST` of a miss or of a silent failure (R111, R140). -/
def stNone : BitVec 4 := 0b0000

/-- The status bit, when its condition holds. -/
def stWhen (b : Bool) (bit : BitVec 4) : BitVec 4 := if b then bit else 0

/-- What a command that only completes drives: `ST <- OK`, every other output 0 (R26). -/
def okOutputs : Outputs := ⟨0, stOk, 0, 0⟩

/-- What a command that raised or found an abort drives: `RES <- SENTINEL`, `ST <- FAULT` (D38). -/
def faultOutputs : Outputs := ⟨sentinel, stFault, 0, 0⟩

end Sys2Proof.Machine
end

