-- ==== Sys2Proof/Machine/Operands.lean ====
section
/-! DEFINITION. How addresses are taken apart and put together: the fields of a logical address
(30_encoding.md R66), the entry addresses of the walks (40_walker.md R94, R95), the physical addresses
(R105), the split of an access (42_frontend_control.md R181), and the packed slot (R78). Entry and
physical addresses are concatenations; R93 says they equal the sums. -/

namespace Sys2Proof.Machine

/-- Non-PAE directory entry address: `{CR3[31:12], laddr[31:22], 0b00}` (R94). -/
def pdeAddr2 (cr3 : Dword) (a : LAddr) : BitVec 32 :=
  cr3.extractLsb 31 12 ++ a.extractLsb 31 22 ++ 0#2

/-- Non-PAE table entry address: `{pde[31:12], laddr[21:12], 0b00}` (R94). -/
def pteAddr2 (pde : Dword) (a : LAddr) : BitVec 32 :=
  pde.extractLsb 31 12 ++ a.extractLsb 21 12 ++ 0#2

/-- PDPTE address: `{CR3[31:5], laddr[31:30], 0b000}` (R95, "addr2"). -/
def pdpteAddr3 (cr3 : Dword) (a : LAddr) : BitVec 32 :=
  cr3.extractLsb 31 5 ++ a.extractLsb 31 30 ++ 0#3

/-- PAE directory entry address: `{pdpte[39:12], laddr[29:21], 0b000}` (R95, "addr3"). -/
def pdeAddr3 (pdpte : BitVec 40) (a : LAddr) : PAddr :=
  pdpte.extractLsb 39 12 ++ a.extractLsb 29 21 ++ 0#3

/-- PAE table entry address: `{pde[39:12], laddr[20:12], 0b000}` (R95, "addr4"). -/
def pteAddr3 (pde : BitVec 40) (a : LAddr) : PAddr :=
  pde.extractLsb 39 12 ++ a.extractLsb 20 12 ++ 0#3

/-- A PAE entry: 64 bits "masked to bits 39:0" (R95). -/
def maskEntry (e : Qword) : BitVec 40 := e.extractLsb 39 0

/-- Physical address in a non-PAE 4 KB page: `{pte[31:12], laddr[11:0]}` (R105). -/
def phys4K (pte : Dword) (a : LAddr) : BitVec 32 := pte.extractLsb 31 12 ++ a.extractLsb 11 0

/-- Physical address in a 4 MB page: `{pde[31:22], laddr[21:0]}` (R105). -/
def phys4M (pde : Dword) (a : LAddr) : BitVec 32 := pde.extractLsb 31 22 ++ a.extractLsb 21 0

/-- Physical address in a PAE 4 KB page: `{pte[39:12], laddr[11:0]}` (R105). -/
def phys4KPae (pte : BitVec 40) (a : LAddr) : PAddr := pte.extractLsb 39 12 ++ a.extractLsb 11 0

/-- Physical address in a 2 MB page: `{pde[39:21], laddr[20:0]}` (R105). -/
def phys2M (pde : BitVec 40) (a : LAddr) : PAddr := pde.extractLsb 39 21 ++ a.extractLsb 20 0

/-- The logical page of an address (R9). -/
def lpageOf (a : LAddr) : LPage := a.extractLsb 31 12

/-- The physical page of an address (R9). -/
def ppageOf (p : PAddr) : PPage := p.extractLsb 39 12

/-- A cache hit's address: `{ppage, a[11:0]}` (R180; notes/assumptions/20.md). -/
def hitAddr (pp : PPage) (a : LAddr) : PAddr := pp ++ a.extractLsb 11 0

/-- The bytes an access touches, `n = 1 << SZ` (R183). -/
def sizeBytes : AccessSize → Nat
  | .b1 => 1
  | .b2 => 2
  | .b4 => 4
  | .b8 => 8

/-- A part of an access that lies in one 4 KB page (R181). -/
structure SubAccess where
  addr : LAddr
  len  : Nat
  deriving DecidableEq, Repr

/-- The split of an access of `n` bytes at a page boundary (R181); the second part's address wraps at
`2^32`. -/
def splitAccess (a : LAddr) (n : Nat) : List SubAccess :=
  let off := (a.extractLsb 11 0).toNat
  if off + n ≤ 0x1000 then [⟨a, n⟩]
  else
    let n0 := 0x1000 - off
    [⟨a, n0⟩, ⟨a + BitVec.ofNat 32 n0, n - n0⟩]

/-- A slot as one 58-bit word (R78). -/
def packSlot (t : Slot) : BitVec 58 :=
  BitVec.ofBool t.route ++ t.perm ++ t.ppage ++ t.lpage ++ BitVec.ofBool t.valid

/-- The slot a 58-bit word packs (R78). -/
def unpackSlot (x : BitVec 58) : Slot :=
  ⟨x.getLsbD 0, x.extractLsb 20 1, x.extractLsb 48 21, x.extractLsb 56 49, x.getLsbD 57⟩

end Sys2Proof.Machine
end

