-- ==== Sys2Proof/Machine/Ops.lean ====
section
/-! DEFINITION. The named operations: physical memory, the physical port (20_memory.md), the
translation caches (41_cache.md), raising a page fault and ending it (60_exceptions.md R213, R217), the
flush, the block's reset (70_reset_and_hazards.md R240), and driving the outputs. -/

namespace Sys2Proof.Machine

/-! ## Memory -/

/-- What an unlisted address reads as. DESIGN CHOICE (notes/assumptions/5.md): the spec gives memory no
reset contents; 95_test_vectors.md says "Memory not listed is zero". -/
def Memory.unlisted : Byte := 0x00

/-- The byte at an address. -/
def Memory.read : Memory → Nat → Byte
  | [], _ => Memory.unlisted
  | (k, v) :: m, a => if a = k then v else Memory.read m a

/-- The memory with one byte put in front, unless it is what an unlisted address reads as. -/
def Memory.cons (a : Nat) (v : Byte) (m : Memory) : Memory :=
  if v = Memory.unlisted then m else (a, v) :: m

/-- The memory after a byte is stored, in canonical form again. -/
def Memory.write : Memory → Nat → Byte → Memory
  | [], a, v => Memory.cons a v []
  | (k, x) :: m, a, v =>
    if a < k then Memory.cons a v ((k, x) :: m)
    else if a = k then Memory.cons a v m
    else (k, x) :: Memory.write m a v

/-- The canonical form: addresses strictly rising and below `2^40`, and no entry equal to what an
unlisted address reads as. -/
abbrev Memory.wf (m : Memory) : Prop :=
  m.Pairwise (fun c d => c.1 < d.1) ∧ ∀ c ∈ m, c.1 < 2 ^ 40 ∧ c.2 ≠ Memory.unlisted

/-! ## The physical port -/

/-- Whether a region holds an address. -/
def regionHolds (r : Region) (a : PAddr) : Bool :=
  decide (r.base ≤ a.toNat) && decide (a.toNat < r.base + r.size)

/-- What the physical layer has at an address; `none` is unmapped (R43, R44). -/
def kindAt (p : Platform) (a : PAddr) : Option RegionKind :=
  (p.regions.find? (fun r => regionHolds r a)).map (·.kind)

/-- The byte the port returns from an address, `k` port accesses from now (R43, R47). -/
def portByte (s : State) (k : Nat) (a : PAddr) : Byte :=
  match kindAt s.env a with
  | some .ram    => Memory.read s.mem a.toNat
  | some .rom    => Memory.read s.mem a.toNat
  | some .device => Config.deviceByte (s.portCount + k) a
  | none         => 0xFF

/-- `MemRead(a, 4)`, `k` port accesses from now, little-endian (R40, R42). -/
def memRead4 (s : State) (k : Nat) (a : PAddr) : Dword :=
  portByte s k (a + 3) ++ portByte s k (a + 2) ++ portByte s k (a + 1) ++ portByte s k a

/-- `MemRead(a, 8)`, `k` port accesses from now, little-endian (R40, R42). -/
def memRead8 (s : State) (k : Nat) (a : PAddr) : Qword :=
  memRead4 s k (a + 4) ++ memRead4 s k a

/-- The memory after a byte is stored through the physical layer: kept in RAM, dropped elsewhere
(R43; notes/assumptions/6.md, 7.md). -/
def storeByte (p : Platform) (m : Memory) (a : PAddr) (v : Byte) : Memory :=
  if kindAt p a = some .ram then Memory.write m a.toNat v else m

/-- The memory after `MemWrite(a, 4, v)`: `v[7:0]` at `a`, `v[31:24]` at `a + 3` (R42). -/
def store4 (p : Platform) (m : Memory) (a : PAddr) (v : Dword) : Memory :=
  storeByte p
    (storeByte p
      (storeByte p (storeByte p m a (v.extractLsb 7 0)) (a + 1) (v.extractLsb 15 8))
      (a + 2) (v.extractLsb 23 16))
    (a + 3) (v.extractLsb 31 24)

/-- Port accesses made: recorded for the debug-access hook (R222) and counted. -/
def logPort (l : List PortAccess) (s : State) : State :=
  { s with portLog := s.portLog ++ l, portCount := s.portCount + l.length }

/-- `MemWrite(a, 4, v)` (R40, R42). -/
def memWrite4 (a : PAddr) (v : Dword) (s : State) : State :=
  logPort [.write4 a v] { s with mem := store4 s.env s.mem a v }

/-- The address the port receives for an address the walker forms, fetch or write-back (R48;
notes/assumptions/19.md). -/
def portAddr (s : State) (a : PAddr) : PAddr :=
  if s.cfg.walkAppliesRammask then a &&& s.rammask else a

/-- Whether the `n` bytes at an address are all directly-addressable RAM (R41). -/
def allRam (s : State) (a : PAddr) (n : Nat) : Bool :=
  (List.range n).all fun i => kindAt s.env (a + BitVec.ofNat 40 i) == some .ram

/-- Whether `PT_ACCESS` reaches the bytes of an access: `DISPATCH` reaches every address,
`DIRECT_RAM` only RAM (R41). -/
def portReaches (s : State) (acc : PortAccess) : Bool :=
  s.cfg.ptAccess == .dispatch ||
    match acc with
    | .read4 a _  => allRam s a 4
    | .read8 a _  => allRam s a 8
    | .write4 a _ => allRam s a 4

/-! ## The translation caches -/

/-- Whether a valid slot holds a logical page. -/
def holds (lp : LPage) (t : Slot) : Bool := t.valid && t.lpage == lp

/-- A slot hits when it is valid, holds the page, and its permission byte passes the check under the
current registers (R139; the mode of `WPeff`: notes/assumptions/13.md). -/
def hits (s : State) (w : Bool) (lp : LPage) (t : Slot) : Bool :=
  holds lp t && permOk s (walkMode s) t.perm w

/-- The slot that hits, if any (R139). At most one does when the cache invariant holds
(R25; notes/assumptions/15.md). -/
def lookup (s : State) (w : Bool) (c : Cache) (lp : LPage) : Option Slot :=
  c.slots.find? (hits s w lp)

/-- Insertion (R144, R145): nothing when the logical page is already valid in the cache, else the slot
at the cursor is overwritten and the cursor advances modulo `CACHE_SIZE`. -/
def Cache.insert (size : Nat) (t : Slot) (c : Cache) : Cache :=
  if c.slots.any (holds t.lpage) then c
  else ⟨c.slots.set c.next t, (c.next + 1) % size⟩

/-- A slot with its valid bit cleared and its other fields kept. -/
def clearValid (t : Slot) : Slot := { t with valid := false }

/-- Every valid bit cleared and the cursor at 0 (R146). -/
def Cache.flush (c : Cache) : Cache := ⟨c.slots.map clearValid, 0⟩

/-- The slots that point to a physical page invalidated, the cursor kept (R147). -/
def Cache.dropPage (pp : PPage) (c : Cache) : Cache :=
  { c with slots := c.slots.map fun t => if t.valid && t.ppage == pp then clearValid t else t }

/-- `FLUSH()` (R146): both caches. -/
def flushCaches (s : State) : State := { s with rc := s.rc.flush, wc := s.wc.flush }

/-- `FLUSH()` when a condition holds (R190, R192). -/
def flushWhen (b : Bool) (s : State) : State := if b then flushCaches s else s

/-- `cacheable(ppage, kind)` (D18). -/
def cacheable (s : State) (pp : PPage) (w : Bool) : Bool := !s.env.uncacheable.contains (pp, w)

/-- `code_present(ppage)` (D18). -/
def codePresent (s : State) (pp : PPage) : Bool := s.env.codePages.contains pp

/-- The read cache's part of an insertion (R144). -/
def insertReadSlot (lp : LPage) (pp : PPage) (s : State) : State :=
  { s with rc := s.rc.insert s.cfg.cacheSize ⟨true, lp, pp, s.lastPerm, false⟩ }

/-- The write cache's part of an insertion; `route` is `code_present`, sampled now (R145). -/
def insertWriteSlot (lp : LPage) (pp : PPage) (s : State) : State :=
  { s with wc := s.wc.insert s.cfg.cacheSize ⟨true, lp, pp, s.lastPerm, codePresent s pp⟩ }

/-! ## The page fault and its end -/

/-- The abort code of a page fault (R210). -/
def pageFaultCode : Byte := 0x0E

/-- `raise PageFault(laddr, ec)`: `CR2`, `ABRT_ERR` and `ABRT` are written and nothing else (R213). -/
def raisePageFault (a : LAddr) (ec : Dword) (s : State) : State :=
  { s with cr2 := a, abrtErr := ec, abrt := pageFaultCode }

/-- The abort register loaded by the CPU core: with 0 it ends a fault (R195, R217). -/
def loadAbort (code : Byte) (s : State) : State := { s with abrt := code }

/-! ## Outputs, reset -/

/-- The command drives its outputs (R26). -/
def drive (o : Outputs) (s : State) : State := { s with out := o }

/-- A command is accepted: no port access of it has been made yet. -/
def beginCommand (s : State) : State := { s with portLog := [] }

/-- The lifecycle's `reset` (R240): every piece of the block's state takes the table's value. Memory,
the platform, the parameters and the inputs still to come are not the block's and stay
(notes/assumptions/12.md). -/
def blockReset (s : State) : State :=
  { s with
    cr0 := 0, cr3 := 0, cr4 := 0, cpl := 0, ovr := false, rammask := s.cfg.resetRammask,
    abrt := 0, abrtErr := 0, cr2 := 0, lastPerm := 0,
    rc := Cache.empty s.cfg.cacheSize, wc := Cache.empty s.cfg.cacheSize,
    out := ⟨0, 0, 0, 0⟩, portLog := [] }

end Sys2Proof.Machine
end

