-- ==== Sys2Proof/Machine/Walk.lean ====
section
/-! DEFINITION. The page-table walks (40_walker.md R94, R95), the write-back of accessed and dirty bits
(R104), and the meanings of TRANSLATE (R110) and TRANSLATE_NOABRT (R111). A walk is a function of the
state that writes nothing; it also tells which port reads it made, in order. -/

namespace Sys2Proof.Machine

/-- An accessed/dirty write-back: the entry's address and the bits to set (R104). -/
structure WriteBack where
  addr : PAddr
  bits : Dword
  deriving DecidableEq, Repr

/-- What a walk answers: `Fail(p)` or `Ok(phys, perm, wb)` (R94). -/
inductive WalkResult where
  | fail (p : Bool)
  | ok (phys : PAddr) (perm : Byte) (wb : List WriteBack)
  deriving DecidableEq, Repr

/-- A walk: its port reads in order and its answer. -/
structure Walk where
  reads  : List PortAccess
  result : WalkResult
  deriving DecidableEq, Repr

/-- The accessed bit (R104). -/
def accessedBits : Dword := 0x20

/-- A leaf's write-back: accessed on a read, accessed and dirty on a write (R104). -/
def leafBits (w : Bool) : Dword := if w then 0x60 else 0x20

/-- What a walk answers at a large page: its directory entry is the leaf and the combined entry
(R96, R97). -/
def largeLeaf {n : Nat} (s : State) (mode : WalkMode) (w : Bool) (pde : BitVec n) (pdeA : PAddr)
    (phys : PAddr) : WalkResult :=
  if permOk s mode pde w then .ok phys (permByte pde) [⟨pdeA, leafBits w⟩] else .fail true

/-- What a walk answers at a 4 KB page: the combined entry is `pte & pde` (R97); the present bit is
tested before the permissions (R98). -/
def smallLeaf {n : Nat} (s : State) (mode : WalkMode) (w : Bool) (pde pte : BitVec n)
    (pdeA pteA : PAddr) (phys : PAddr) : WalkResult :=
  if !pte.getLsbD 0 then .fail false
  else if permOk s mode (pte &&& pde) w then
    .ok phys (permByte (pte &&& pde)) [⟨pdeA, accessedBits⟩, ⟨pteA, leafBits w⟩]
  else .fail true

/-- The two-level walk `Walk2` (R94). -/
def walk2 (s : State) (w : Bool) (a : LAddr) : Walk :=
  let pdeA : PAddr := (pdeAddr2 s.cr3 a).setWidth 40
  let pde := memRead4 s 0 (portAddr s pdeA)
  let r0 := PortAccess.read4 (portAddr s pdeA) pde
  if !pde.getLsbD 0 then ⟨[r0], .fail false⟩
  else if pde.getLsbD 7 && pse s then
    ⟨[r0], largeLeaf s .twoLevel w pde pdeA ((phys4M pde a).setWidth 40)⟩
  else
    let pteA : PAddr := (pteAddr2 pde a).setWidth 40
    let pte := memRead4 s 1 (portAddr s pteA)
    ⟨[r0, .read4 (portAddr s pteA) pte],
      smallLeaf s .twoLevel w pde pte pdeA pteA ((phys4K pte a).setWidth 40)⟩

/-- Whether a PAE directory entry maps a 2 MB page (R96). -/
def isLargePae (s : State) (pde : BitVec 40) : Bool :=
  pde.getLsbD 7 && (!s.cfg.paeLargeNeedsPse || pse s)

/-- The three-level PAE walk `Walk3` (R95). The PDPTE is tested for present only. -/
def walk3 (s : State) (w : Bool) (a : LAddr) : Walk :=
  let pdpteA : PAddr := (pdpteAddr3 s.cr3 a).setWidth 40
  let q0 := memRead8 s 0 (portAddr s pdpteA)
  let r0 := PortAccess.read8 (portAddr s pdpteA) q0
  if !(maskEntry q0).getLsbD 0 then ⟨[r0], .fail false⟩
  else
    let pdeA := pdeAddr3 (maskEntry q0) a
    let q1 := memRead8 s 1 (portAddr s pdeA)
    let r1 := PortAccess.read8 (portAddr s pdeA) q1
    let pde := maskEntry q1
    if !pde.getLsbD 0 then ⟨[r0, r1], .fail false⟩
    else if isLargePae s pde then ⟨[r0, r1], largeLeaf s .pae w pde pdeA (phys2M pde a)⟩
    else
      let pteA := pteAddr3 pde a
      let q2 := memRead8 s 2 (portAddr s pteA)
      let pte := maskEntry q2
      ⟨[r0, r1, .read8 (portAddr s pteA) q2],
        smallLeaf s .pae w pde pte pdeA pteA (phys4KPae pte a)⟩

/-- The walk of the current mode (R90). -/
def walk (s : State) (w : Bool) (a : LAddr) : Walk :=
  match walkMode s with
  | .twoLevel => walk2 s w a
  | .pae      => walk3 s w a

/-- One write-back: `MemWrite(a, 4, MemRead(a, 4) | bits)`, re-read at write time (R104). -/
def writeBack (wb : WriteBack) (s : State) : State :=
  let a := portAddr s wb.addr
  let old := memRead4 s 0 a
  memWrite4 a (old ||| wb.bits) (logPort [.read4 a old] s)

/-- The write-backs in list order (R104). -/
def writeBacks : List WriteBack → State → State
  | [], s => s
  | wb :: l, s => writeBacks l (writeBack wb s)

/-- What a successful walk commits: its write-backs, then `LAST_PERM` (R110). -/
def commitWalk (perm : Byte) (wb : List WriteBack) (s : State) : State :=
  { writeBacks wb s with lastPerm := perm }

/-- `TRANSLATE` up to its outputs (R110): the physical address, or `none` for SENTINEL, and the state.
ACCESS uses it too (R180). -/
def translate (w : Bool) (a : LAddr) (s : State) : Except Refusal (Option PAddr × State) :=
  if s.abrt ≠ 0 then .ok (none, s)
  else if !pg s then .ok (some (a.setWidth 40), { s with lastPerm := permAll })
  else
    let k := walk s w a
    if !k.reads.all (portReaches s) then .error .directRamOutsideRam
    else
      match k.result with
      | .fail p          => .ok (none, raisePageFault a (errorCode s w p) (logPort k.reads s))
      | .ok phys perm wb => .ok (some phys, commitWalk perm wb (logPort k.reads s))

/-- What a translation drives (R110): the address, or SENTINEL with FAULT. -/
def translateOutputs : Option PAddr → Outputs
  | some p => ⟨p.setWidth 64, stOk, 0, 0⟩
  | none   => faultOutputs

/-- TRANSLATE (R110). -/
def execTranslate (w : Bool) (a : LAddr) (s : State) : Host.Outcome State Fault Refusal :=
  match translate w a s with
  | .error r     => .refused r
  | .ok (p, s')  => .next (drive (translateOutputs p) s')

/-- What a silent walk drives (R111): a failure is SENTINEL with `ST = 0`. -/
def peekOutputs : WalkResult → Outputs
  | .ok phys _ _ => ⟨phys.setWidth 64, stOk, 0, 0⟩
  | .fail _      => ⟨sentinel, stNone, 0, 0⟩

/-- TRANSLATE_NOABRT (R111): the same walk; no register and no memory is written. -/
def execTranslateNoabrt (w : Bool) (a : LAddr) (s : State) : Host.Outcome State Fault Refusal :=
  if s.abrt ≠ 0 then .next (drive faultOutputs s)
  else if !pg s then .next (drive ⟨a.setWidth 64, stOk, 0, 0⟩ s)
  else
    let k := walk s w a
    if !k.reads.all (portReaches s) then .refused .directRamOutsideRam
    else .next (drive (peekOutputs k.result) (logPort k.reads s))

end Sys2Proof.Machine
end

