-- ==== Sys2Proof/Machine/Access.lean ====
section
/-! DEFINITION. The translation half of the Logical Access Front-End and the meaning of ACCESS
(42_frontend_control.md R180 to R185). -/

namespace Sys2Proof.Machine

/-- A translated sub-access: its physical address and its ROUTE (R180). -/
structure SubResult where
  phys  : PAddr
  route : Bool
  deriving DecidableEq, Repr

/-- The cache an access of a kind looks up and fills: writes the write cache, reads and fetches the
read cache (R180, R185). -/
def cacheFor (w : Bool) (s : State) : Cache := if w then s.wc else s.rc

/-- Insertion after a walk (R180): into the cache of the access's kind, when the page is cacheable. -/
def fillCache (w : Bool) (lp : LPage) (pp : PPage) (s : State) : State :=
  if cacheable s pp w then (if w then insertWriteSlot lp pp s else insertReadSlot lp pp s) else s

/-- `TranslateCached(a, w)` (R180): the cache, then the walk, then the insertion; `none` is
SENTINEL. The address of a walk is masked by `RAMMASK` before it leaves the block and before it is
cached (R182). -/
def translateCached (w : Bool) (a : LAddr) (s : State) :
    Except Refusal (Option SubResult × State) :=
  match lookup s w (cacheFor w s) (lpageOf a) with
  | some t => .ok (some ⟨hitAddr t.ppage a, w && t.route⟩, s)
  | none =>
    match translate w a s with
    | .error r => .error r
    | .ok (none, s') => .ok (none, s')
    | .ok (some t, s') =>
      let p := t &&& s'.rammask
      .ok (some ⟨p, w && cacheable s' (ppageOf p) w && codePresent s' (ppageOf p)⟩,
        fillCache w (lpageOf a) (ppageOf p) s')

/-- The sub-translations in address order; the first that fails ends them (R183, R215). -/
def translateSubs (w : Bool) : List SubAccess → State →
    Except Refusal (Option (List SubResult) × State)
  | [], s => .ok (some [], s)
  | x :: l, s =>
    match translateCached w x.addr s with
    | .error r => .error r
    | .ok (none, s') => .ok (none, s')
    | .ok (some p, s') =>
      match translateSubs w l s' with
      | .error r => .error r
      | .ok (none, s'') => .ok (none, s'')
      | .ok (some ps, s'') => .ok (some (p :: ps), s'')

/-- What ACCESS drives on success (R183): `RES`, and `RES1` with SPLIT when there are two
sub-accesses; `LEN0` is the first one's length; ROUTE if any sub-access has it. -/
def accessOutputs (subs : List SubAccess) (ps : List SubResult) : Outputs :=
  ⟨((ps.map SubResult.phys).getD 0 0).setWidth 64,
    stOk ||| stWhen (ps.any SubResult.route) stRoute ||| stWhen (decide (subs.length = 2)) stSplit,
    ((ps.map SubResult.phys).getD 1 0).setWidth 64,
    BitVec.ofNat 4 ((subs.map SubAccess.len).getD 0 0)⟩

/-- ACCESS (R183). A pending abort ends it before the cache is looked up (R184). -/
def execAccess (w : Bool) (sz : AccessSize) (a : LAddr) (s : State) :
    Host.Outcome State Fault Refusal :=
  if s.abrt ≠ 0 then .next (drive faultOutputs s)
  else
    let subs := splitAccess a (sizeBytes sz)
    match translateSubs w subs s with
    | .error r => .refused r
    | .ok (none, s') => .next (drive faultOutputs s')
    | .ok (some ps, s') => .next (drive (accessOutputs subs ps) s')

end Sys2Proof.Machine
end

