-- ==== Sys2Proof/Machine/CacheCommands.lean ====
section
/-! DEFINITION. The meanings of the translation-cache commands (41_cache.md R140 to R148). -/

namespace Sys2Proof.Machine

/-- What a lookup drives: the page and HIT, with ROUTE from the slot, or 0 for a miss (R140, R141). -/
def lookupOutputs : Option Slot → Outputs
  | some t => ⟨t.ppage.setWidth 64, stOk ||| stWhen t.route stRoute, 0, 0⟩
  | none   => ⟨0, stNone, 0, 0⟩

/-- A read-cache hit drives no ROUTE: its slots have none (R140). -/
def lookupReadOutputs : Option Slot → Outputs
  | some t => ⟨t.ppage.setWidth 64, stOk, 0, 0⟩
  | none   => ⟨0, stNone, 0, 0⟩

/-- LOOKUP_READ (R140). -/
def execLookupRead (lp : LPage) (s : State) : Host.Outcome State Fault Refusal :=
  .next (drive (lookupReadOutputs (lookup s false s.rc lp)) s)

/-- LOOKUP_WRITE (R141). -/
def execLookupWrite (lp : LPage) (s : State) : Host.Outcome State Fault Refusal :=
  .next (drive (lookupOutputs (lookup s true s.wc lp)) s)

/-- INSERT_READ (R144). -/
def execInsertRead (lp : LPage) (pp : PPage) (s : State) : Host.Outcome State Fault Refusal :=
  .next (drive okOutputs (insertReadSlot lp pp s))

/-- INSERT_WRITE (R145). -/
def execInsertWrite (lp : LPage) (pp : PPage) (s : State) : Host.Outcome State Fault Refusal :=
  .next (drive okOutputs (insertWriteSlot lp pp s))

/-- FLUSH (R146). -/
def execFlush (s : State) : Host.Outcome State Fault Refusal :=
  .next (drive okOutputs (flushCaches s))

/-- FLUSH_WRITE_PAGE (R147): the write cache only. -/
def execFlushWritePage (pp : PPage) (s : State) : Host.Outcome State Fault Refusal :=
  .next (drive okOutputs { s with wc := s.wc.dropPage pp })

/-- INVALIDATE (R148): a full flush; the address is not used. -/
def execInvalidate (_laddr : LAddr) (s : State) : Host.Outcome State Fault Refusal :=
  .next (drive okOutputs (flushCaches s))

end Sys2Proof.Machine
end

