-- ==== Sys2Proof/Machine/Control.lean ====
section
/-! DEFINITION. The meanings of the commands by which the CPU core loads the block's interface
registers (42_frontend_control.md R190 to R195). -/

namespace Sys2Proof.Machine

/-- Whether loading `CR0` flushes: PG changes and `FLUSH_ON_MODE_CHANGE` (R190). -/
def cr0Flushes (s : State) (v : Dword) : Bool :=
  s.cfg.flushOnModeChange && s.cr0.getLsbD 31 != v.getLsbD 31

/-- Whether loading `CR4` flushes: PSE or PAE changes and `FLUSH_ON_MODE_CHANGE` (R192). -/
def cr4Flushes (s : State) (v : Dword) : Bool :=
  s.cfg.flushOnModeChange &&
    (s.cr4.getLsbD 4 != v.getLsbD 4 || s.cr4.getLsbD 5 != v.getLsbD 5)

/-- WRITE_CR0 (R190). -/
def execWriteCr0 (v : Dword) (s : State) : Host.Outcome State Fault Refusal :=
  .next (drive okOutputs (flushWhen (cr0Flushes s v) { s with cr0 := v }))

/-- WRITE_CR3 (R191): always flushes. -/
def execWriteCr3 (v : Dword) (s : State) : Host.Outcome State Fault Refusal :=
  .next (drive okOutputs (flushCaches { s with cr3 := v }))

/-- WRITE_CR4 (R192). -/
def execWriteCr4 (v : Dword) (s : State) : Host.Outcome State Fault Refusal :=
  .next (drive okOutputs (flushWhen (cr4Flushes s v) { s with cr4 := v }))

/-- SET_RAMMASK (R193): always flushes. -/
def execSetRammask (mask : BitVec 40) (s : State) : Host.Outcome State Fault Refusal :=
  .next (drive okOutputs (flushCaches { s with rammask := mask }))

/-- SET_PRIV (R194): no flush. -/
def execSetPriv (cpl : BitVec 2) (ovr : Bool) (s : State) : Host.Outcome State Fault Refusal :=
  .next (drive okOutputs { s with cpl := cpl, ovr := ovr })

/-- WRITE_ABORT (R195): `ABRT_ERR` and `CR2` are not changed. -/
def execWriteAbort (code : Byte) (s : State) : Host.Outcome State Fault Refusal :=
  .next (drive okOutputs (loadAbort code s))

end Sys2Proof.Machine
end

