-- ==== Sys2Proof/Machine/Dispatch.lean ====
section
/-! DEFINITION. One arm per constructor of `Instr`: the meaning of each command of
spec/opcode_table.json. -/

namespace Sys2Proof.Machine

def exec (i : Instr) (s : State) : Host.Outcome State Fault Refusal :=
  match i with
  | .translate w laddr => Sys2Proof.Machine.execTranslate w laddr s
  | .translateNoabrt w laddr => Sys2Proof.Machine.execTranslateNoabrt w laddr s
  | .lookupRead lpage => Sys2Proof.Machine.execLookupRead lpage s
  | .lookupWrite lpage => Sys2Proof.Machine.execLookupWrite lpage s
  | .insertRead lpage ppage => Sys2Proof.Machine.execInsertRead lpage ppage s
  | .insertWrite lpage ppage => Sys2Proof.Machine.execInsertWrite lpage ppage s
  | .flush => Sys2Proof.Machine.execFlush s
  | .flushWritePage ppage => Sys2Proof.Machine.execFlushWritePage ppage s
  | .invalidate laddr => Sys2Proof.Machine.execInvalidate laddr s
  | .access w sz laddr => Sys2Proof.Machine.execAccess w sz laddr s
  | .writeCr0 v => Sys2Proof.Machine.execWriteCr0 v s
  | .writeCr3 v => Sys2Proof.Machine.execWriteCr3 v s
  | .writeCr4 v => Sys2Proof.Machine.execWriteCr4 v s
  | .setRammask mask => Sys2Proof.Machine.execSetRammask mask s
  | .setPriv cpl ovr => Sys2Proof.Machine.execSetPriv cpl ovr s
  | .writeAbort code => Sys2Proof.Machine.execWriteAbort code s

end Sys2Proof.Machine
end

