-- ==== Sys2Proof/Machine/Issue.lean ====
section
/-! DEFINITION. What taking one input does: a command is decoded and runs, or its word is turned away
(30_encoding.md R64); what other parts of the machine do between commands; the lifecycle (R240). -/

namespace Sys2Proof.Machine

/-- A command is accepted. A legal word runs its instruction. An illegal word changes no state and
drives `RES = SENTINEL`, `ST = FAULT` (R64; notes/assumptions/9.md). -/
def runCommand (c : Command) (s : State) : Host.Outcome State Fault Refusal :=
  match decode c with
  | .ok i    => exec i (beginCommand s)
  | .error _ => .next (drive faultOutputs (beginCommand s))

/-- What an input does once it is off the queue (notes/assumptions/12.md, 18.md). -/
def takeInput (x : Input) (s : State) : Host.Outcome State Fault Refusal :=
  match x with
  | .command c      => runCommand c s
  | .guestStore a v => .next { s with mem := storeByte s.env s.mem a v }
  | .setPlatform p  => .next { s with env := p }
  | .reset          => .next (blockReset s)
  | .close          => .next { s with closed := true }

/-- The next input taken off the queue, or a block that waits for one. After `close` nothing more is
taken (R240). -/
def takeNext (s : State) : Host.Outcome State Fault Refusal :=
  match s.inputs with
  | []        => .next s
  | x :: rest => if s.closed then .fault .afterClose else takeInput x { s with inputs := rest }

/-- A command put at the head of the queue of an open block. -/
def issueFirst (c : Command) (s : State) : State :=
  { s with inputs := .command c :: s.inputs, closed := false }

end Sys2Proof.Machine
end

