-- ==== Sys2Proof/Machine/Step.lean ====
section
/-! DEFINITION. One step of the block: the next input, complete before the one after it is taken
(00_scope.md R6). The block has no program counter (10_state.md R11); its program is the sequence of
commands issued to it. -/

namespace Sys2Proof.Machine

/-- One step: the next input of the queue. -/
def step (s : State) : Host.Outcome State Fault Refusal := takeNext s

/-- `s` with a table word's command issued so that the next step takes it. -/
def State.withFetchWord (s : State) (nbits w : Nat) : State :=
  issueFirst (commandOfTableWord nbits w) s

end Sys2Proof.Machine
end

