-- ==== Sys2Proof/WellFormed.lean ====
section
/-! DEFINITION. Which command words are well-formed, read from the field table of 30_encoding.md R61
and the list of illegal words of R64, independently of the decoder. A term of `Instr` is well-formed
by its types: each operand has the width of its field, so the checks are on the issued word. -/

namespace Sys2Proof

/-- The operation code `OP = CMD[3:0]` (R61). -/
def Command.op (c : Command) : BitVec 4 := c.cmd.extractLsb 3 0

/-- `OP = 0x0` and `OP = 0xF` are reserved (R62, R64). -/
def Command.opKnown (c : Command) : Bool := c.op != 0x0 && c.op != 0xF

/-- `CRSEL = 3` is reserved with `OP = 0xB` (R61, R64). -/
def Command.crselKnown (c : Command) : Bool := !(c.op == 0xB && c.cmd.extractLsb 9 8 == 3#2)

/-- Bits 7 and 15:13 must be 0 (R61). -/
def Command.reservedClear (c : Command) : Bool :=
  !c.cmd.getLsbD 7 && c.cmd.extractLsb 15 13 == 0#3

/-- "A field not used by a command must be 0 in that command's word" (R61). `W` is used by
TRANSLATE, TRANSLATE_NOABRT and ACCESS; `SZ` by ACCESS; `CRSEL` by WRITE_CR; `CPLV` and `OVRV` by
SET_PRIV. -/
def Command.unusedClear (c : Command) : Bool :=
  (c.op == 0x1 || c.op == 0x2 || c.op == 0xA || !c.cmd.getLsbD 4) &&
  (c.op == 0xA || c.cmd.extractLsb 6 5 == 0#2) &&
  (c.op == 0xB || c.cmd.extractLsb 9 8 == 0#2) &&
  (c.op == 0xD || (c.cmd.extractLsb 11 10 == 0#2 && !c.cmd.getLsbD 12))

/-- A command is well-formed when its word is none of the illegal words of R64. The buses are
unconstrained: "the bus bits above the field are ignored" (R63). -/
def Command.wf (c : Command) : Bool :=
  c.opKnown && c.crselKnown && c.reservedClear && c.unusedClear

/-- How many low bits of the A bus an operation uses (R62). -/
def operandWidthA (op : BitVec 4) : Nat :=
  if op = 0x1 ∨ op = 0x2 ∨ op = 0x9 ∨ op = 0xA ∨ op = 0xB then 32
  else if op = 0x3 ∨ op = 0x4 ∨ op = 0x5 ∨ op = 0x6 then 20
  else if op = 0x8 then 28
  else if op = 0xC then 40
  else if op = 0xE then 8
  else 0

/-- How many low bits of the B bus an operation uses (R62). -/
def operandWidthB (op : BitVec 4) : Nat := if op = 0x5 ∨ op = 0x6 then 28 else 0

end Sys2Proof
end

