-- ==== Sys2Proof/Safety.lean ====
section
/-! DEFINITION. The terms in which statements speak: the invariant of the block, words of memory, what
entries a walk finds, the bytes a walk stores to, and runs of several commands. -/

namespace Sys2Proof.Machine

/-! ## The invariant -/

/-- A translation cache in good form: `CACHE_SIZE` slots, the cursor among them, and at most one valid
slot for a logical page (10_state.md R22 to R25). -/
structure CacheWf (size : Nat) (c : Cache) : Prop where
  length : c.slots.length = size
  cursor : c.next < size
  unique : c.slots.Pairwise fun t u => ¬(t.valid = true ∧ u.valid = true ∧ t.lpage = u.lpage)

/-- Both caches in good form; a read-cache slot has no route (R78). -/
structure CachesWf (s : State) : Prop where
  rc : CacheWf s.cfg.cacheSize s.rc
  wc : CacheWf s.cfg.cacheSize s.wc
  noRoute : ∀ t ∈ s.rc.slots, t.route = false

/-- Bits 7:3 of a permission byte are 0 (30_encoding.md R76). -/
abbrev PermWf (p : Byte) : Prop := p &&& 0xF8 = 0

/-- The fields of the fault and permission registers keep the form R75 and R76 give them. -/
structure FieldsWf (s : State) : Prop where
  errorCode : s.abrtErr &&& 0xFFFFFFF8 = 0
  lastPerm  : PermWf s.lastPerm
  readPerm  : ∀ t ∈ s.rc.slots, PermWf t.perm
  writePerm : ∀ t ∈ s.wc.slots, PermWf t.perm

/-- The invariant of the block: memory canonical, caches and register fields in good form. -/
structure Inv (s : State) : Prop where
  memory : Memory.wf s.mem
  caches : CachesWf s
  fields : FieldsWf s

/-- Every valid slot's physical page lies under the current `RAMMASK` (R182). -/
def PagesMasked (s : State) : Prop :=
  (∀ t ∈ s.rc.slots, t.valid = true → t.ppage &&& ppageOf s.rammask = t.ppage) ∧
  (∀ t ∈ s.wc.slots, t.valid = true → t.ppage &&& ppageOf s.rammask = t.ppage)

/-! ## Words of memory -/

/-- `m32[a]`: the 32-bit little-endian word of memory (R42). -/
def mem32 (m : Memory) (a : PAddr) : Dword :=
  Memory.read m (a.toNat + 3) ++ Memory.read m (a.toNat + 2) ++ Memory.read m (a.toNat + 1) ++
    Memory.read m a.toNat

/-- `m64[a]`: the 64-bit little-endian word of memory (R42). -/
def mem64 (m : Memory) (a : PAddr) : Qword :=
  Memory.read m (a.toNat + 7) ++ Memory.read m (a.toNat + 6) ++ Memory.read m (a.toNat + 5) ++
    Memory.read m (a.toNat + 4) ++ mem32 m a

/-- An address lies outside the `n` bytes at `a`. -/
def Outside (x : Nat) (a : PAddr) (n : Nat) : Prop := x < a.toNat ∨ a.toNat + n ≤ x

/-- The `n` bytes at an address are directly-addressable RAM. -/
def RamAt (s : State) (a : PAddr) (n : Nat) : Prop :=
  ∀ i < n, kindAt s.env (a + BitVec.ofNat 40 i) = some .ram

/-- The `n` bytes at an address are unmapped (R43). -/
def UnmappedAt (s : State) (a : PAddr) (n : Nat) : Prop :=
  ∀ i < n, kindAt s.env (a + BitVec.ofNat 40 i) = none

/-- The port reaches every address: `DISPATCH`, or a machine that is all RAM (R41). -/
def PortTotal (s : State) : Prop :=
  s.cfg.ptAccess = .dispatch ∨ ∀ a, kindAt s.env a = some .ram

/-! ## Port accesses -/

/-- The address of a port access. -/
def accessAddr : PortAccess → PAddr
  | .read4 a _  => a
  | .read8 a _  => a
  | .write4 a _ => a

/-- How many bytes a port access moves. -/
def accessBytes : PortAccess → Nat
  | .read4 _ _  => 4
  | .read8 _ _  => 8
  | .write4 _ _ => 4

/-- Naturally aligned and within a page (R45). -/
def Aligned (acc : PortAccess) : Prop :=
  (accessAddr acc).toNat % accessBytes acc = 0 ∧
    (accessAddr acc).toNat % 4096 + accessBytes acc ≤ 4096

/-! ## What a walk finds

Each structure says that the port reaches an entry and what value it returns for it, whatever is there:
RAM, ROM, unmapped space or a device. -/

/-- The two-level walk reads the directory entry `pde` at `pdeA`. -/
structure Reads2 (s : State) (a : LAddr) (pdeA : PAddr) (pde : Dword) : Prop where
  mode  : pae s = false
  addr  : pdeA = portAddr s ((pdeAddr2 s.cr3 a).setWidth 40)
  reach : portReaches s (.read4 pdeA pde) = true
  read  : memRead4 s 0 pdeA = pde

/-- The two-level walk finds a present entry of a 4 MB page (R96). -/
structure Large2 (s : State) (a : LAddr) (pdeA : PAddr) (pde : Dword) : Prop
    extends Reads2 s a pdeA pde where
  present : pde.getLsbD 0 = true
  large   : pde.getLsbD 7 = true ∧ pse s = true

/-- The two-level walk reads the table entry `pte` at `pteA`. -/
structure Table2 (s : State) (a : LAddr) (pdeA : PAddr) (pde : Dword) (pteA : PAddr) (pte : Dword) :
    Prop extends Reads2 s a pdeA pde where
  present : pde.getLsbD 0 = true
  small   : ¬(pde.getLsbD 7 = true ∧ pse s = true)
  addrT   : pteA = portAddr s ((pteAddr2 pde a).setWidth 40)
  reachT  : portReaches s (.read4 pteA pte) = true
  readT   : memRead4 s 1 pteA = pte

/-- The PAE walk reads the PDPTE `q0` at `dirA` (the whole 64 bits). -/
structure Reads3 (s : State) (a : LAddr) (dirA : PAddr) (q0 : Qword) : Prop where
  mode  : pae s = true
  addr  : dirA = portAddr s ((pdpteAddr3 s.cr3 a).setWidth 40)
  reach : portReaches s (.read8 dirA q0) = true
  read  : memRead8 s 0 dirA = q0

/-- The PAE walk reads the directory entry `q1` at `pdeA`. -/
structure Directory3 (s : State) (a : LAddr) (dirA : PAddr) (q0 : Qword) (pdeA : PAddr) (q1 : Qword) :
    Prop extends Reads3 s a dirA q0 where
  presentP : q0.getLsbD 0 = true
  addrD    : pdeA = portAddr s (pdeAddr3 (maskEntry q0) a)
  reachD   : portReaches s (.read8 pdeA q1) = true
  readD    : memRead8 s 1 pdeA = q1

/-- A PAE directory entry maps a 2 MB page (R96). -/
def Maps2M (s : State) (q1 : Qword) : Prop :=
  q1.getLsbD 7 = true ∧ (s.cfg.paeLargeNeedsPse = true → pse s = true)

/-- The PAE walk reads the table entry `q2` at `pteA`. -/
structure Table3 (s : State) (a : LAddr) (dirA : PAddr) (q0 : Qword) (pdeA : PAddr) (q1 : Qword)
    (pteA : PAddr) (q2 : Qword) : Prop extends Directory3 s a dirA q0 pdeA q1 where
  present : q1.getLsbD 0 = true
  small   : ¬Maps2M s q1
  addrT   : pteA = portAddr s (pteAddr3 (maskEntry q1) a)
  reachT  : portReaches s (.read8 pteA q2) = true
  readT   : memRead8 s 2 pteA = q2

/-- A walk fetches an entry that is not all in RAM, the levels before it being reached and present
(R41). -/
inductive FetchesOutsideRam (s : State) (a : LAddr) : Prop where
  | directory2 (mode : pae s = false)
      (out : ¬RamAt s (portAddr s ((pdeAddr2 s.cr3 a).setWidth 40)) 4)
  | table2 {pdeA : PAddr} {pde : Dword} (found : Reads2 s a pdeA pde)
      (present : pde.getLsbD 0 = true) (small : ¬(pde.getLsbD 7 = true ∧ pse s = true))
      (out : ¬RamAt s (portAddr s ((pteAddr2 pde a).setWidth 40)) 4)
  | pdpte3 (mode : pae s = true)
      (out : ¬RamAt s (portAddr s ((pdpteAddr3 s.cr3 a).setWidth 40)) 8)
  | directory3 {dirA : PAddr} {q0 : Qword} (found : Reads3 s a dirA q0)
      (present : q0.getLsbD 0 = true) (out : ¬RamAt s (portAddr s (pdeAddr3 (maskEntry q0) a)) 8)
  | table3 {dirA pdeA : PAddr} {q0 q1 : Qword} (found : Directory3 s a dirA q0 pdeA q1)
      (present : q1.getLsbD 0 = true) (small : ¬Maps2M s q1)
      (out : ¬RamAt s (portAddr s (pteAddr3 (maskEntry q1) a)) 8)

/-- A walk is made: no abort pending and paging on (R91, R92). -/
def Walks (s : State) : Prop := s.abrt = 0 ∧ pg s = true

/-- The state after a walk with the port accesses `log` raised a page fault at `a` with the present
bit `p` (R103, R213). -/
def faultState (s : State) (a : LAddr) (w p : Bool) (log : List PortAccess) : State :=
  { s with
    cr2 := a, abrtErr := errorCode s w p, abrt := 0x0E, out := ⟨sentinel, 0b0010, 0, 0⟩,
    portLog := s.portLog ++ log, portCount := s.portCount + log.length }

/-- The addresses a TRANSLATE of this kind stores 4 bytes to (R104): those of its walk's
write-backs, none when there is no walk or it fails. -/
def walkStores (s : State) (w : Bool) (a : LAddr) : List PAddr :=
  if s.abrt ≠ 0 ∨ pg s = false then []
  else
    match (walk s w a).result with
    | .fail _    => []
    | .ok _ _ wb => wb.map fun x => portAddr s x.addr

/-! ## Commands -/

/-- The commands that translate (R184). -/
def Translating : Instr → Prop
  | .translate _ _       => True
  | .translateNoabrt _ _ => True
  | .access _ _ _        => True
  | _                    => False

/-- The commands that commit a walk: they may write memory, `LAST_PERM` and the fault registers. -/
def Committing : Instr → Prop
  | .translate _ _ => True
  | .access _ _ _  => True
  | _              => False

/-- Instructions executed in order, stopping at the first that does not give a next state. -/
def runAll : List Instr → State → Host.Outcome State Fault Refusal
  | [], s => .next s
  | i :: l, s =>
    match exec i s with
    | .next t    => runAll l t
    | .fault f   => .fault f
    | .refused r => .refused r

end Sys2Proof.Machine
end

