-- ==== Sys2Proof/Certificates/Slice0/Obligations.lean ====
section
/-! DEFINITION. The statements for the provers. Each names the rule of spec/ it formalises; a choice of
the model's own is named with its assumption log entry. The fields `out`, `portLog`, `portCount`,
`inputs` and `closed` of State, which frames mention, are the model's own (log 6, 10, 12). -/

open Sys2Proof Sys2Proof.Machine

/-! ## Encoding -/

/-- Decoding an encoded instruction gives it back, with every operand at every value (R60 to R63).
Rests on the spec's own decision D2. -/
def Obligations.DecodeEncodeRoundTrip : Prop := ∀ i : Instr, decode (encode i) = .ok i

/-- Encoding a decoded instruction gives its command word back, so no legal word has two readings
(R61, R62). Rests on the spec's own decision D2. -/
def Obligations.EncodeDecodeSameWord : Prop :=
  ∀ (c : Command) (i : Instr), decode c = .ok i → (encode i).cmd = c.cmd

/-- The decoder accepts exactly the words R64 leaves legal, and names what makes another illegal,
the first reason in the order R64 lists them (that order is the model's, log 9). Rests on the spec's
own decisions D2, D39. -/
def Obligations.DecodeAcceptsExactlyLegalWords : Prop :=
  ∀ c : Command,
    (c.wf = true → ∃ i, decode c = .ok i) ∧
    (c.opKnown = false → decode c = .error .reservedOp) ∧
    (c.opKnown = true → c.crselKnown = false → decode c = .error .reservedCrsel) ∧
    (c.opKnown = true → c.crselKnown = true → c.reservedClear = false →
      decode c = .error .reservedBit) ∧
    (c.opKnown = true → c.crselKnown = true → c.reservedClear = true → c.unusedClear = false →
      decode c = .error .unusedField)

/-- The bus bits above the operand fields are ignored (R63). Rests on the spec's own decision D2. -/
def Obligations.DecodeIgnoresUnusedBusBits : Prop :=
  ∀ (c : Command) (a b : Qword),
    a.setWidth (operandWidthA c.op) = c.a.setWidth (operandWidthA c.op) →
    b.setWidth (operandWidthB c.op) = c.b.setWidth (operandWidthB c.op) →
    decode ⟨c.cmd, a, b⟩ = decode c

/-- Words of 95_test_vectors.md 2.1 decode to the commands they stand for. Rests on the spec's own
decision D2. -/
def Obligations.SpelledWordsDecode : Prop :=
  decode ⟨0x0011, 0x00403ABC, 0⟩ = .ok (.translate true 0x00403ABC) ∧
  decode ⟨0x0012, 0x00403ABC, 0⟩ = .ok (.translateNoabrt true 0x00403ABC) ∧
  decode ⟨0x0005, 0x40201, 0x601⟩ = .ok (.insertRead 0x40201 0x601) ∧
  decode ⟨0x0008, 0x7, 0⟩ = .ok (.flushWritePage 0x7) ∧
  decode ⟨0x005A, 0x1000, 0⟩ = .ok (.access true .b4 0x1000) ∧
  decode ⟨0x010B, 0x00001000, 0⟩ = .ok (.writeCr3 0x00001000) ∧
  decode ⟨0x1C0D, 0, 0⟩ = .ok (.setPriv 3 true) ∧
  decode ⟨0x030B, 0x12345678, 0⟩ = .error .reservedCrsel

/-! ## The step, reset and the lifecycle -/

/-- A step runs the instruction the next command decodes to, on the state with that command taken
off the queue and no port access logged yet (R6, R11; the queue and the log are the model's, log 10,
12). Rests on the spec's own decisions D1, D3. -/
def Obligations.StepRunsIssuedCommand : Prop :=
  ∀ (s : State) (c : Command) (rest : List Input) (i : Instr),
    s.closed = false → s.inputs = .command c :: rest → decode c = .ok i →
    step s = exec i { s with inputs := rest, portLog := [] }

/-- An illegal word changes no state and drives `RES = SENTINEL`, `ST = FAULT` (R64; that the model
steps rather than refuses is its choice, log 9). Rests on the spec's own decision D39. -/
def Obligations.StepTurnsAwayIllegalWord : Prop :=
  ∀ (s : State) (c : Command) (rest : List Input),
    s.closed = false → s.inputs = .command c :: rest → c.wf = false →
    step s = .next { s with
      inputs := rest, portLog := [], out := ⟨0xFFFFFFFFFFFFFFFF, 0b0010, 0, 0⟩ }

/-- What a lifecycle `reset` leaves: the table of R240, in every register and in every slot's valid
bit and both cursors; it writes no memory, platform or parameter; and after `close` no command runs
(R240). That `close` makes a later input a fault is the model's choice (log 12). Rests on the spec's
own decision D27. -/
def Obligations.ResetLoadsTable : Prop :=
  (∀ (s : State) (rest : List Input), s.closed = false → s.inputs = .reset :: rest →
    ∃ t, step s = .next t ∧
      (∀ x ∈ t.rc.slots, x.valid = false) ∧ (∀ x ∈ t.wc.slots, x.valid = false) ∧
      t.rc.next = 0 ∧ t.wc.next = 0 ∧ t.lastPerm = 0x00 ∧
      t.cr0 = 0x00000000 ∧ t.cr3 = 0x00000000 ∧ t.cr4 = 0x00000000 ∧ t.cpl = 0 ∧ t.ovr = false ∧
      t.rammask = s.cfg.resetRammask ∧ t.abrt = 0x00 ∧ t.abrtErr = 0x00000000 ∧
      t.cr2 = 0x00000000 ∧
      t.cfg = s.cfg ∧ t.env = s.env ∧ t.mem = s.mem ∧ t.inputs = rest) ∧
  (∀ (s : State) (rest : List Input), s.closed = false → s.inputs = .close :: rest →
    ∃ t, step s = .next t ∧ (∀ c l, t.inputs = .command c :: l → step t = .fault .afterClose))

/-- After reset every lookup misses, translation is the identity masked by `RAMMASK`, no abort is
pending and the privilege class is supervisor (R241). Rests on the spec's own decisions D13, D27 and
derivation in R241. -/
def Obligations.AfterResetTranslationIsIdentity : Prop :=
  ∀ (cfg : Config) (env : Platform),
    let s := State.resetWith cfg env
    (∀ lp, exec (.lookupRead lp) s = .next s) ∧
    (∀ lp, exec (.lookupWrite lp) s = .next s) ∧
    (∀ w sz a, a.toNat % 4096 + sizeBytes sz ≤ 4096 →
      ∃ t, exec (.access w sz a) s = .next t ∧
        t.out.res = (a.setWidth 40 &&& cfg.resetRammask).setWidth 64 ∧
        t.out.st.getLsbD 0 = true ∧ t.out.st.getLsbD 1 = false) ∧
    s.abrt = 0 ∧ isUser s = false

/-- The reset state meets the invariant, under every setting of the parameters. The form of memory,
the fields of invalid slots and the caches as lists are the model's (log 5, 14, 22). Rests on the
spec's own decisions D14, D17, D27 and derivation in R25. -/
def Obligations.ResetMeetsInvariant : Prop :=
  (∀ (cfg : Config) (env : Platform), Inv (State.resetWith cfg env)) ∧ Inv State.reset

/-- Every step keeps the invariant: memory canonical; both caches with `CACHE_SIZE` slots, the
cursor among them and one valid slot a page at most; no route in the read cache; the error code
three bits; permission bytes with bits 7:3 clear (R22 to R25, R75, R76, R78). The form of memory,
the fields of invalid slots and the caches as lists are the model's (log 5, 14, 22). Rests on the
spec's own decisions D14, D15, D17 and derivation in R25. -/
def Obligations.StepKeepsInvariant : Prop :=
  ∀ s t : State, Inv s → step s = .next t → Inv t

/-- After every command at most `CACHE_SIZE` slots of each cache are valid, and at most one valid
slot holds a given logical page (R25). Rests on the spec's own derivation in R25. -/
def Obligations.CommandsKeepOneSlotPerPage : Prop :=
  ∀ (i : Instr) (s t : State), CachesWf s → exec i s = .next t →
    t.rc.slots.countP (·.valid) ≤ s.cfg.cacheSize ∧
    t.wc.slots.countP (·.valid) ≤ s.cfg.cacheSize ∧
    ∀ lp, t.rc.slots.countP (holds lp) ≤ 1 ∧ t.wc.slots.countP (holds lp) ≤ 1

/-! ## Permission checker and error code -/

/-- The table of R101, row by row, for an entry or a cache permission byte of any width. Rests on
the spec's own derivation in R101. -/
def Obligations.PermissionTable : Prop :=
  ∀ (s : State) (mode : WalkMode) (n : Nat) (e : BitVec n),
    (s.cpl = 3 → s.ovr = false → e.getLsbD 2 = false → ∀ w, permOk s mode e w = false) ∧
    (s.cpl = 3 → s.ovr = false → e.getLsbD 2 = true → e.getLsbD 1 = false →
      permOk s mode e true = false) ∧
    (s.cpl = 3 → s.ovr = false → e.getLsbD 2 = true → e.getLsbD 1 = true →
      ∀ w, permOk s mode e w = true) ∧
    (s.cpl = 3 → s.ovr = false → e.getLsbD 2 = true → e.getLsbD 1 = false →
      permOk s mode e false = true) ∧
    (s.cpl ≠ 3 → s.ovr = false → e.getLsbD 1 = false → wpEff s mode = true →
      permOk s mode e true = false) ∧
    (s.cpl ≠ 3 → s.ovr = false → e.getLsbD 1 = false → wpEff s mode = false →
      permOk s mode e true = true) ∧
    (s.cpl ≠ 3 → s.ovr = false → permOk s mode e false = true) ∧
    (s.cpl ≠ 3 → s.ovr = false → e.getLsbD 1 = true → permOk s mode e true = true) ∧
    (s.ovr = true → ∀ w, permOk s mode e w = true)

/-- `WPeff` (R100): `CR0.WP` counts in PAE mode always and in the two-level walk when
`WP_SUPPORTED`. Rests on the spec's own decision D8. -/
def Obligations.WriteProtectIsEffective : Prop :=
  ∀ s : State,
    wpEff s .pae = s.cr0.getLsbD 16 ∧
    wpEff s .twoLevel = (s.cr0.getLsbD 16 && s.cfg.wpSupported)

/-- The permission byte holds R/W and U/S at their places, bit 0 set and bits 7:3 clear, and passes
the check exactly when its entry does (R102). Rests on the spec's own decision D15. -/
def Obligations.PermByteDecidesAlike : Prop :=
  ∀ (n : Nat) (e : BitVec n), e.getLsbD 0 = true →
    (permByte e).getLsbD 0 = true ∧ (permByte e).getLsbD 1 = e.getLsbD 1 ∧
    (permByte e).getLsbD 2 = e.getLsbD 2 ∧ (∀ i, 3 ≤ i → (permByte e).getLsbD i = false) ∧
    ∀ (s : State) (mode : WalkMode) (w : Bool), permOk s mode (permByte e) w = permOk s mode e w

/-- The error code's bits: P, W, U under both settings of `EC_U_IGNORES_OVERRIDE`, and zero above
(R103, R75). Rests on the spec's own decision D9. -/
def Obligations.ErrorCodeBits : Prop :=
  ∀ (s : State) (w p : Bool),
    (errorCode s w p).getLsbD 0 = p ∧ (errorCode s w p).getLsbD 1 = w ∧
    (s.cfg.ecUIgnoresOverride = true → (errorCode s w p).getLsbD 2 = (s.cpl == 3)) ∧
    (s.cfg.ecUIgnoresOverride = false →
      (errorCode s w p).getLsbD 2 = (s.cpl == 3 && !s.ovr)) ∧
    ∀ i, 3 ≤ i → (errorCode s w p).getLsbD i = false

/-- The error code 0x1 (a supervisor read denied by a present entry) is never produced, by any
command under any setting (95_test_vectors.md 2.4). Rests on the spec's own decisions D8, D9. -/
def Obligations.ErrorCodeOneNeverProduced : Prop :=
  ∀ (i : Instr) (s t : State), s.abrtErr ≠ 1 → exec i s = .next t → t.abrtErr ≠ 1

/-! ## The walker -/

/-- Every entry address equals the sum R93 says it replaces: no address arithmetic of the walk
carries. Rests on the spec's own decision D7 and derivations in R93, R105. -/
def Obligations.EntryAddressesNeverCarry : Prop :=
  (∀ (cr3 : Dword) (a : LAddr),
    pdeAddr2 cr3 a = (cr3 &&& ~~~0xFFF#32) + ((a >>> (20 : Nat)) &&& 0xFFC) ∧
    pdpteAddr3 cr3 a = (cr3 &&& ~~~0x1F#32) + ((a >>> (27 : Nat)) &&& 0x18)) ∧
  (∀ (pde : Dword) (a : LAddr),
    pteAddr2 pde a = (pde &&& ~~~0xFFF#32) + ((a >>> (10 : Nat)) &&& 0xFFC) ∧
    phys4K pde a = (pde &&& ~~~0xFFF#32) + (a &&& 0xFFF) ∧
    phys4M pde a = (pde &&& ~~~0x3FFFFF#32) + (a &&& 0x3FFFFF)) ∧
  (∀ (e : BitVec 40) (a : LAddr),
    pdeAddr3 e a = (e &&& ~~~0xFFF#40) + ((a.setWidth 40 >>> (18 : Nat)) &&& 0xFF8) ∧
    pteAddr3 e a = (e &&& ~~~0xFFF#40) + ((a.setWidth 40 >>> (9 : Nat)) &&& 0xFF8) ∧
    phys4KPae e a = (e &&& ~~~0xFFF#40) + (a.setWidth 40 &&& 0xFFF) ∧
    phys2M e a = (e &&& ~~~0x1FFFFF#40) + (a.setWidth 40 &&& 0x1FFFFF))

/-- The fast exit: with an abort pending both translating commands return SENTINEL at once, touching
no memory and no register (R91). Rests on the spec's own decision D12. -/
def Obligations.TranslateFastExit : Prop :=
  ∀ (s : State) (w : Bool) (a : LAddr), s.abrt ≠ 0 →
    exec (.translate w a) s = .next { s with out := ⟨0xFFFFFFFFFFFFFFFF, 0b0010, 0, 0⟩ } ∧
    exec (.translateNoabrt w a) s = .next { s with out := ⟨0xFFFFFFFFFFFFFFFF, 0b0010, 0, 0⟩ }

/-- With paging disabled translation is the identity with permission byte 0x07, which allows every
access; no port access is made (R92). Rests on the spec's own decision D13. -/
def Obligations.PagingOffIsIdentity : Prop :=
  ∀ (s : State) (w : Bool) (a : LAddr), s.abrt = 0 → s.cr0.getLsbD 31 = false →
    exec (.translate w a) s =
      .next { s with lastPerm := 0x07, out := ⟨a.setWidth 64, 0b0001, 0, 0⟩ } ∧
    exec (.translateNoabrt w a) s = .next { s with out := ⟨a.setWidth 64, 0b0001, 0, 0⟩ } ∧
    ∀ mode w', permOk s mode (0x07 : Byte) w' = true

/-- A 4 KB page in two-level mode: TRANSLATE returns `{pte[31:12], laddr[11:0]}`, keeps the combined
permission byte and writes nothing else but memory; in RAM it sets the accessed bit of the directory
entry and then accessed (and dirty on a write) of the table entry, re-read at write time (R94, R97,
R104, R105, R110). With `WALK_APPLIES_RAMMASK` the addresses are masked (R48, D43); that the
write-backs' are too is the model's choice (log 19). Rests on the spec's own decisions D7, D10, D43
and derivation in R105. -/
def Obligations.TranslateSmallPageTwoLevel : Prop :=
  ∀ (s : State) (w : Bool) (a : LAddr) (pdeA pteA : PAddr) (pde pte : Dword),
    Walks s → Table2 s a pdeA pde pteA pte → pte.getLsbD 0 = true →
    permOk s .twoLevel (pte &&& pde) w = true →
    let leaf : Dword := if w then 0x60 else 0x20
    let pte' : Dword := if pdeA = pteA then pte ||| 0x20 else pte
    ∃ m log, exec (.translate w a) s = .next { s with
        mem := m, lastPerm := permByte (pte &&& pde),
        out := ⟨(pte.extractLsb 31 12 ++ a.extractLsb 11 0).setWidth 64, 0b0001, 0, 0⟩,
        portLog := s.portLog ++ log, portCount := s.portCount + 6 } ∧
      (Memory.wf s.mem → RamAt s pdeA 4 → RamAt s pteA 4 →
        log = [.read4 pdeA pde, .read4 pteA pte, .read4 pdeA pde, .write4 pdeA (pde ||| 0x20),
          .read4 pteA pte', .write4 pteA (pte' ||| leaf)] ∧
        mem32 m pteA = pte' ||| leaf ∧ (pdeA ≠ pteA → mem32 m pdeA = pde ||| 0x20)) ∧
      ∀ x, Outside x pdeA 4 → Outside x pteA 4 → Memory.read m x = Memory.read s.mem x

/-- A 4 MB page: the directory entry is the leaf and alone decides; TRANSLATE returns `{pde[31:22],
laddr[21:0]}` and in RAM sets accessed (and dirty on a write) in it (R94, R96, R104, R105, R110).
With `WALK_APPLIES_RAMMASK` the addresses are masked (R48, D43); that the write-backs' are too is
the model's choice (log 19). Rests on the spec's own decisions D6, D7, D10, D43 and derivation in
R105. -/
def Obligations.TranslateLargePageTwoLevel : Prop :=
  ∀ (s : State) (w : Bool) (a : LAddr) (pdeA : PAddr) (pde : Dword),
    Walks s → Large2 s a pdeA pde → permOk s .twoLevel pde w = true →
    let leaf : Dword := if w then 0x60 else 0x20
    ∃ m log, exec (.translate w a) s = .next { s with
        mem := m, lastPerm := permByte pde,
        out := ⟨(pde.extractLsb 31 22 ++ a.extractLsb 21 0).setWidth 64, 0b0001, 0, 0⟩,
        portLog := s.portLog ++ log, portCount := s.portCount + 3 } ∧
      (Memory.wf s.mem → RamAt s pdeA 4 →
        log = [.read4 pdeA pde, .read4 pdeA pde, .write4 pdeA (pde ||| leaf)] ∧
        mem32 m pdeA = pde ||| leaf) ∧
      ∀ x, Outside x pdeA 4 → Memory.read m x = Memory.read s.mem x

/-- A 4 KB page in PAE mode: three 64-bit reads masked to 40 bits; the PDPTE's other bits take no
part and it is not written; the write-backs are 32 bits wide, so bytes 4 to 7 of an entry stay (R95,
R97, R73, R74, R104, R105, R110). With `WALK_APPLIES_RAMMASK` the addresses are masked (R48, D43);
that the write-backs' are too is the model's choice (log 19). Rests on the spec's own decisions D7,
D10, D43 and derivation in R105. -/
def Obligations.TranslateSmallPagePae : Prop :=
  ∀ (s : State) (w : Bool) (a : LAddr) (dirA pdeA pteA : PAddr) (q0 q1 q2 : Qword),
    Walks s → Table3 s a dirA q0 pdeA q1 pteA q2 → q2.getLsbD 0 = true →
    permOk s .pae (q2 &&& q1) w = true →
    let leaf : Dword := if w then 0x60 else 0x20
    let lo1 : Dword := q1.setWidth 32
    let lo2 : Dword := if pdeA = pteA then q2.setWidth 32 ||| 0x20 else q2.setWidth 32
    ∃ m log, exec (.translate w a) s = .next { s with
        mem := m, lastPerm := permByte (q2 &&& q1),
        out := ⟨(q2.extractLsb 39 12 ++ a.extractLsb 11 0).setWidth 64, 0b0001, 0, 0⟩,
        portLog := s.portLog ++ log, portCount := s.portCount + 7 } ∧
      (Memory.wf s.mem → RamAt s pdeA 4 → RamAt s pteA 4 →
        log = [.read8 dirA q0, .read8 pdeA q1, .read8 pteA q2, .read4 pdeA lo1,
          .write4 pdeA (lo1 ||| 0x20), .read4 pteA lo2, .write4 pteA (lo2 ||| leaf)] ∧
        mem32 m pteA = lo2 ||| leaf ∧ (pdeA ≠ pteA → mem32 m pdeA = lo1 ||| 0x20)) ∧
      ∀ x, Outside x pdeA 4 → Outside x pteA 4 → Memory.read m x = Memory.read s.mem x

/-- A 2 MB page: the directory entry is the leaf; TRANSLATE returns `{pde[39:21], laddr[20:0]}`
(R95, R96, R104, R105, R110). With `WALK_APPLIES_RAMMASK` the addresses are masked (R48, D43); that
the write-backs' are too is the model's choice (log 19). Rests on the spec's own decisions D6, D7,
D10, D43 and derivation in R105. -/
def Obligations.TranslateLargePagePae : Prop :=
  ∀ (s : State) (w : Bool) (a : LAddr) (dirA pdeA : PAddr) (q0 q1 : Qword),
    Walks s → Directory3 s a dirA q0 pdeA q1 → q1.getLsbD 0 = true → Maps2M s q1 →
    permOk s .pae q1 w = true →
    let leaf : Dword := if w then 0x60 else 0x20
    let lo1 : Dword := q1.setWidth 32
    ∃ m log, exec (.translate w a) s = .next { s with
        mem := m, lastPerm := permByte q1,
        out := ⟨(q1.extractLsb 39 21 ++ a.extractLsb 20 0).setWidth 64, 0b0001, 0, 0⟩,
        portLog := s.portLog ++ log, portCount := s.portCount + 4 } ∧
      (Memory.wf s.mem → RamAt s pdeA 4 →
        log = [.read8 dirA q0, .read8 pdeA q1, .read4 pdeA lo1, .write4 pdeA (lo1 ||| leaf)] ∧
        mem32 m pdeA = lo1 ||| leaf) ∧
      ∀ x, Outside x pdeA 4 → Memory.read m x = Memory.read s.mem x

/-- The present check is made at each level in turn: the walk stops at the first entry whose bit 0
is clear, reads nothing after it, and faults with P = 0 whatever the permissions and the override
(R98, R103, R213). Rests on the spec's own decision D9 and derivation in R98. -/
def Obligations.NotPresentFaultsAtFirstLevel : Prop :=
  ∀ (s : State) (w : Bool) (a : LAddr), Walks s →
    (∀ pdeA pde, Reads2 s a pdeA pde → pde.getLsbD 0 = false →
      exec (.translate w a) s = .next (faultState s a w false [.read4 pdeA pde])) ∧
    (∀ pdeA pde pteA pte, Table2 s a pdeA pde pteA pte → pte.getLsbD 0 = false →
      exec (.translate w a) s =
        .next (faultState s a w false [.read4 pdeA pde, .read4 pteA pte])) ∧
    (∀ dirA q0, Reads3 s a dirA q0 → q0.getLsbD 0 = false →
      exec (.translate w a) s = .next (faultState s a w false [.read8 dirA q0])) ∧
    (∀ dirA q0 pdeA q1, Directory3 s a dirA q0 pdeA q1 → q1.getLsbD 0 = false →
      exec (.translate w a) s =
        .next (faultState s a w false [.read8 dirA q0, .read8 pdeA q1])) ∧
    (∀ dirA q0 pdeA q1 pteA q2, Table3 s a dirA q0 pdeA q1 pteA q2 → q2.getLsbD 0 = false →
      exec (.translate w a) s =
        .next (faultState s a w false [.read8 dirA q0, .read8 pdeA q1, .read8 pteA q2]))

/-- A present leaf that fails the permission check faults with P = 1: the combined entry of a 4 KB
page, the directory entry alone of a large page (R97, R100, R103, R213). Rests on the spec's own
decisions D7, D8, D9. -/
def Obligations.DeniedLeafFaults : Prop :=
  ∀ (s : State) (w : Bool) (a : LAddr), Walks s →
    (∀ pdeA pde, Large2 s a pdeA pde → permOk s .twoLevel pde w = false →
      exec (.translate w a) s = .next (faultState s a w true [.read4 pdeA pde])) ∧
    (∀ pdeA pde pteA pte, Table2 s a pdeA pde pteA pte → pte.getLsbD 0 = true →
      permOk s .twoLevel (pte &&& pde) w = false →
      exec (.translate w a) s =
        .next (faultState s a w true [.read4 pdeA pde, .read4 pteA pte])) ∧
    (∀ dirA q0 pdeA q1, Directory3 s a dirA q0 pdeA q1 → q1.getLsbD 0 = true → Maps2M s q1 →
      permOk s .pae q1 w = false →
      exec (.translate w a) s =
        .next (faultState s a w true [.read8 dirA q0, .read8 pdeA q1])) ∧
    (∀ dirA q0 pdeA q1 pteA q2, Table3 s a dirA q0 pdeA q1 pteA q2 → q2.getLsbD 0 = true →
      permOk s .pae (q2 &&& q1) w = false →
      exec (.translate w a) s =
        .next (faultState s a w true [.read8 dirA q0, .read8 pdeA q1, .read8 pteA q2]))

/-- A TRANSLATE that raises a page fault writes `CR2`, `ABRT_ERR` (the error code of R103) and
`ABRT`, returns SENTINEL, and changes no other state of the block: no memory, no `LAST_PERM`, no
cache slot (R213). Rests on the spec's own decision D9. -/
def Obligations.FaultActionWritesThreeRegisters : Prop :=
  ∀ (s t : State) (w : Bool) (a : LAddr), s.abrt = 0 → exec (.translate w a) s = .next t →
    t.abrt ≠ 0 → ∃ p log, t = faultState s a w p log

/-- The silent variant makes the same walk as TRANSLATE: it reads the same entries first and answers
the same address, SENTINEL with `ST = 0` where TRANSLATE faults, and the fast exit; it writes no
register and no memory (R111). Rests on the spec's own decisions D12, D13. -/
def Obligations.SilentWalkAnswersAlike : Prop :=
  ∀ (s : State) (w : Bool) (a : LAddr), PortTotal s →
    ∃ t u, exec (.translate w a) s = .next t ∧ exec (.translateNoabrt w a) s = .next u ∧
      u = { s with out := u.out, portLog := u.portLog, portCount := u.portCount } ∧
      u.portLog <+: t.portLog ∧ u.out.res = t.out.res ∧
      (s.abrt ≠ 0 → u.out = ⟨0xFFFFFFFFFFFFFFFF, 0b0010, 0, 0⟩) ∧
      (s.abrt = 0 → t.abrt = 0 → u.out = t.out) ∧
      (s.abrt = 0 → t.abrt ≠ 0 → u.out = ⟨0xFFFFFFFFFFFFFFFF, 0b0000, 0, 0⟩)

/-- TRANSLATE neither reads nor writes the caches (R110): on states that differ only in them it does
the same and leaves each as it was. -/
def Obligations.TranslateIgnoresCaches : Prop :=
  ∀ (s t : State) (w : Bool) (a : LAddr) (rc wc : Cache), exec (.translate w a) s = .next t →
    t.rc = s.rc ∧ t.wc = s.wc ∧
    exec (.translate w a) { s with rc := rc, wc := wc } = .next { t with rc := rc, wc := wc }

/-- A user access translated without override has the rights it needs: the kept permission byte has
U/S, and R/W too for a write (R100, R101). Rests on the spec's own decisions D8, D15 and derivation
in R101. -/
def Obligations.UserTranslationHasUserRights : Prop :=
  ∀ (s t : State) (w : Bool) (a : LAddr), s.abrt = 0 → s.cpl = 3 → s.ovr = false →
    exec (.translate w a) s = .next t → t.abrt = 0 →
    t.lastPerm.getLsbD 2 = true ∧ (w = true → t.lastPerm.getLsbD 1 = true)

/-- A walk stores only to its write-backs: every byte outside the 4 bytes of each keeps its value,
for TRANSLATE and for an ACCESS within one page (a straddling ACCESS is two such,
SplitAccessIsTwoAccesses); where the walk fails, paging is off, an abort is pending or the cache
hits, every byte does (R104, R110, R150, R183). With `WALK_APPLIES_RAMMASK` the addresses are masked
(R48, D43); that the write-backs' are too is the model's choice (log 19). Rests on the spec's own
decisions D10, D43. -/
def Obligations.WalkStoresOnlyItsEntries : Prop :=
  (∀ (s t : State) (w : Bool) (a : LAddr), exec (.translate w a) s = .next t →
    ∀ x, (∀ e ∈ walkStores s w a, Outside x e 4) → Memory.read t.mem x = Memory.read s.mem x) ∧
  (∀ (s t : State) (w : Bool) (sz : AccessSize) (a : LAddr),
    a.toNat % 4096 + sizeBytes sz ≤ 4096 → exec (.access w sz a) s = .next t →
    ∀ x, ((∃ k, lookup s w (cacheFor w s) (lpageOf a) = some k) ∨
        ∀ e ∈ walkStores s w a, Outside x e 4) →
      Memory.read t.mem x = Memory.read s.mem x)

/-! ## The physical port -/

/-- Port accesses are little-endian, 4 and 8 bytes wide; a 4-byte write to RAM changes bytes `a` to
`a + 3` and no other and is read back (R40, R42). Rests on the spec's own decision D5. -/
def Obligations.PortIsLittleEndian : Prop :=
  ∀ (s : State) (a : PAddr) (v : Dword),
    (∀ k, RamAt s a 4 → a.toNat + 4 ≤ 2 ^ 40 → memRead4 s k a =
      Memory.read s.mem (a.toNat + 3) ++ Memory.read s.mem (a.toNat + 2) ++
        Memory.read s.mem (a.toNat + 1) ++ Memory.read s.mem a.toNat) ∧
    (∀ k, RamAt s a 8 → a.toNat + 8 ≤ 2 ^ 40 → memRead8 s k a =
      mem32 s.mem (a + 4) ++ mem32 s.mem a) ∧
    (Memory.wf s.mem → RamAt s a 4 → a.toNat + 4 ≤ 2 ^ 40 →
      Memory.read (memWrite4 a v s).mem a.toNat = v.extractLsb 7 0 ∧
      Memory.read (memWrite4 a v s).mem (a.toNat + 1) = v.extractLsb 15 8 ∧
      Memory.read (memWrite4 a v s).mem (a.toNat + 2) = v.extractLsb 23 16 ∧
      Memory.read (memWrite4 a v s).mem (a.toNat + 3) = v.extractLsb 31 24 ∧
      ∀ x, Outside x a 4 → Memory.read (memWrite4 a v s).mem x = Memory.read s.mem x)

/-- Unmapped space reads as all ones, which as an entry is present, writable, user and has bit 7
set; a write there changes nothing; and the walk treats such a value like any other entry: a
directory in unmapped space maps a 4 MB page (with `CR4.PSE`) or, in PAE mode, a 2 MB page for every
access, and its write-back is dropped (R43). With `WALK_APPLIES_RAMMASK` the addresses are masked
(R48, D43); that the write-backs' are too is the model's choice (log 19). Rests on the spec's own
decisions D6, D7, D43 and derivation in R43. -/
def Obligations.UnmappedSpaceReadsAllOnes : Prop :=
  ∀ (s : State) (k : Nat) (a : PAddr) (v : Dword),
    (UnmappedAt s a 4 → memRead4 s k a = 0xFFFFFFFF ∧ (memWrite4 a v s).mem = s.mem ∧
      (memRead4 s k a).getLsbD 0 = true ∧ (memRead4 s k a).getLsbD 1 = true ∧
      (memRead4 s k a).getLsbD 2 = true ∧ (memRead4 s k a).getLsbD 7 = true) ∧
    (UnmappedAt s a 8 → memRead8 s k a = 0xFFFFFFFFFFFFFFFF) ∧
    (∀ (w : Bool) (l : LAddr), Walks s → s.cfg.ptAccess = .dispatch → pae s = false → pse s = true →
      a = portAddr s ((pdeAddr2 s.cr3 l).setWidth 40) → UnmappedAt s a 4 →
      ∃ t, exec (.translate w l) s = .next t ∧ t.mem = s.mem ∧ t.abrt = 0 ∧ t.lastPerm = 0x07 ∧
        t.out = ⟨(0x3FF#10 ++ l.extractLsb 21 0).setWidth 64, 0b0001, 0, 0⟩) ∧
    (∀ (w : Bool) (l : LAddr) (dirA : PAddr) (q0 : Qword), Walks s → s.cfg.ptAccess = .dispatch →
      Reads3 s l dirA q0 → q0.getLsbD 0 = true → (s.cfg.paeLargeNeedsPse = true → pse s = true) →
      a = portAddr s (pdeAddr3 (maskEntry q0) l) → UnmappedAt s a 8 →
      ∃ t, exec (.translate w l) s = .next t ∧ t.mem = s.mem ∧ t.abrt = 0 ∧ t.lastPerm = 0x07 ∧
        t.out = ⟨(0x7FFFF#19 ++ l.extractLsb 20 0).setWidth 64, 0b0001, 0, 0⟩)

/-- Every port access of every command is naturally aligned to its width and stays within a page
(R45). Rests on the spec's own derivation in R45. -/
def Obligations.PortAccessesAreAligned : Prop :=
  ∀ (i : Instr) (s t : State), exec i s = .next t →
    ∃ log, t.portLog = s.portLog ++ log ∧ ∀ acc ∈ log, Aligned acc

/-- `PT_ACCESS` decides only whether a walk is refused: what `DIRECT_RAM` does, `DISPATCH` does
alike, and the only refusal is a `DIRECT_RAM` walk. TRANSLATE, TRANSLATE_NOABRT and an ACCESS that
misses are refused exactly when their walk fetches an entry that is not all in RAM, at any level of
either walk; a straddling ACCESS is refused when a part it comes to is (R41; that "in RAM" is asked
of the whole entry is log 8). Rests on the spec's own decision D28. -/
def Obligations.PtAccessOnlyRefuses : Prop :=
  (∀ (i : Instr) (s t : State), exec i s = .next t →
    exec i { s with cfg := { s.cfg with ptAccess := .dispatch } } =
      .next { t with cfg := { t.cfg with ptAccess := .dispatch } }) ∧
  (∀ (i : Instr) (s : State) (r : Refusal), exec i s = .refused r →
    r = .directRamOutsideRam ∧ s.cfg.ptAccess = .directRam) ∧
  (∀ (s : State) (w : Bool) (a : LAddr), Walks s → s.cfg.ptAccess = .directRam →
    (exec (.translate w a) s = .refused .directRamOutsideRam ↔ FetchesOutsideRam s a) ∧
    (exec (.translateNoabrt w a) s = .refused .directRamOutsideRam ↔ FetchesOutsideRam s a) ∧
    ∀ sz : AccessSize, a.toNat % 4096 + sizeBytes sz ≤ 4096 →
      (∀ k ∈ (if w then s.wc.slots else s.rc.slots), k.valid = true →
        k.lpage = a.extractLsb 31 12 → permOk s (walkMode s) k.perm w = false) →
      (exec (.access w sz a) s = .refused .directRamOutsideRam ↔ FetchesOutsideRam s a)) ∧
  (∀ (s : State) (w : Bool) (sz : AccessSize) (a b : LAddr) (n0 : Nat) (r : Refusal),
    s.abrt = 0 → a.toNat % 4096 + n0 = 4096 → n0 < sizeBytes sz → b = a + BitVec.ofNat 32 n0 →
    (exec (.access w .b1 a) s = .refused r → exec (.access w sz a) s = .refused r) ∧
    ∀ t, exec (.access w .b1 a) s = .next t → t.abrt = 0 → exec (.access w .b1 b) t = .refused r →
      exec (.access w sz a) s = .refused r)

/-! ## The translation caches -/

/-- LOOKUP_READ: a hit returns the slot's page, anything else is a miss; no state is written (R139,
R140). -/
def Obligations.LookupReadAnswers : Prop :=
  ∀ (s : State) (lp : LPage),
    (∀ t ∈ s.rc.slots, CacheWf s.cfg.cacheSize s.rc → t.valid = true → t.lpage = lp →
      permOk s (walkMode s) t.perm false = true →
      exec (.lookupRead lp) s = .next { s with out := ⟨t.ppage.setWidth 64, 0b0001, 0, 0⟩ }) ∧
    ((∀ t ∈ s.rc.slots, t.valid = true → t.lpage = lp →
        permOk s (walkMode s) t.perm false = false) →
      exec (.lookupRead lp) s = .next { s with out := ⟨0, 0b0000, 0, 0⟩ })

/-- LOOKUP_WRITE: as LOOKUP_READ in the write cache with the write check, and ROUTE from the slot
(R139, R141). R139 and R141 give the check's `WPeff` no mode; the model takes the current one (log
13). Rests on the spec's own decision D16. -/
def Obligations.LookupWriteAnswers : Prop :=
  ∀ (s : State) (lp : LPage),
    (∀ t ∈ s.wc.slots, CacheWf s.cfg.cacheSize s.wc → t.valid = true → t.lpage = lp →
      permOk s (walkMode s) t.perm true = true →
      exec (.lookupWrite lp) s = .next { s with
        out := ⟨t.ppage.setWidth 64, if t.route then 0b0101 else 0b0001, 0, 0⟩ }) ∧
    ((∀ t ∈ s.wc.slots, t.valid = true → t.lpage = lp →
        permOk s (walkMode s) t.perm true = false) →
      exec (.lookupWrite lp) s = .next { s with out := ⟨0, 0b0000, 0, 0⟩ })

/-- INSERT_READ: a page already valid in the read cache changes nothing; else the slot at `RNEXT` is
overwritten, valid or not, with `LAST_PERM`, and `RNEXT` advances modulo `CACHE_SIZE` (R144). Rests
on the spec's own decision D14. -/
def Obligations.InsertReadFillsCursorSlot : Prop :=
  ∀ (s : State) (lp : LPage) (pp : PPage),
    ((∃ t ∈ s.rc.slots, t.valid = true ∧ t.lpage = lp) →
      exec (.insertRead lp pp) s = .next { s with out := ⟨0, 0b0001, 0, 0⟩ }) ∧
    ((∀ t ∈ s.rc.slots, t.valid = true → t.lpage ≠ lp) →
      exec (.insertRead lp pp) s = .next { s with
        rc := ⟨s.rc.slots.set s.rc.next ⟨true, lp, pp, s.lastPerm, false⟩,
          (s.rc.next + 1) % 2 ^ s.cfg.cacheBits⟩,
        out := ⟨0, 0b0001, 0, 0⟩ })

/-- INSERT_WRITE: as INSERT_READ in the write cache, the slot's `route` being `code_present` of the
page now (R145). Rests on the spec's own decision D18. -/
def Obligations.InsertWriteFillsCursorSlot : Prop :=
  ∀ (s : State) (lp : LPage) (pp : PPage),
    ((∃ t ∈ s.wc.slots, t.valid = true ∧ t.lpage = lp) →
      exec (.insertWrite lp pp) s = .next { s with out := ⟨0, 0b0001, 0, 0⟩ }) ∧
    ((∀ t ∈ s.wc.slots, t.valid = true → t.lpage ≠ lp) →
      exec (.insertWrite lp pp) s = .next { s with
        wc := ⟨s.wc.slots.set s.wc.next
            ⟨true, lp, pp, s.lastPerm, s.env.codePages.contains pp⟩,
          (s.wc.next + 1) % 2 ^ s.cfg.cacheBits⟩,
        out := ⟨0, 0b0001, 0, 0⟩ })

/-- FLUSH clears every valid bit and both cursors and is idempotent; after it every lookup misses
(R146). -/
def Obligations.FlushClearsEverySlot : Prop :=
  ∀ s : State, ∃ t, exec .flush s = .next t ∧
    t = { s with rc := t.rc, wc := t.wc, out := ⟨0, 0b0001, 0, 0⟩ } ∧
    t.rc.slots.length = s.rc.slots.length ∧ t.wc.slots.length = s.wc.slots.length ∧
    (∀ x ∈ t.rc.slots, x.valid = false) ∧ (∀ x ∈ t.wc.slots, x.valid = false) ∧
    t.rc.next = 0 ∧ t.wc.next = 0 ∧ exec .flush t = .next t ∧
    ∀ lp, exec (.lookupRead lp) t = .next { t with out := ⟨0, 0, 0, 0⟩ } ∧
      exec (.lookupWrite lp) t = .next { t with out := ⟨0, 0, 0, 0⟩ }

/-- FLUSH_WRITE_PAGE invalidates exactly the valid write-cache slots that point to the page; the
cursor and the read cache stay (R147). Rests on the spec's own decision D19. -/
def Obligations.FlushWritePageDropsThatPage : Prop :=
  ∀ (s : State) (pp : PPage), ∃ t, exec (.flushWritePage pp) s = .next t ∧
    t = { s with wc := t.wc, out := ⟨0, 0b0001, 0, 0⟩ } ∧
    t.wc.next = s.wc.next ∧ t.wc.slots.length = s.wc.slots.length ∧
    ∀ (k : Nat) (x : Slot), s.wc.slots[k]? = some x →
      t.wc.slots[k]? = some (if x.valid = true ∧ x.ppage = pp then { x with valid := false } else x)

/-- INVALIDATE is FLUSH whatever its address (R148). Rests on the spec's own decision D20. -/
def Obligations.InvalidateIsFullFlush : Prop :=
  ∀ (s : State) (a : LAddr), ∃ t, exec (.invalidate a) s = .next t ∧ exec .flush s = .next t ∧
    (∀ x ∈ t.rc.slots ++ t.wc.slots, x.valid = false) ∧ t.rc.next = 0 ∧ t.wc.next = 0

/-- A page inserted where it was not cached is found by the next lookup, with the page inserted
(R139 to R145). The mode of a write's permission check at a lookup is the current one (log 13).
Rests on the spec's own decisions D14, D16, D18. -/
def Obligations.InsertedPageIsFound : Prop :=
  ∀ (s : State) (lp : LPage) (pp : PPage), CachesWf s →
    ((∀ t ∈ s.rc.slots, t.valid = true → t.lpage ≠ lp) →
      permOk s (walkMode s) s.lastPerm false = true →
      ∃ t, runAll [.insertRead lp pp, .lookupRead lp] s = .next t ∧
        t.out = ⟨pp.setWidth 64, 0b0001, 0, 0⟩) ∧
    ((∀ t ∈ s.wc.slots, t.valid = true → t.lpage ≠ lp) →
      permOk s (walkMode s) s.lastPerm true = true →
      ∃ t, runAll [.insertWrite lp pp, .lookupWrite lp] s = .next t ∧
        t.out = ⟨pp.setWidth 64, if s.env.codePages.contains pp then 0b0101 else 0b0001, 0, 0⟩)

/-- Round-robin, in each cache: after `CACHE_SIZE` insertions of distinct uncached pages the cursor
is back where it started, and the cache holds exactly those pages, each with the page inserted for
it and, in the write cache, its route (R24, R144, R145). Rests on the spec's own decisions D14,
D18. -/
def Obligations.RoundRobinFillsWholeCache : Prop :=
  ∀ (s : State) (l : List (LPage × PPage)), CachesWf s →
    l.length = s.cfg.cacheSize → (l.map Prod.fst).Nodup →
    ((∀ p ∈ l, ∀ t ∈ s.rc.slots, t.valid = true → t.lpage ≠ p.1) →
      ∃ t, runAll (l.map fun p => .insertRead p.1 p.2) s = .next t ∧
        t.rc.next = s.rc.next ∧
        (∀ p ∈ l, ⟨true, p.1, p.2, s.lastPerm, false⟩ ∈ t.rc.slots) ∧
        ∀ x ∈ t.rc.slots, x.valid = true ∧ (x.lpage, x.ppage) ∈ l) ∧
    ((∀ p ∈ l, ∀ t ∈ s.wc.slots, t.valid = true → t.lpage ≠ p.1) →
      ∃ t, runAll (l.map fun p => .insertWrite p.1 p.2) s = .next t ∧
        t.wc.next = s.wc.next ∧
        (∀ p ∈ l, ⟨true, p.1, p.2, s.lastPerm, s.env.codePages.contains p.2⟩ ∈ t.wc.slots) ∧
        ∀ x ∈ t.wc.slots, x.valid = true ∧ (x.lpage, x.ppage) ∈ l)

/-! ## The access front-end -/

/-- An access is split at a 4 KB boundary: one part when it fits its page, else two, the second from
the first byte of the next page, wrapping at `2^32`, with all bytes covered (R181). Rests on the
spec's own decision D23. -/
def Obligations.AccessSplitsAtPageBoundary : Prop :=
  ∀ (a : LAddr) (sz : AccessSize),
    let n := sizeBytes sz
    (a.toNat % 4096 + n ≤ 0x1000 → splitAccess a n = [⟨a, n⟩]) ∧
    (0x1000 < a.toNat % 4096 + n →
      ∃ b n0, splitAccess a n = [⟨a, n0⟩, ⟨b, n - n0⟩] ∧
        a.toNat % 4096 + n0 = 0x1000 ∧ 0 < n0 ∧ n0 < n ∧
        b.toNat = (a.toNat + n0) % 2 ^ 32 ∧ b.toNat % 4096 = 0)

/-- A cache hit returns the slot's page with the address's offset; it makes no port access, sets no
accessed or dirty bit, raises no fault and touches no slot, whatever the page tables hold now (R150,
R180, R183). The mode of a write's permission check at a lookup is the current one (R139; log 13),
and the low 12 bits are not masked (log 20). Rests on the spec's own decisions D16, D18, D24. -/
def Obligations.AccessHitMakesNoWalk : Prop :=
  ∀ (s : State) (w : Bool) (sz : AccessSize) (a : LAddr) (k : Slot),
    s.abrt = 0 → CachesWf s → a.toNat % 4096 + sizeBytes sz ≤ 4096 →
    k ∈ (if w then s.wc.slots else s.rc.slots) → k.valid = true → k.lpage = a.extractLsb 31 12 →
    permOk s (walkMode s) k.perm w = true →
    exec (.access w sz a) s = .next { s with
      out := ⟨(k.ppage ++ a.extractLsb 11 0).setWidth 64,
        if w && k.route then 0b0101 else 0b0001, 0, BitVec.ofNat 4 (sizeBytes sz)⟩ }

/-- A miss is TRANSLATE and, when the page is cacheable, the insertion of the masked page into the
cache of the access's kind; where TRANSLATE faults, ACCESS faults the same (R180, R182, R183). The
mode of a write's permission check at a lookup is the current one (R139; log 13). Rests on the
spec's own decisions D16, D18, D24. -/
def Obligations.AccessMissTranslatesThenInserts : Prop :=
  ∀ (s t : State) (w : Bool) (sz : AccessSize) (a : LAddr),
    s.abrt = 0 → a.toNat % 4096 + sizeBytes sz ≤ 4096 →
    (∀ k ∈ (if w then s.wc.slots else s.rc.slots), k.valid = true → k.lpage = a.extractLsb 31 12 →
      permOk s (walkMode s) k.perm w = false) →
    exec (.translate w a) s = .next t →
    let p : PAddr := t.out.res.setWidth 40 &&& s.rammask
    let pp : PPage := p.extractLsb 39 12
    let cached : Bool := !s.env.uncacheable.contains (pp, w)
    let route : Bool := w && cached && s.env.codePages.contains pp
    (t.abrt ≠ 0 → exec (.access w sz a) s = .next t) ∧
    (t.abrt = 0 → ∃ u,
      exec (if w then .insertWrite (a.extractLsb 31 12) pp else .insertRead (a.extractLsb 31 12) pp) t
        = .next u ∧
      exec (.access w sz a) s = .next { (if cached then u else t) with
        out := ⟨p.setWidth 64, if route then 0b0101 else 0b0001, 0,
          BitVec.ofNat 4 (sizeBytes sz)⟩ })

/-- An access that straddles a page boundary is two accesses in address order, the second from the
first byte of the next page (R181): a fault of the first ends it; a fault of the second leaves the
first's effects; on success `RES`, `RES1`, `LEN0` and ROUTE come from the two parts, with SPLIT set
(R183, R215, R216). Rests on the spec's own decision D23. -/
def Obligations.SplitAccessIsTwoAccesses : Prop :=
  ∀ (s t u : State) (w : Bool) (sz : AccessSize) (a b : LAddr) (n0 : Nat),
    s.abrt = 0 → a.toNat % 4096 + n0 = 4096 → n0 < sizeBytes sz →
    b = a + BitVec.ofNat 32 n0 →
    exec (.access w .b1 a) s = .next t →
    (t.abrt ≠ 0 → exec (.access w sz a) s = .next t) ∧
    (t.abrt = 0 → exec (.access w .b1 b) t = .next u →
      (u.abrt ≠ 0 → exec (.access w sz a) s = .next u) ∧
      (u.abrt = 0 → exec (.access w sz a) s = .next { u with
        out := ⟨t.out.res, t.out.st ||| u.out.st ||| 0b1000, u.out.res, BitVec.ofNat 4 n0⟩ }))

/-- The parts of a split access with paging off and a cold cache: each page translates to itself
under `RAMMASK` (R92, R181, R182, R183). Rests on the spec's own decisions D13, D23. -/
def Obligations.SplitAccessPagingOff : Prop :=
  ∀ (s : State) (w : Bool) (sz : AccessSize) (a : LAddr) (n0 : Nat),
    s.abrt = 0 → s.cr0.getLsbD 31 = false → s.env.codePages = [] →
    (∀ k ∈ s.rc.slots ++ s.wc.slots, k.valid = false) →
    a.toNat % 4096 + n0 = 4096 → n0 < sizeBytes sz →
    ∃ t, exec (.access w sz a) s = .next t ∧
      t.out = ⟨(a.setWidth 40 &&& s.rammask).setWidth 64, 0b1001,
        ((a + BitVec.ofNat 32 n0).setWidth 40 &&& s.rammask).setWidth 64, BitVec.ofNat 4 n0⟩ ∧
      t.mem = s.mem ∧ t.lastPerm = 0x07 ∧ t.abrt = 0

/-- A pending abort is carried forward: any sequence of translating commands returns SENTINEL and
touches neither memory nor caches nor registers, until `WRITE_ABORT 0` clears it (R184). Rests on
the spec's own decision D22. -/
def Obligations.PendingAbortIsCarried : Prop :=
  ∀ (s : State) (l : List Instr), s.abrt ≠ 0 → l ≠ [] → (∀ i ∈ l, Translating i) →
    runAll l s = .next { s with out := ⟨0xFFFFFFFFFFFFFFFF, 0b0010, 0, 0⟩ } ∧
    ∃ t, runAll (l ++ [.writeAbort 0]) s = .next t ∧ t.abrt = 0

/-- Reads and fetches use only the read cache and writes only the write cache: ACCESS of one kind
does not write the other kind's cache and does the same whatever it holds; and the error code of a
faulting access has W set exactly for a write: a fetch has no bit of its own (R180, R185). Rests on
the spec's own decisions D9, D16, D18, D24, D25. -/
def Obligations.ReadsAndWritesKeepApart : Prop :=
  ∀ (s t : State) (w : Bool) (sz : AccessSize) (a : LAddr), exec (.access w sz a) s = .next t →
    (w = false → t.wc = s.wc ∧
      ∀ c, exec (.access w sz a) { s with wc := c } = .next { t with wc := c }) ∧
    (w = true → t.rc = s.rc ∧
      ∀ c, exec (.access w sz a) { s with rc := c } = .next { t with rc := c }) ∧
    (s.abrt = 0 → t.abrt ≠ 0 → t.abrtErr.getLsbD 1 = w)

/-- Cached pages stay under the current mask: ACCESS caches and returns only masked pages, in `RES`
and, for a split access, in `RES1`; and SET_RAMMASK flushes, so only a direct insertion can break it
(R182, R193). Rests on the spec's own decision D42. -/
def Obligations.CachedPagesStayMasked : Prop :=
  ∀ (i : Instr) (s t : State), PagesMasked s → exec i s = .next t →
    (∀ lp pp, i ≠ .insertRead lp pp ∧ i ≠ .insertWrite lp pp) →
    PagesMasked t ∧
    (∀ w sz a, i = .access w sz a → t.abrt = 0 →
      ppageOf (t.out.res.setWidth 40) &&& ppageOf s.rammask = ppageOf (t.out.res.setWidth 40) ∧
      ppageOf (t.out.res1.setWidth 40) &&& ppageOf s.rammask = ppageOf (t.out.res1.setWidth 40))

/-- An access within one page, repeated, returns the address the first one gave, without a walk,
when the page was not cached, the page the walk gave is cacheable, and the mask keeps the page
offset, which a hit does not mask (R150, R180; the source's property S4; log 20). Rests on the
spec's own decisions D16, D18, D24. -/
def Obligations.RepeatedAccessHitsAlike : Prop :=
  ∀ (s t : State) (w : Bool) (sz : AccessSize) (a : LAddr),
    s.abrt = 0 → CachesWf s → a.toNat % 4096 + sizeBytes sz ≤ 4096 →
    (∀ k ∈ (if w then s.wc.slots else s.rc.slots), k.valid = true → k.lpage ≠ a.extractLsb 31 12) →
    s.rammask.extractLsb 11 0 = 0xFFF#12 →
    exec (.access w sz a) s = .next t → t.abrt = 0 →
    (ppageOf (t.out.res.setWidth 40), w) ∉ s.env.uncacheable →
    exec (.access w sz a) t = .next t

/-! ## The control commands -/

/-- WRITE_CR0 and WRITE_CR4 load the whole register and flush exactly when `FLUSH_ON_MODE_CHANGE`
and a mode bit changes: PG; PSE or PAE (R190, R192). Rests on the spec's own decision D21. -/
def Obligations.ModeLoadsFlushOnChange : Prop :=
  ∀ (s : State) (v : Dword),
    (s.cfg.flushOnModeChange = true ∧ s.cr0.getLsbD 31 ≠ v.getLsbD 31 →
      exec (.writeCr0 v) s = .next { s with
        cr0 := v, rc := s.rc.flush, wc := s.wc.flush, out := ⟨0, 0b0001, 0, 0⟩ }) ∧
    (¬(s.cfg.flushOnModeChange = true ∧ s.cr0.getLsbD 31 ≠ v.getLsbD 31) →
      exec (.writeCr0 v) s = .next { s with cr0 := v, out := ⟨0, 0b0001, 0, 0⟩ }) ∧
    (s.cfg.flushOnModeChange = true ∧
        (s.cr4.getLsbD 4 ≠ v.getLsbD 4 ∨ s.cr4.getLsbD 5 ≠ v.getLsbD 5) →
      exec (.writeCr4 v) s = .next { s with
        cr4 := v, rc := s.rc.flush, wc := s.wc.flush, out := ⟨0, 0b0001, 0, 0⟩ }) ∧
    (¬(s.cfg.flushOnModeChange = true ∧
        (s.cr4.getLsbD 4 ≠ v.getLsbD 4 ∨ s.cr4.getLsbD 5 ≠ v.getLsbD 5)) →
      exec (.writeCr4 v) s = .next { s with cr4 := v, out := ⟨0, 0b0001, 0, 0⟩ })

/-- WRITE_CR3 and SET_RAMMASK load their register and flush both caches, even when the value is the
old one (R191, R193). Rests on the spec's own decision D42. -/
def Obligations.BaseAndMaskLoadsAlwaysFlush : Prop :=
  ∀ s : State,
    (∀ v, exec (.writeCr3 v) s = .next { s with
      cr3 := v, rc := s.rc.flush, wc := s.wc.flush, out := ⟨0, 0b0001, 0, 0⟩ }) ∧
    (∀ m, exec (.setRammask m) s = .next { s with
      rammask := m, rc := s.rc.flush, wc := s.wc.flush, out := ⟨0, 0b0001, 0, 0⟩ })

/-- SET_PRIV loads `CPL` and `OVR`, WRITE_ABORT loads `ABRT`; neither flushes, and `ABRT_ERR` and
`CR2` stay (R194, R195). Rests on the spec's own decision D26. -/
def Obligations.PrivAndAbortLoadsKeepCaches : Prop :=
  ∀ s : State,
    (∀ cpl ovr, exec (.setPriv cpl ovr) s = .next { s with
      cpl := cpl, ovr := ovr, out := ⟨0, 0b0001, 0, 0⟩ }) ∧
    (∀ code, exec (.writeAbort code) s = .next { s with
      abrt := code, out := ⟨0, 0b0001, 0, 0⟩ })

/-! ## Whole-machine rules -/

/-- Each register, cache and memory is written only by the commands whose rule writes it (the Access
lines of R12 to R24, R40, and the Writes lines of each command). Rests on the spec's own decisions
D15, D26, D27, D42. -/
def Obligations.OnlyNamedCommandsWrite : Prop :=
  ∀ (i : Instr) (s t : State), exec i s = .next t →
    (t.cr0 = s.cr0 ∨ ∃ v, i = .writeCr0 v) ∧
    (t.cr3 = s.cr3 ∨ ∃ v, i = .writeCr3 v) ∧
    (t.cr4 = s.cr4 ∨ ∃ v, i = .writeCr4 v) ∧
    (t.cpl = s.cpl ∧ t.ovr = s.ovr ∨ ∃ c o, i = .setPriv c o) ∧
    (t.rammask = s.rammask ∨ ∃ m, i = .setRammask m) ∧
    (t.abrt = s.abrt ∨ Committing i ∨ ∃ c, i = .writeAbort c) ∧
    (t.abrtErr = s.abrtErr ∧ t.cr2 = s.cr2 ∧ t.lastPerm = s.lastPerm ∧ t.mem = s.mem ∨
      Committing i) ∧
    (t.portLog = s.portLog ∧ t.portCount = s.portCount ∨ Translating i) ∧
    (t.rc = s.rc ∨ (∃ lp pp, i = .insertRead lp pp) ∨ i = .flush ∨ (∃ a, i = .invalidate a) ∨
      (∃ sz a, i = .access false sz a) ∨ (∃ v, i = .writeCr0 v ∨ i = .writeCr3 v ∨ i = .writeCr4 v) ∨
      ∃ m, i = .setRammask m) ∧
    (t.wc = s.wc ∨ (∃ lp pp, i = .insertWrite lp pp) ∨ i = .flush ∨ (∃ a, i = .invalidate a) ∨
      (∃ p, i = .flushWritePage p) ∨ (∃ sz a, i = .access true sz a) ∨
      (∃ v, i = .writeCr0 v ∨ i = .writeCr3 v ∨ i = .writeCr4 v) ∨ ∃ m, i = .setRammask m) ∧
    t.cfg = s.cfg ∧ t.env = s.env ∧ t.inputs = s.inputs ∧ t.closed = s.closed

/-- Every command completes, whatever its operands and the state, when the port reaches every
address; and an open block never stops except by refusing a `DIRECT_RAM` walk (R6, R41, R210): on an
illegal word it drives FAULT (R64, log 9), and with nothing issued it waits (log 12). Rests on the
spec's own decisions D1, D26, D28, D39. -/
def Obligations.EveryCommandCompletes : Prop :=
  (∀ (i : Instr) (s : State), PortTotal s → ∃ t, exec i s = .next t) ∧
  (∀ s : State, s.closed = false → (∃ t, step s = .next t) ∨
    (step s = .refused .directRamOutsideRam ∧ s.cfg.ptAccess = .directRam))

/-- `CPL` 0, 1 and 2 are alike to every command: exchanging one for another changes nothing else
(R15, R219). Rests on the spec's own decision D27. -/
def Obligations.SupervisorLevelsAreAlike : Prop :=
  ∀ (i : Instr) (s t : State) (c : BitVec 2), s.cpl ≠ 3 → c ≠ 3 → (∀ v o, i ≠ .setPriv v o) →
    exec i s = .next t → exec i { s with cpl := c } = .next { t with cpl := c }

/-- A slot survives packing into the 58-bit word of R78, and every word is some slot's. Rests on the
spec's own decision D14. -/
def Obligations.SlotPackingRoundTrips : Prop :=
  (∀ t : Slot, unpackSlot (packSlot t) = t) ∧ (∀ x : BitVec 58, packSlot (unpackSlot x) = x)
end

