-- ==== Sys2Proof/Laws/State.lean ====
section
/-! SUPPORT. One lemma for each field of State under each named update, so that no proof unfolds a
record update. -/

namespace Sys2Proof.Machine

variable (s : State)

/-! ## `drive` -/

@[simp] theorem drive_cfg (o : Outputs) : (drive o s).cfg = s.cfg := rfl
@[simp] theorem drive_env (o : Outputs) : (drive o s).env = s.env := rfl
@[simp] theorem drive_cr0 (o : Outputs) : (drive o s).cr0 = s.cr0 := rfl
@[simp] theorem drive_cr3 (o : Outputs) : (drive o s).cr3 = s.cr3 := rfl
@[simp] theorem drive_cr4 (o : Outputs) : (drive o s).cr4 = s.cr4 := rfl
@[simp] theorem drive_cpl (o : Outputs) : (drive o s).cpl = s.cpl := rfl
@[simp] theorem drive_ovr (o : Outputs) : (drive o s).ovr = s.ovr := rfl
@[simp] theorem drive_rammask (o : Outputs) : (drive o s).rammask = s.rammask := rfl
@[simp] theorem drive_abrt (o : Outputs) : (drive o s).abrt = s.abrt := rfl
@[simp] theorem drive_abrtErr (o : Outputs) : (drive o s).abrtErr = s.abrtErr := rfl
@[simp] theorem drive_cr2 (o : Outputs) : (drive o s).cr2 = s.cr2 := rfl
@[simp] theorem drive_lastPerm (o : Outputs) : (drive o s).lastPerm = s.lastPerm := rfl
@[simp] theorem drive_rc (o : Outputs) : (drive o s).rc = s.rc := rfl
@[simp] theorem drive_wc (o : Outputs) : (drive o s).wc = s.wc := rfl
@[simp] theorem drive_mem (o : Outputs) : (drive o s).mem = s.mem := rfl
@[simp] theorem drive_out (o : Outputs) : (drive o s).out = o := rfl
@[simp] theorem drive_portLog (o : Outputs) : (drive o s).portLog = s.portLog := rfl
@[simp] theorem drive_portCount (o : Outputs) : (drive o s).portCount = s.portCount := rfl
@[simp] theorem drive_inputs (o : Outputs) : (drive o s).inputs = s.inputs := rfl
@[simp] theorem drive_closed (o : Outputs) : (drive o s).closed = s.closed := rfl

/-! ## `logPort` -/

@[simp] theorem logPort_cfg (l : List PortAccess) : (logPort l s).cfg = s.cfg := rfl
@[simp] theorem logPort_env (l : List PortAccess) : (logPort l s).env = s.env := rfl
@[simp] theorem logPort_cr0 (l : List PortAccess) : (logPort l s).cr0 = s.cr0 := rfl
@[simp] theorem logPort_cr3 (l : List PortAccess) : (logPort l s).cr3 = s.cr3 := rfl
@[simp] theorem logPort_cr4 (l : List PortAccess) : (logPort l s).cr4 = s.cr4 := rfl
@[simp] theorem logPort_cpl (l : List PortAccess) : (logPort l s).cpl = s.cpl := rfl
@[simp] theorem logPort_ovr (l : List PortAccess) : (logPort l s).ovr = s.ovr := rfl
@[simp] theorem logPort_rammask (l : List PortAccess) : (logPort l s).rammask = s.rammask := rfl
@[simp] theorem logPort_abrt (l : List PortAccess) : (logPort l s).abrt = s.abrt := rfl
@[simp] theorem logPort_abrtErr (l : List PortAccess) : (logPort l s).abrtErr = s.abrtErr := rfl
@[simp] theorem logPort_cr2 (l : List PortAccess) : (logPort l s).cr2 = s.cr2 := rfl
@[simp] theorem logPort_lastPerm (l : List PortAccess) : (logPort l s).lastPerm = s.lastPerm := rfl
@[simp] theorem logPort_rc (l : List PortAccess) : (logPort l s).rc = s.rc := rfl
@[simp] theorem logPort_wc (l : List PortAccess) : (logPort l s).wc = s.wc := rfl
@[simp] theorem logPort_mem (l : List PortAccess) : (logPort l s).mem = s.mem := rfl
@[simp] theorem logPort_out (l : List PortAccess) : (logPort l s).out = s.out := rfl
@[simp] theorem logPort_portLog (l : List PortAccess) :
    (logPort l s).portLog = s.portLog ++ l := rfl
@[simp] theorem logPort_portCount (l : List PortAccess) :
    (logPort l s).portCount = s.portCount + l.length := rfl
@[simp] theorem logPort_inputs (l : List PortAccess) : (logPort l s).inputs = s.inputs := rfl
@[simp] theorem logPort_closed (l : List PortAccess) : (logPort l s).closed = s.closed := rfl

/-! ## `memWrite4` -/

@[simp] theorem memWrite4_cfg (a : PAddr) (v : Dword) : (memWrite4 a v s).cfg = s.cfg := rfl
@[simp] theorem memWrite4_env (a : PAddr) (v : Dword) : (memWrite4 a v s).env = s.env := rfl
@[simp] theorem memWrite4_cr0 (a : PAddr) (v : Dword) : (memWrite4 a v s).cr0 = s.cr0 := rfl
@[simp] theorem memWrite4_cr3 (a : PAddr) (v : Dword) : (memWrite4 a v s).cr3 = s.cr3 := rfl
@[simp] theorem memWrite4_cr4 (a : PAddr) (v : Dword) : (memWrite4 a v s).cr4 = s.cr4 := rfl
@[simp] theorem memWrite4_cpl (a : PAddr) (v : Dword) : (memWrite4 a v s).cpl = s.cpl := rfl
@[simp] theorem memWrite4_ovr (a : PAddr) (v : Dword) : (memWrite4 a v s).ovr = s.ovr := rfl
@[simp] theorem memWrite4_rammask (a : PAddr) (v : Dword) :
    (memWrite4 a v s).rammask = s.rammask := rfl
@[simp] theorem memWrite4_abrt (a : PAddr) (v : Dword) : (memWrite4 a v s).abrt = s.abrt := rfl
@[simp] theorem memWrite4_abrtErr (a : PAddr) (v : Dword) :
    (memWrite4 a v s).abrtErr = s.abrtErr := rfl
@[simp] theorem memWrite4_cr2 (a : PAddr) (v : Dword) : (memWrite4 a v s).cr2 = s.cr2 := rfl
@[simp] theorem memWrite4_lastPerm (a : PAddr) (v : Dword) :
    (memWrite4 a v s).lastPerm = s.lastPerm := rfl
@[simp] theorem memWrite4_rc (a : PAddr) (v : Dword) : (memWrite4 a v s).rc = s.rc := rfl
@[simp] theorem memWrite4_wc (a : PAddr) (v : Dword) : (memWrite4 a v s).wc = s.wc := rfl
@[simp] theorem memWrite4_mem (a : PAddr) (v : Dword) :
    (memWrite4 a v s).mem = store4 s.env s.mem a v := rfl
@[simp] theorem memWrite4_out (a : PAddr) (v : Dword) : (memWrite4 a v s).out = s.out := rfl
@[simp] theorem memWrite4_portLog (a : PAddr) (v : Dword) :
    (memWrite4 a v s).portLog = s.portLog ++ [.write4 a v] := rfl
@[simp] theorem memWrite4_portCount (a : PAddr) (v : Dword) :
    (memWrite4 a v s).portCount = s.portCount + 1 := rfl
@[simp] theorem memWrite4_inputs (a : PAddr) (v : Dword) :
    (memWrite4 a v s).inputs = s.inputs := rfl
@[simp] theorem memWrite4_closed (a : PAddr) (v : Dword) :
    (memWrite4 a v s).closed = s.closed := rfl

/-! ## `raisePageFault` -/

@[simp] theorem raisePageFault_cfg (a : LAddr) (ec : Dword) :
    (raisePageFault a ec s).cfg = s.cfg := rfl
@[simp] theorem raisePageFault_env (a : LAddr) (ec : Dword) :
    (raisePageFault a ec s).env = s.env := rfl
@[simp] theorem raisePageFault_cr0 (a : LAddr) (ec : Dword) :
    (raisePageFault a ec s).cr0 = s.cr0 := rfl
@[simp] theorem raisePageFault_cr3 (a : LAddr) (ec : Dword) :
    (raisePageFault a ec s).cr3 = s.cr3 := rfl
@[simp] theorem raisePageFault_cr4 (a : LAddr) (ec : Dword) :
    (raisePageFault a ec s).cr4 = s.cr4 := rfl
@[simp] theorem raisePageFault_cpl (a : LAddr) (ec : Dword) :
    (raisePageFault a ec s).cpl = s.cpl := rfl
@[simp] theorem raisePageFault_ovr (a : LAddr) (ec : Dword) :
    (raisePageFault a ec s).ovr = s.ovr := rfl
@[simp] theorem raisePageFault_rammask (a : LAddr) (ec : Dword) :
    (raisePageFault a ec s).rammask = s.rammask := rfl
@[simp] theorem raisePageFault_abrt (a : LAddr) (ec : Dword) :
    (raisePageFault a ec s).abrt = pageFaultCode := rfl
@[simp] theorem raisePageFault_abrtErr (a : LAddr) (ec : Dword) :
    (raisePageFault a ec s).abrtErr = ec := rfl
@[simp] theorem raisePageFault_cr2 (a : LAddr) (ec : Dword) : (raisePageFault a ec s).cr2 = a := rfl
@[simp] theorem raisePageFault_lastPerm (a : LAddr) (ec : Dword) :
    (raisePageFault a ec s).lastPerm = s.lastPerm := rfl
@[simp] theorem raisePageFault_rc (a : LAddr) (ec : Dword) :
    (raisePageFault a ec s).rc = s.rc := rfl
@[simp] theorem raisePageFault_wc (a : LAddr) (ec : Dword) :
    (raisePageFault a ec s).wc = s.wc := rfl
@[simp] theorem raisePageFault_mem (a : LAddr) (ec : Dword) :
    (raisePageFault a ec s).mem = s.mem := rfl
@[simp] theorem raisePageFault_out (a : LAddr) (ec : Dword) :
    (raisePageFault a ec s).out = s.out := rfl
@[simp] theorem raisePageFault_portLog (a : LAddr) (ec : Dword) :
    (raisePageFault a ec s).portLog = s.portLog := rfl
@[simp] theorem raisePageFault_portCount (a : LAddr) (ec : Dword) :
    (raisePageFault a ec s).portCount = s.portCount := rfl
@[simp] theorem raisePageFault_inputs (a : LAddr) (ec : Dword) :
    (raisePageFault a ec s).inputs = s.inputs := rfl
@[simp] theorem raisePageFault_closed (a : LAddr) (ec : Dword) :
    (raisePageFault a ec s).closed = s.closed := rfl

/-! ## `loadAbort` -/

@[simp] theorem loadAbort_cfg (c : Byte) : (loadAbort c s).cfg = s.cfg := rfl
@[simp] theorem loadAbort_env (c : Byte) : (loadAbort c s).env = s.env := rfl
@[simp] theorem loadAbort_cr0 (c : Byte) : (loadAbort c s).cr0 = s.cr0 := rfl
@[simp] theorem loadAbort_cr3 (c : Byte) : (loadAbort c s).cr3 = s.cr3 := rfl
@[simp] theorem loadAbort_cr4 (c : Byte) : (loadAbort c s).cr4 = s.cr4 := rfl
@[simp] theorem loadAbort_cpl (c : Byte) : (loadAbort c s).cpl = s.cpl := rfl
@[simp] theorem loadAbort_ovr (c : Byte) : (loadAbort c s).ovr = s.ovr := rfl
@[simp] theorem loadAbort_rammask (c : Byte) : (loadAbort c s).rammask = s.rammask := rfl
@[simp] theorem loadAbort_abrt (c : Byte) : (loadAbort c s).abrt = c := rfl
@[simp] theorem loadAbort_abrtErr (c : Byte) : (loadAbort c s).abrtErr = s.abrtErr := rfl
@[simp] theorem loadAbort_cr2 (c : Byte) : (loadAbort c s).cr2 = s.cr2 := rfl
@[simp] theorem loadAbort_lastPerm (c : Byte) : (loadAbort c s).lastPerm = s.lastPerm := rfl
@[simp] theorem loadAbort_rc (c : Byte) : (loadAbort c s).rc = s.rc := rfl
@[simp] theorem loadAbort_wc (c : Byte) : (loadAbort c s).wc = s.wc := rfl
@[simp] theorem loadAbort_mem (c : Byte) : (loadAbort c s).mem = s.mem := rfl
@[simp] theorem loadAbort_out (c : Byte) : (loadAbort c s).out = s.out := rfl
@[simp] theorem loadAbort_portLog (c : Byte) : (loadAbort c s).portLog = s.portLog := rfl
@[simp] theorem loadAbort_portCount (c : Byte) : (loadAbort c s).portCount = s.portCount := rfl
@[simp] theorem loadAbort_inputs (c : Byte) : (loadAbort c s).inputs = s.inputs := rfl
@[simp] theorem loadAbort_closed (c : Byte) : (loadAbort c s).closed = s.closed := rfl

/-! ## `flushCaches` -/

@[simp] theorem flushCaches_cfg : (flushCaches s).cfg = s.cfg := rfl
@[simp] theorem flushCaches_env : (flushCaches s).env = s.env := rfl
@[simp] theorem flushCaches_cr0 : (flushCaches s).cr0 = s.cr0 := rfl
@[simp] theorem flushCaches_cr3 : (flushCaches s).cr3 = s.cr3 := rfl
@[simp] theorem flushCaches_cr4 : (flushCaches s).cr4 = s.cr4 := rfl
@[simp] theorem flushCaches_cpl : (flushCaches s).cpl = s.cpl := rfl
@[simp] theorem flushCaches_ovr : (flushCaches s).ovr = s.ovr := rfl
@[simp] theorem flushCaches_rammask : (flushCaches s).rammask = s.rammask := rfl
@[simp] theorem flushCaches_abrt : (flushCaches s).abrt = s.abrt := rfl
@[simp] theorem flushCaches_abrtErr : (flushCaches s).abrtErr = s.abrtErr := rfl
@[simp] theorem flushCaches_cr2 : (flushCaches s).cr2 = s.cr2 := rfl
@[simp] theorem flushCaches_lastPerm : (flushCaches s).lastPerm = s.lastPerm := rfl
@[simp] theorem flushCaches_rc : (flushCaches s).rc = s.rc.flush := rfl
@[simp] theorem flushCaches_wc : (flushCaches s).wc = s.wc.flush := rfl
@[simp] theorem flushCaches_mem : (flushCaches s).mem = s.mem := rfl
@[simp] theorem flushCaches_out : (flushCaches s).out = s.out := rfl
@[simp] theorem flushCaches_portLog : (flushCaches s).portLog = s.portLog := rfl
@[simp] theorem flushCaches_portCount : (flushCaches s).portCount = s.portCount := rfl
@[simp] theorem flushCaches_inputs : (flushCaches s).inputs = s.inputs := rfl
@[simp] theorem flushCaches_closed : (flushCaches s).closed = s.closed := rfl

/-! ## `insertReadSlot` -/

@[simp] theorem insertReadSlot_cfg (lp : LPage) (pp : PPage) :
    (insertReadSlot lp pp s).cfg = s.cfg := rfl
@[simp] theorem insertReadSlot_env (lp : LPage) (pp : PPage) :
    (insertReadSlot lp pp s).env = s.env := rfl
@[simp] theorem insertReadSlot_cr0 (lp : LPage) (pp : PPage) :
    (insertReadSlot lp pp s).cr0 = s.cr0 := rfl
@[simp] theorem insertReadSlot_cr3 (lp : LPage) (pp : PPage) :
    (insertReadSlot lp pp s).cr3 = s.cr3 := rfl
@[simp] theorem insertReadSlot_cr4 (lp : LPage) (pp : PPage) :
    (insertReadSlot lp pp s).cr4 = s.cr4 := rfl
@[simp] theorem insertReadSlot_cpl (lp : LPage) (pp : PPage) :
    (insertReadSlot lp pp s).cpl = s.cpl := rfl
@[simp] theorem insertReadSlot_ovr (lp : LPage) (pp : PPage) :
    (insertReadSlot lp pp s).ovr = s.ovr := rfl
@[simp] theorem insertReadSlot_rammask (lp : LPage) (pp : PPage) :
    (insertReadSlot lp pp s).rammask = s.rammask := rfl
@[simp] theorem insertReadSlot_abrt (lp : LPage) (pp : PPage) :
    (insertReadSlot lp pp s).abrt = s.abrt := rfl
@[simp] theorem insertReadSlot_abrtErr (lp : LPage) (pp : PPage) :
    (insertReadSlot lp pp s).abrtErr = s.abrtErr := rfl
@[simp] theorem insertReadSlot_cr2 (lp : LPage) (pp : PPage) :
    (insertReadSlot lp pp s).cr2 = s.cr2 := rfl
@[simp] theorem insertReadSlot_lastPerm (lp : LPage) (pp : PPage) :
    (insertReadSlot lp pp s).lastPerm = s.lastPerm := rfl
@[simp] theorem insertReadSlot_rc (lp : LPage) (pp : PPage) :
    (insertReadSlot lp pp s).rc = s.rc.insert s.cfg.cacheSize ⟨true, lp, pp, s.lastPerm, false⟩ := rfl
@[simp] theorem insertReadSlot_wc (lp : LPage) (pp : PPage) :
    (insertReadSlot lp pp s).wc = s.wc := rfl
@[simp] theorem insertReadSlot_mem (lp : LPage) (pp : PPage) :
    (insertReadSlot lp pp s).mem = s.mem := rfl
@[simp] theorem insertReadSlot_out (lp : LPage) (pp : PPage) :
    (insertReadSlot lp pp s).out = s.out := rfl
@[simp] theorem insertReadSlot_portLog (lp : LPage) (pp : PPage) :
    (insertReadSlot lp pp s).portLog = s.portLog := rfl
@[simp] theorem insertReadSlot_portCount (lp : LPage) (pp : PPage) :
    (insertReadSlot lp pp s).portCount = s.portCount := rfl
@[simp] theorem insertReadSlot_inputs (lp : LPage) (pp : PPage) :
    (insertReadSlot lp pp s).inputs = s.inputs := rfl
@[simp] theorem insertReadSlot_closed (lp : LPage) (pp : PPage) :
    (insertReadSlot lp pp s).closed = s.closed := rfl

/-! ## `insertWriteSlot` -/

@[simp] theorem insertWriteSlot_cfg (lp : LPage) (pp : PPage) :
    (insertWriteSlot lp pp s).cfg = s.cfg := rfl
@[simp] theorem insertWriteSlot_env (lp : LPage) (pp : PPage) :
    (insertWriteSlot lp pp s).env = s.env := rfl
@[simp] theorem insertWriteSlot_cr0 (lp : LPage) (pp : PPage) :
    (insertWriteSlot lp pp s).cr0 = s.cr0 := rfl
@[simp] theorem insertWriteSlot_cr3 (lp : LPage) (pp : PPage) :
    (insertWriteSlot lp pp s).cr3 = s.cr3 := rfl
@[simp] theorem insertWriteSlot_cr4 (lp : LPage) (pp : PPage) :
    (insertWriteSlot lp pp s).cr4 = s.cr4 := rfl
@[simp] theorem insertWriteSlot_cpl (lp : LPage) (pp : PPage) :
    (insertWriteSlot lp pp s).cpl = s.cpl := rfl
@[simp] theorem insertWriteSlot_ovr (lp : LPage) (pp : PPage) :
    (insertWriteSlot lp pp s).ovr = s.ovr := rfl
@[simp] theorem insertWriteSlot_rammask (lp : LPage) (pp : PPage) :
    (insertWriteSlot lp pp s).rammask = s.rammask := rfl
@[simp] theorem insertWriteSlot_abrt (lp : LPage) (pp : PPage) :
    (insertWriteSlot lp pp s).abrt = s.abrt := rfl
@[simp] theorem insertWriteSlot_abrtErr (lp : LPage) (pp : PPage) :
    (insertWriteSlot lp pp s).abrtErr = s.abrtErr := rfl
@[simp] theorem insertWriteSlot_cr2 (lp : LPage) (pp : PPage) :
    (insertWriteSlot lp pp s).cr2 = s.cr2 := rfl
@[simp] theorem insertWriteSlot_lastPerm (lp : LPage) (pp : PPage) :
    (insertWriteSlot lp pp s).lastPerm = s.lastPerm := rfl
@[simp] theorem insertWriteSlot_rc (lp : LPage) (pp : PPage) :
    (insertWriteSlot lp pp s).rc = s.rc := rfl
@[simp] theorem insertWriteSlot_wc (lp : LPage) (pp : PPage) :
    (insertWriteSlot lp pp s).wc = s.wc.insert s.cfg.cacheSize ⟨true, lp, pp, s.lastPerm, codePresent s pp⟩ := rfl
@[simp] theorem insertWriteSlot_mem (lp : LPage) (pp : PPage) :
    (insertWriteSlot lp pp s).mem = s.mem := rfl
@[simp] theorem insertWriteSlot_out (lp : LPage) (pp : PPage) :
    (insertWriteSlot lp pp s).out = s.out := rfl
@[simp] theorem insertWriteSlot_portLog (lp : LPage) (pp : PPage) :
    (insertWriteSlot lp pp s).portLog = s.portLog := rfl
@[simp] theorem insertWriteSlot_portCount (lp : LPage) (pp : PPage) :
    (insertWriteSlot lp pp s).portCount = s.portCount := rfl
@[simp] theorem insertWriteSlot_inputs (lp : LPage) (pp : PPage) :
    (insertWriteSlot lp pp s).inputs = s.inputs := rfl
@[simp] theorem insertWriteSlot_closed (lp : LPage) (pp : PPage) :
    (insertWriteSlot lp pp s).closed = s.closed := rfl

/-! ## `beginCommand` -/

@[simp] theorem beginCommand_cfg : (beginCommand s).cfg = s.cfg := rfl
@[simp] theorem beginCommand_env : (beginCommand s).env = s.env := rfl
@[simp] theorem beginCommand_cr0 : (beginCommand s).cr0 = s.cr0 := rfl
@[simp] theorem beginCommand_cr3 : (beginCommand s).cr3 = s.cr3 := rfl
@[simp] theorem beginCommand_cr4 : (beginCommand s).cr4 = s.cr4 := rfl
@[simp] theorem beginCommand_cpl : (beginCommand s).cpl = s.cpl := rfl
@[simp] theorem beginCommand_ovr : (beginCommand s).ovr = s.ovr := rfl
@[simp] theorem beginCommand_rammask : (beginCommand s).rammask = s.rammask := rfl
@[simp] theorem beginCommand_abrt : (beginCommand s).abrt = s.abrt := rfl
@[simp] theorem beginCommand_abrtErr : (beginCommand s).abrtErr = s.abrtErr := rfl
@[simp] theorem beginCommand_cr2 : (beginCommand s).cr2 = s.cr2 := rfl
@[simp] theorem beginCommand_lastPerm : (beginCommand s).lastPerm = s.lastPerm := rfl
@[simp] theorem beginCommand_rc : (beginCommand s).rc = s.rc := rfl
@[simp] theorem beginCommand_wc : (beginCommand s).wc = s.wc := rfl
@[simp] theorem beginCommand_mem : (beginCommand s).mem = s.mem := rfl
@[simp] theorem beginCommand_out : (beginCommand s).out = s.out := rfl
@[simp] theorem beginCommand_portLog : (beginCommand s).portLog = [] := rfl
@[simp] theorem beginCommand_portCount : (beginCommand s).portCount = s.portCount := rfl
@[simp] theorem beginCommand_inputs : (beginCommand s).inputs = s.inputs := rfl
@[simp] theorem beginCommand_closed : (beginCommand s).closed = s.closed := rfl

/-! ## `flushWhen` -/

@[simp] theorem flushWhen_cfg (b : Bool) : (flushWhen b s).cfg = s.cfg := by cases b <;> rfl
@[simp] theorem flushWhen_env (b : Bool) : (flushWhen b s).env = s.env := by cases b <;> rfl
@[simp] theorem flushWhen_cr0 (b : Bool) : (flushWhen b s).cr0 = s.cr0 := by cases b <;> rfl
@[simp] theorem flushWhen_cr3 (b : Bool) : (flushWhen b s).cr3 = s.cr3 := by cases b <;> rfl
@[simp] theorem flushWhen_cr4 (b : Bool) : (flushWhen b s).cr4 = s.cr4 := by cases b <;> rfl
@[simp] theorem flushWhen_cpl (b : Bool) : (flushWhen b s).cpl = s.cpl := by cases b <;> rfl
@[simp] theorem flushWhen_ovr (b : Bool) : (flushWhen b s).ovr = s.ovr := by cases b <;> rfl
@[simp] theorem flushWhen_rammask (b : Bool) :
    (flushWhen b s).rammask = s.rammask := by cases b <;> rfl
@[simp] theorem flushWhen_abrt (b : Bool) : (flushWhen b s).abrt = s.abrt := by cases b <;> rfl
@[simp] theorem flushWhen_abrtErr (b : Bool) :
    (flushWhen b s).abrtErr = s.abrtErr := by cases b <;> rfl
@[simp] theorem flushWhen_cr2 (b : Bool) : (flushWhen b s).cr2 = s.cr2 := by cases b <;> rfl
@[simp] theorem flushWhen_lastPerm (b : Bool) :
    (flushWhen b s).lastPerm = s.lastPerm := by cases b <;> rfl
@[simp] theorem flushWhen_rc (b : Bool) :
    (flushWhen b s).rc = if b then s.rc.flush else s.rc := by cases b <;> rfl
@[simp] theorem flushWhen_wc (b : Bool) :
    (flushWhen b s).wc = if b then s.wc.flush else s.wc := by cases b <;> rfl
@[simp] theorem flushWhen_mem (b : Bool) : (flushWhen b s).mem = s.mem := by cases b <;> rfl
@[simp] theorem flushWhen_out (b : Bool) : (flushWhen b s).out = s.out := by cases b <;> rfl
@[simp] theorem flushWhen_portLog (b : Bool) :
    (flushWhen b s).portLog = s.portLog := by cases b <;> rfl
@[simp] theorem flushWhen_portCount (b : Bool) :
    (flushWhen b s).portCount = s.portCount := by cases b <;> rfl
@[simp] theorem flushWhen_inputs (b : Bool) :
    (flushWhen b s).inputs = s.inputs := by cases b <;> rfl
@[simp] theorem flushWhen_closed (b : Bool) :
    (flushWhen b s).closed = s.closed := by cases b <;> rfl

/-! ## `fillCache` -/

@[simp] theorem fillCache_cfg (w : Bool) (lp : LPage) (pp : PPage) : (fillCache w lp pp s).cfg = s.cfg := by
  unfold fillCache; split <;> (try split) <;> rfl
@[simp] theorem fillCache_env (w : Bool) (lp : LPage) (pp : PPage) : (fillCache w lp pp s).env = s.env := by
  unfold fillCache; split <;> (try split) <;> rfl
@[simp] theorem fillCache_cr0 (w : Bool) (lp : LPage) (pp : PPage) : (fillCache w lp pp s).cr0 = s.cr0 := by
  unfold fillCache; split <;> (try split) <;> rfl
@[simp] theorem fillCache_cr3 (w : Bool) (lp : LPage) (pp : PPage) : (fillCache w lp pp s).cr3 = s.cr3 := by
  unfold fillCache; split <;> (try split) <;> rfl
@[simp] theorem fillCache_cr4 (w : Bool) (lp : LPage) (pp : PPage) : (fillCache w lp pp s).cr4 = s.cr4 := by
  unfold fillCache; split <;> (try split) <;> rfl
@[simp] theorem fillCache_cpl (w : Bool) (lp : LPage) (pp : PPage) : (fillCache w lp pp s).cpl = s.cpl := by
  unfold fillCache; split <;> (try split) <;> rfl
@[simp] theorem fillCache_ovr (w : Bool) (lp : LPage) (pp : PPage) : (fillCache w lp pp s).ovr = s.ovr := by
  unfold fillCache; split <;> (try split) <;> rfl
@[simp] theorem fillCache_rammask (w : Bool) (lp : LPage) (pp : PPage) : (fillCache w lp pp s).rammask = s.rammask := by
  unfold fillCache; split <;> (try split) <;> rfl
@[simp] theorem fillCache_abrt (w : Bool) (lp : LPage) (pp : PPage) : (fillCache w lp pp s).abrt = s.abrt := by
  unfold fillCache; split <;> (try split) <;> rfl
@[simp] theorem fillCache_abrtErr (w : Bool) (lp : LPage) (pp : PPage) : (fillCache w lp pp s).abrtErr = s.abrtErr := by
  unfold fillCache; split <;> (try split) <;> rfl
@[simp] theorem fillCache_cr2 (w : Bool) (lp : LPage) (pp : PPage) : (fillCache w lp pp s).cr2 = s.cr2 := by
  unfold fillCache; split <;> (try split) <;> rfl
@[simp] theorem fillCache_lastPerm (w : Bool) (lp : LPage) (pp : PPage) : (fillCache w lp pp s).lastPerm = s.lastPerm := by
  unfold fillCache; split <;> (try split) <;> rfl
@[simp] theorem fillCache_mem (w : Bool) (lp : LPage) (pp : PPage) : (fillCache w lp pp s).mem = s.mem := by
  unfold fillCache; split <;> (try split) <;> rfl
@[simp] theorem fillCache_out (w : Bool) (lp : LPage) (pp : PPage) : (fillCache w lp pp s).out = s.out := by
  unfold fillCache; split <;> (try split) <;> rfl
@[simp] theorem fillCache_portLog (w : Bool) (lp : LPage) (pp : PPage) : (fillCache w lp pp s).portLog = s.portLog := by
  unfold fillCache; split <;> (try split) <;> rfl
@[simp] theorem fillCache_portCount (w : Bool) (lp : LPage) (pp : PPage) : (fillCache w lp pp s).portCount = s.portCount := by
  unfold fillCache; split <;> (try split) <;> rfl
@[simp] theorem fillCache_inputs (w : Bool) (lp : LPage) (pp : PPage) : (fillCache w lp pp s).inputs = s.inputs := by
  unfold fillCache; split <;> (try split) <;> rfl
@[simp] theorem fillCache_closed (w : Bool) (lp : LPage) (pp : PPage) : (fillCache w lp pp s).closed = s.closed := by
  unfold fillCache; split <;> (try split) <;> rfl

/-! ## `writeBack` -/

@[simp] theorem writeBack_cfg (b : WriteBack) : (writeBack b s).cfg = s.cfg := rfl
@[simp] theorem writeBack_env (b : WriteBack) : (writeBack b s).env = s.env := rfl
@[simp] theorem writeBack_cr0 (b : WriteBack) : (writeBack b s).cr0 = s.cr0 := rfl
@[simp] theorem writeBack_cr3 (b : WriteBack) : (writeBack b s).cr3 = s.cr3 := rfl
@[simp] theorem writeBack_cr4 (b : WriteBack) : (writeBack b s).cr4 = s.cr4 := rfl
@[simp] theorem writeBack_cpl (b : WriteBack) : (writeBack b s).cpl = s.cpl := rfl
@[simp] theorem writeBack_ovr (b : WriteBack) : (writeBack b s).ovr = s.ovr := rfl
@[simp] theorem writeBack_rammask (b : WriteBack) : (writeBack b s).rammask = s.rammask := rfl
@[simp] theorem writeBack_abrt (b : WriteBack) : (writeBack b s).abrt = s.abrt := rfl
@[simp] theorem writeBack_abrtErr (b : WriteBack) : (writeBack b s).abrtErr = s.abrtErr := rfl
@[simp] theorem writeBack_cr2 (b : WriteBack) : (writeBack b s).cr2 = s.cr2 := rfl
@[simp] theorem writeBack_lastPerm (b : WriteBack) : (writeBack b s).lastPerm = s.lastPerm := rfl
@[simp] theorem writeBack_rc (b : WriteBack) : (writeBack b s).rc = s.rc := rfl
@[simp] theorem writeBack_wc (b : WriteBack) : (writeBack b s).wc = s.wc := rfl
@[simp] theorem writeBack_out (b : WriteBack) : (writeBack b s).out = s.out := rfl
@[simp] theorem writeBack_portCount (b : WriteBack) :
    (writeBack b s).portCount = s.portCount + 2 := rfl
@[simp] theorem writeBack_inputs (b : WriteBack) : (writeBack b s).inputs = s.inputs := rfl
@[simp] theorem writeBack_closed (b : WriteBack) : (writeBack b s).closed = s.closed := rfl

/-! ## `writeBacks` -/

@[simp] theorem writeBacks_cfg (l : List WriteBack) : (writeBacks l s).cfg = s.cfg := by
  induction l generalizing s with
  | nil => rfl
  | cons b l ih => exact ih (writeBack b s)
@[simp] theorem writeBacks_env (l : List WriteBack) : (writeBacks l s).env = s.env := by
  induction l generalizing s with
  | nil => rfl
  | cons b l ih => exact ih (writeBack b s)
@[simp] theorem writeBacks_cr0 (l : List WriteBack) : (writeBacks l s).cr0 = s.cr0 := by
  induction l generalizing s with
  | nil => rfl
  | cons b l ih => exact ih (writeBack b s)
@[simp] theorem writeBacks_cr3 (l : List WriteBack) : (writeBacks l s).cr3 = s.cr3 := by
  induction l generalizing s with
  | nil => rfl
  | cons b l ih => exact ih (writeBack b s)
@[simp] theorem writeBacks_cr4 (l : List WriteBack) : (writeBacks l s).cr4 = s.cr4 := by
  induction l generalizing s with
  | nil => rfl
  | cons b l ih => exact ih (writeBack b s)
@[simp] theorem writeBacks_cpl (l : List WriteBack) : (writeBacks l s).cpl = s.cpl := by
  induction l generalizing s with
  | nil => rfl
  | cons b l ih => exact ih (writeBack b s)
@[simp] theorem writeBacks_ovr (l : List WriteBack) : (writeBacks l s).ovr = s.ovr := by
  induction l generalizing s with
  | nil => rfl
  | cons b l ih => exact ih (writeBack b s)
@[simp] theorem writeBacks_rammask (l : List WriteBack) : (writeBacks l s).rammask = s.rammask := by
  induction l generalizing s with
  | nil => rfl
  | cons b l ih => exact ih (writeBack b s)
@[simp] theorem writeBacks_abrt (l : List WriteBack) : (writeBacks l s).abrt = s.abrt := by
  induction l generalizing s with
  | nil => rfl
  | cons b l ih => exact ih (writeBack b s)
@[simp] theorem writeBacks_abrtErr (l : List WriteBack) : (writeBacks l s).abrtErr = s.abrtErr := by
  induction l generalizing s with
  | nil => rfl
  | cons b l ih => exact ih (writeBack b s)
@[simp] theorem writeBacks_cr2 (l : List WriteBack) : (writeBacks l s).cr2 = s.cr2 := by
  induction l generalizing s with
  | nil => rfl
  | cons b l ih => exact ih (writeBack b s)
@[simp] theorem writeBacks_lastPerm (l : List WriteBack) : (writeBacks l s).lastPerm = s.lastPerm := by
  induction l generalizing s with
  | nil => rfl
  | cons b l ih => exact ih (writeBack b s)
@[simp] theorem writeBacks_rc (l : List WriteBack) : (writeBacks l s).rc = s.rc := by
  induction l generalizing s with
  | nil => rfl
  | cons b l ih => exact ih (writeBack b s)
@[simp] theorem writeBacks_wc (l : List WriteBack) : (writeBacks l s).wc = s.wc := by
  induction l generalizing s with
  | nil => rfl
  | cons b l ih => exact ih (writeBack b s)
@[simp] theorem writeBacks_out (l : List WriteBack) : (writeBacks l s).out = s.out := by
  induction l generalizing s with
  | nil => rfl
  | cons b l ih => exact ih (writeBack b s)
@[simp] theorem writeBacks_inputs (l : List WriteBack) : (writeBacks l s).inputs = s.inputs := by
  induction l generalizing s with
  | nil => rfl
  | cons b l ih => exact ih (writeBack b s)
@[simp] theorem writeBacks_closed (l : List WriteBack) : (writeBacks l s).closed = s.closed := by
  induction l generalizing s with
  | nil => rfl
  | cons b l ih => exact ih (writeBack b s)

end Sys2Proof.Machine
end

