-- ==== Sys2Proof/Laws/Cache.lean ====
section
/-! SUPPORT. The laws of the translation caches (41_cache.md): what a lookup finds, what an insertion,
a flush and a targeted flush leave, and that each keeps a cache in good form. -/

namespace Sys2Proof.Machine

theorem holds_iff {lp : LPage} {t : Slot} : holds lp t = true ↔ t.valid = true ∧ t.lpage = lp := by
  simp [holds]

theorem hits_iff {s : State} {w : Bool} {lp : LPage} {t : Slot} :
    hits s w lp t = true ↔
      t.valid = true ∧ t.lpage = lp ∧ permOk s (walkMode s) t.perm w = true := by
  simp [hits, holds, and_assoc]

/-- A lookup that finds a slot finds one of the cache's that hits. -/
theorem lookup_some {s : State} {w : Bool} {c : Cache} {lp : LPage} {t : Slot}
    (h : lookup s w c lp = some t) : t ∈ c.slots ∧ hits s w lp t = true :=
  ⟨List.mem_of_find?_eq_some h, List.find?_some h⟩

/-- A lookup misses exactly when no slot hits. -/
theorem lookup_none {s : State} {w : Bool} {c : Cache} {lp : LPage} :
    lookup s w c lp = none ↔ ∀ t ∈ c.slots, hits s w lp t = false := by
  simp [lookup, List.find?_eq_none]

/-- In a cache in good form valid slots of one page are one slot. -/
theorem CacheWf.eq_of_holds {n : Nat} {c : Cache} (h : CacheWf n c) {lp : LPage} {t u : Slot}
    (ht : t ∈ c.slots) (hu : u ∈ c.slots) (h1 : holds lp t = true) (h2 : holds lp u = true) :
    t = u := by
  rw [holds_iff] at h1 h2
  by_contra hne
  have hs : Std.Symm fun t u : Slot => ¬(t.valid = true ∧ u.valid = true ∧ t.lpage = u.lpage) :=
    ⟨fun _ _ hab hba => hab ⟨hba.2.1, hba.1, hba.2.2.symm⟩⟩
  exact h.unique.forall ht hu hne ⟨h1.1, h2.1, h1.2.trans h2.2.symm⟩

/-- In a cache in good form the slot that hits is the one found. -/
theorem lookup_of_hit {s : State} {w : Bool} {n : Nat} {c : Cache} (h : CacheWf n c) {lp : LPage}
    {t : Slot} (ht : t ∈ c.slots) (hit : hits s w lp t = true) : lookup s w c lp = some t := by
  cases hl : lookup s w c lp with
  | none => rw [lookup_none.mp hl t ht] at hit; cases hit
  | some u =>
    obtain ⟨hu, hh⟩ := lookup_some hl
    simp only [hits, Bool.and_eq_true] at hit hh
    rw [h.eq_of_holds ht hu hit.1 hh.1]

/-- An insertion of a page already valid changes nothing (R144). -/
theorem insert_of_held {n : Nat} {t : Slot} {c : Cache}
    (h : ∃ u ∈ c.slots, holds t.lpage u = true) : c.insert n t = c := by
  rw [Cache.insert, if_pos (List.any_eq_true.mpr h)]

/-- An insertion of a page not cached fills the slot at the cursor (R144). -/
theorem insert_of_free {n : Nat} {t : Slot} {c : Cache} (h : ∀ u ∈ c.slots, holds t.lpage u = false) :
    c.insert n t = ⟨c.slots.set c.next t, (c.next + 1) % n⟩ := by
  rw [Cache.insert, if_neg]
  rw [Bool.not_eq_true, List.any_eq_false]
  intro u hu; simp [h u hu]

/-- The two cases of an insertion. -/
theorem insert_cases (n : Nat) (t : Slot) (c : Cache) :
    c.insert n t = c ∨
    ((∀ u ∈ c.slots, holds t.lpage u = false) ∧
      c.insert n t = ⟨c.slots.set c.next t, (c.next + 1) % n⟩) := by
  by_cases h : c.slots.any (holds t.lpage) = true
  · exact .inl (insert_of_held (List.any_eq_true.mp h))
  · have h' : ∀ u ∈ c.slots, holds t.lpage u = false := by
      simpa [List.any_eq_true] using h
    exact .inr ⟨h', insert_of_free h'⟩

/-- Every slot after an insertion is the inserted one or was there. -/
theorem mem_insert {n : Nat} {t u : Slot} {c : Cache} (h : u ∈ (c.insert n t).slots) :
    u = t ∨ u ∈ c.slots := by
  rcases insert_cases n t c with e | ⟨-, e⟩ <;> rw [e] at h
  · exact .inr h
  · exact (List.mem_or_eq_of_mem_set h).symm

theorem CacheWf.size_pos {n : Nat} {c : Cache} (h : CacheWf n c) : 0 < n := Nat.zero_lt_of_lt h.cursor

/-- Replacing one element by one that is in relation with every other keeps a symmetric pairwise
relation. -/
theorem pairwise_set {α : Type} {R : α → α → Prop} (hs : ∀ a b, R a b → R b a) {l : List α}
    (h : l.Pairwise R) (k : Nat) {t : α} (ht : ∀ u ∈ l, R t u) : (l.set k t).Pairwise R := by
  induction l generalizing k with
  | nil => simp
  | cons x l ih =>
    obtain ⟨hx, hl⟩ := List.pairwise_cons.mp h
    cases k with
    | zero => exact List.pairwise_cons.mpr ⟨fun u hu => ht u (by simp [hu]), hl⟩
    | succ k =>
      refine List.pairwise_cons.mpr ⟨fun u hu => ?_, ih hl k fun u hu => ht u (by simp [hu])⟩
      rcases List.mem_or_eq_of_mem_set hu with hu | rfl
      · exact hx u hu
      · exact hs _ _ (ht x (by simp))

/-- An insertion keeps a cache in good form (R25). -/
theorem CacheWf.insert {n : Nat} {c : Cache} (h : CacheWf n c) (t : Slot) :
    CacheWf n (c.insert n t) := by
  rcases insert_cases n t c with e | ⟨hf, e⟩ <;> rw [e]
  · exact h
  · refine ⟨by simpa using h.length, Nat.mod_lt _ h.size_pos, pairwise_set ?_ h.unique _ ?_⟩
    · exact fun a b hab hba => hab ⟨hba.2.1, hba.1, hba.2.2.symm⟩
    · intro u hu hc
      have := hf u hu
      rw [Bool.eq_false_iff, ne_eq, holds_iff] at this
      exact this ⟨hc.2.1, hc.2.2.symm⟩

/-- Changing slots only by clearing valid bits keeps valid slots of one page one. -/
theorem pairwise_map_clear {l : List Slot} (f : Slot → Slot)
    (hf : ∀ t, (f t).valid = true → f t = t)
    (h : l.Pairwise fun t u => ¬(t.valid = true ∧ u.valid = true ∧ t.lpage = u.lpage)) :
    (l.map f).Pairwise fun t u => ¬(t.valid = true ∧ u.valid = true ∧ t.lpage = u.lpage) := by
  refine List.pairwise_map.mpr (h.imp fun {t u} htu hc => htu ?_)
  rwa [hf t hc.1, hf u hc.2.1] at hc

/-- A flush keeps a cache in good form. -/
theorem CacheWf.flush {n : Nat} {c : Cache} (h : CacheWf n c) : CacheWf n c.flush where
  length := by simpa [Cache.flush] using h.length
  cursor := h.size_pos
  unique := pairwise_map_clear clearValid (by intro t ht; simp [clearValid] at ht) h.unique

/-- A targeted flush keeps a cache in good form. -/
theorem CacheWf.dropPage {n : Nat} {c : Cache} (h : CacheWf n c) (pp : PPage) :
    CacheWf n (c.dropPage pp) where
  length := by simpa [Cache.dropPage] using h.length
  cursor := h.cursor
  unique := by
    refine pairwise_map_clear _ (fun t ht => ?_) h.unique
    split at ht
    · simp [clearValid] at ht
    · next hn => exact if_neg hn

/-- The empty cache is in good form. -/
theorem CacheWf.empty {n : Nat} (h : 0 < n) : CacheWf n (Cache.empty n) where
  length := by simp [Cache.empty]
  cursor := h
  unique := by
    refine List.pairwise_replicate.mpr (.inr ?_)
    simp [Slot.empty]

/-- After a flush no slot is valid. -/
theorem mem_flush_valid {c : Cache} {t : Slot} (h : t ∈ c.flush.slots) : t.valid = false := by
  obtain ⟨u, -, rfl⟩ := List.mem_map.mp h
  rfl

/-- A slot after a flush is one from before with its valid bit cleared. -/
theorem mem_flush {c : Cache} {t : Slot} (h : t ∈ c.flush.slots) : ∃ u ∈ c.slots, t = clearValid u := by
  obtain ⟨u, hu, rfl⟩ := List.mem_map.mp h
  exact ⟨u, hu, rfl⟩

@[simp] theorem clearValid_perm (t : Slot) : (clearValid t).perm = t.perm := rfl
@[simp] theorem clearValid_route (t : Slot) : (clearValid t).route = t.route := rfl
@[simp] theorem clearValid_valid (t : Slot) : (clearValid t).valid = false := rfl
@[simp] theorem clearValid_twice (t : Slot) : clearValid (clearValid t) = clearValid t := rfl

/-- A flush is idempotent (R146). -/
@[simp] theorem flush_flush (c : Cache) : c.flush.flush = c.flush := by
  simp [Cache.flush, List.map_map, Function.comp_def]

/-- A cache with no valid slot misses every page. -/
theorem lookup_of_no_valid {s : State} {w : Bool} {c : Cache} (lp : LPage)
    (h : ∀ t ∈ c.slots, t.valid = false) : lookup s w c lp = none := by
  rw [lookup_none]; intro t ht; simp [hits, holds, h t ht]

end Sys2Proof.Machine
end

