-- ==== Sys2Proof/Laws/Memory.lean ====
section
/-! SUPPORT. The laws of memory: a byte stored is read back, every other byte stays, the canonical form
is kept, and canonical memories that read alike are equal. -/

namespace Sys2Proof.Machine

@[simp] theorem Memory.read_nil (a : Nat) : Memory.read [] a = Memory.unlisted := rfl

theorem Memory.read_head (m : Memory) (k : Nat) (v : Byte) : Memory.read ((k, v) :: m) k = v := by
  simp [Memory.read]

theorem Memory.read_tail (m : Memory) {k a : Nat} (v : Byte) (h : a ≠ k) :
    Memory.read ((k, v) :: m) a = Memory.read m a := by
  simp [Memory.read, h]

/-- An address below every listed one reads as unlisted. -/
theorem Memory.read_of_lt {m : Memory} {a : Nat} (h : ∀ c ∈ m, a < c.1) :
    Memory.read m a = Memory.unlisted := by
  induction m with
  | nil => rfl
  | cons c m ih =>
    have hc : a < c.1 := h c (by simp)
    rw [show c = (c.1, c.2) from rfl, Memory.read_tail m c.2 (by omega)]
    exact ih fun d hd => h d (by simp [hd])

theorem Memory.read_cons_other (m : Memory) {a b : Nat} (v : Byte) (h : b ≠ a) :
    Memory.read (Memory.cons a v m) b = Memory.read m b := by
  unfold Memory.cons; split
  · rfl
  · exact Memory.read_tail m v h

theorem Memory.read_cons_same {m : Memory} {a : Nat} (v : Byte) (h : ∀ c ∈ m, a < c.1) :
    Memory.read (Memory.cons a v m) a = v := by
  unfold Memory.cons; split
  · next e => rw [Memory.read_of_lt h, e]
  · exact Memory.read_head m a v

/-- A store leaves every other byte as it was, in any memory. -/
theorem Memory.read_write_other (m : Memory) {a b : Nat} (v : Byte) (h : b ≠ a) :
    Memory.read (Memory.write m a v) b = Memory.read m b := by
  induction m with
  | nil => exact Memory.read_cons_other [] v h
  | cons c m ih =>
    obtain ⟨k, x⟩ := c
    unfold Memory.write
    split
    · exact Memory.read_cons_other _ v h
    · split
      · next e => rw [Memory.read_cons_other m v h, Memory.read_tail m x (by omega)]
      · by_cases hk : b = k
        · subst hk; rw [Memory.read_head, Memory.read_head]
        · rw [Memory.read_tail _ x hk, Memory.read_tail _ x hk, ih]

/-- A rising memory: the head's address is below the others. -/
theorem Memory.head_lt {c : Host.Cell} {m : Memory} (h : Memory.wf (c :: m)) :
    ∀ d ∈ m, c.1 < d.1 := (List.pairwise_cons.mp h.1).1

theorem Memory.wf_tail {c : Host.Cell} {m : Memory} (h : Memory.wf (c :: m)) : Memory.wf m :=
  ⟨(List.pairwise_cons.mp h.1).2, fun d hd => h.2 d (by simp [hd])⟩

/-- A byte stored in a canonical memory is read back. -/
theorem Memory.read_write_same {m : Memory} (h : Memory.wf m) (a : Nat) (v : Byte) :
    Memory.read (Memory.write m a v) a = v := by
  induction m with
  | nil => exact Memory.read_cons_same v (by simp)
  | cons c m ih =>
    obtain ⟨k, x⟩ := c
    have hlt := Memory.head_lt h
    unfold Memory.write
    split
    · next hk =>
      refine Memory.read_cons_same v fun d hd => ?_
      rcases List.mem_cons.mp hd with rfl | hd
      · exact hk
      · exact Nat.lt_trans hk (hlt d hd)
    · split
      · next e => subst e; exact Memory.read_cons_same v hlt
      · next hne => rw [Memory.read_tail _ x hne, ih (Memory.wf_tail h)]

/-- Every entry of a memory after a store is the stored byte or was there before. -/
theorem Memory.mem_write {m : Memory} {a : Nat} {v : Byte} {c : Host.Cell}
    (h : c ∈ Memory.write m a v) : (c = (a, v) ∧ v ≠ Memory.unlisted) ∨ c ∈ m := by
  have hcons : ∀ l : Memory, c ∈ Memory.cons a v l →
      (c = (a, v) ∧ v ≠ Memory.unlisted) ∨ c ∈ l := by
    intro l hl
    unfold Memory.cons at hl
    split at hl
    · exact .inr hl
    · next hv =>
      rcases List.mem_cons.mp hl with rfl | hl
      · exact .inl ⟨rfl, hv⟩
      · exact .inr hl
  induction m with
  | nil => exact hcons [] h
  | cons d m ih =>
    obtain ⟨k, x⟩ := d
    unfold Memory.write at h
    split at h
    · exact hcons _ h
    · split at h
      · rcases hcons _ h with h | h
        · exact .inl h
        · exact .inr (List.mem_cons_of_mem _ h)
      · rcases List.mem_cons.mp h with rfl | h
        · exact .inr (by simp)
        · rcases ih h with h | h
          · exact .inl h
          · exact .inr (List.mem_cons_of_mem _ h)

theorem Memory.cons_wf {m : Memory} {a : Nat} (v : Byte) (h : Memory.wf m) (ha : a < 2 ^ 40)
    (hlt : ∀ c ∈ m, a < c.1) : Memory.wf (Memory.cons a v m) := by
  unfold Memory.cons; split
  · exact h
  · next hv =>
    refine ⟨List.pairwise_cons.mpr ⟨hlt, h.1⟩, fun c hc => ?_⟩
    rcases List.mem_cons.mp hc with rfl | hc
    · exact ⟨ha, hv⟩
    · exact h.2 c hc

/-- A store keeps the canonical form. -/
theorem Memory.write_wf {m : Memory} (h : Memory.wf m) {a : Nat} (ha : a < 2 ^ 40) (v : Byte) :
    Memory.wf (Memory.write m a v) := by
  induction m with
  | nil => exact Memory.cons_wf v h ha (by simp)
  | cons c m ih =>
    obtain ⟨k, x⟩ := c
    have hlt := Memory.head_lt h
    have hm := Memory.wf_tail h
    unfold Memory.write
    split
    · next hk =>
      refine Memory.cons_wf v h ha fun d hd => ?_
      rcases List.mem_cons.mp hd with rfl | hd
      · exact hk
      · exact Nat.lt_trans hk (hlt d hd)
    · split
      · next e => subst e; exact Memory.cons_wf v hm ha hlt
      · next h1 h2 =>
        refine ⟨List.pairwise_cons.mpr ⟨fun d hd => ?_, (ih hm).1⟩, fun d hd => ?_⟩
        · rcases Memory.mem_write hd with ⟨rfl, -⟩ | hd
          · show k < a
            omega
          · exact hlt d hd
        · rcases List.mem_cons.mp hd with rfl | hd
          · exact h.2 _ (by simp)
          · exact (ih hm).2 d hd

/-- Canonical memories that read alike at every address are equal data. -/
theorem Memory.ext_of_read {m n : Memory} (hm : Memory.wf m) (hn : Memory.wf n)
    (h : ∀ a, Memory.read m a = Memory.read n a) : m = n := by
  induction m generalizing n with
  | nil =>
    cases n with
    | nil => rfl
    | cons c n =>
      have := h c.1
      rw [Memory.read_nil, show c = (c.1, c.2) from rfl, Memory.read_head] at this
      exact absurd this.symm (hn.2 c (by simp)).2
  | cons c m ih =>
    cases n with
    | nil =>
      have := h c.1
      rw [Memory.read_nil, show c = (c.1, c.2) from rfl, Memory.read_head] at this
      exact absurd this (hm.2 c (by simp)).2
    | cons d n =>
      obtain ⟨k, x⟩ := c
      obtain ⟨j, y⟩ := d
      have hkm := Memory.head_lt hm
      have hjn := Memory.head_lt hn
      have hx := (hm.2 (k, x) (by simp)).2
      have hy := (hn.2 (j, y) (by simp)).2
      have hkj : k = j := by
        by_contra hne
        rcases Nat.lt_or_gt_of_ne hne with hlt | hlt
        · have := h k
          rw [Memory.read_head, Memory.read_of_lt] at this
          · exact hx this
          · intro c hc
            rcases List.mem_cons.mp hc with rfl | hc
            · exact hlt
            · exact Nat.lt_trans hlt (hjn c hc)
        · have := h j
          rw [Memory.read_head (v := y), Memory.read_of_lt] at this
          · exact hy this.symm
          · intro c hc
            rcases List.mem_cons.mp hc with rfl | hc
            · exact hlt
            · exact Nat.lt_trans hlt (hkm c hc)
      subst hkj
      have hxy : x = y := by
        have := h k
        rwa [Memory.read_head, Memory.read_head] at this
      subst hxy
      congr 1
      refine ih (Memory.wf_tail hm) (Memory.wf_tail hn) fun a => ?_
      by_cases ha : a = k
      · subst ha; rw [Memory.read_of_lt hkm, Memory.read_of_lt hjn]
      · have := h a
        rwa [Memory.read_tail _ _ ha, Memory.read_tail _ _ ha] at this

end Sys2Proof.Machine
end

