-- ==== Sys2Proof/Laws/Port.lean ====
section
/-! SUPPORT. The laws of the physical port (20_memory.md): what a read of RAM and of unmapped space
gives, and what a 4-byte write leaves. -/

namespace Sys2Proof.Machine

/-- An offset that does not pass the top of the address space adds as a number. -/
theorem offset_toNat {a : PAddr} {i : Nat} (h : a.toNat + i < 2 ^ 40) :
    (a + BitVec.ofNat 40 i).toNat = a.toNat + i := by
  rw [BitVec.toNat_add, BitVec.toNat_ofNat, Nat.mod_eq_of_lt (by omega : i < 2 ^ 40),
    Nat.mod_eq_of_lt h]

theorem portByte_ram {s : State} {k : Nat} {a : PAddr} (h : kindAt s.env a = some .ram) :
    portByte s k a = Memory.read s.mem a.toNat := by
  simp [portByte, h]

theorem portByte_unmapped {s : State} {k : Nat} {a : PAddr} (h : kindAt s.env a = none) :
    portByte s k a = 0xFF := by
  simp [portByte, h]

theorem RamAt.byte {s : State} {a : PAddr} {n : Nat} (h : RamAt s a n) {i : Nat} (hi : i < n)
    (ht : a.toNat + n ≤ 2 ^ 40) (k : Nat) :
    portByte s k (a + BitVec.ofNat 40 i) = Memory.read s.mem (a.toNat + i) := by
  rw [portByte_ram (h i hi), offset_toNat (by omega)]

theorem RamAt.mono {s : State} {a : PAddr} {n m : Nat} (h : RamAt s a n) (hm : m ≤ n) :
    RamAt s a m := fun i hi => h i (by omega)

/-- The kind at the address itself. -/
theorem RamAt.head {s : State} {a : PAddr} {n : Nat} (h : RamAt s a n) (hn : 0 < n) :
    kindAt s.env a = some .ram := by
  have := h 0 hn
  rwa [show BitVec.ofNat 40 0 = 0#40 from rfl, BitVec.add_zero] at this

/-- A 4-byte read of RAM is the little-endian word there (R42). -/
theorem memRead4_ram {s : State} {a : PAddr} (h : RamAt s a 4) (ht : a.toNat + 4 ≤ 2 ^ 40)
    (k : Nat) : memRead4 s k a = mem32 s.mem a := by
  have h0 := portByte_ram (k := k) (h.head (by omega))
  have h1 : portByte s k (a + 1) = _ := h.byte (i := 1) (by omega) ht k
  have h2 : portByte s k (a + 2) = _ := h.byte (i := 2) (by omega) ht k
  have h3 : portByte s k (a + 3) = _ := h.byte (i := 3) (by omega) ht k
  simp only [memRead4, mem32, h0, h1, h2, h3]

/-- The upper half of an 8-byte range of RAM. -/
theorem RamAt.upper {s : State} {a : PAddr} (h : RamAt s a 8) : RamAt s (a + 4) 4 := by
  intro i hi
  have := h (4 + i) (by omega)
  rwa [BitVec.ofNat_add, ← BitVec.add_assoc] at this

/-- An 8-byte read of RAM: the low word at `a`, the high word at `a + 4` (R42). -/
theorem memRead8_ram {s : State} {a : PAddr} (h : RamAt s a 8) (ht : a.toNat + 8 ≤ 2 ^ 40)
    (k : Nat) : memRead8 s k a = mem32 s.mem (a + 4) ++ mem32 s.mem a := by
  have h4 : (a + 4).toNat = a.toNat + 4 := offset_toNat (i := 4) (by omega)
  unfold memRead8
  rw [memRead4_ram h.upper (by omega), memRead4_ram (h.mono (by omega)) (by omega)]

/-- A 64-bit word of memory is its two 32-bit words. -/
theorem mem64_eq {m : Memory} {a : PAddr} (ht : a.toNat + 8 ≤ 2 ^ 40) :
    mem64 m a = mem32 m (a + 4) ++ mem32 m a := by
  have h4 : (a + 4).toNat = a.toNat + 4 := offset_toNat (i := 4) (by omega)
  simp only [mem64, mem32, h4]

/-- A byte stored through the physical layer leaves every other byte. -/
theorem storeByte_other (p : Platform) (m : Memory) (a : PAddr) (v : Byte) {x : Nat}
    (h : x ≠ a.toNat) : Memory.read (storeByte p m a v) x = Memory.read m x := by
  unfold storeByte; split
  · exact Memory.read_write_other m v h
  · rfl

/-- A byte stored to RAM is read back. -/
theorem storeByte_ram {p : Platform} {m : Memory} {a : PAddr} (v : Byte) (hm : Memory.wf m)
    (h : kindAt p a = some .ram) : Memory.read (storeByte p m a v) a.toNat = v := by
  rw [storeByte, if_pos h]; exact Memory.read_write_same hm _ v

/-- A byte stored outside RAM is dropped (R43). -/
theorem storeByte_dropped {p : Platform} {a : PAddr} (m : Memory) (v : Byte)
    (h : kindAt p a ≠ some .ram) : storeByte p m a v = m := if_neg h

/-- A store through the physical layer keeps the canonical form. -/
theorem storeByte_wf (p : Platform) {m : Memory} (a : PAddr) (v : Byte) (hm : Memory.wf m) :
    Memory.wf (storeByte p m a v) := by
  unfold storeByte; split
  · exact Memory.write_wf hm a.isLt v
  · exact hm

theorem store4_wf (p : Platform) {m : Memory} (a : PAddr) (v : Dword) (hm : Memory.wf m) :
    Memory.wf (store4 p m a v) :=
  storeByte_wf p _ _ (storeByte_wf p _ _ (storeByte_wf p _ _ (storeByte_wf p _ _ hm)))

/-- A 4-byte write leaves every byte outside its four (R42). -/
theorem store4_outside (p : Platform) (m : Memory) (a : PAddr) (v : Dword) {x : Nat}
    (ht : a.toNat + 4 ≤ 2 ^ 40) (h : Outside x a 4) :
    Memory.read (store4 p m a v) x = Memory.read m x := by
  have h1 : (a + 1).toNat = a.toNat + 1 := offset_toNat (i := 1) (by omega)
  have h2 : (a + 2).toNat = a.toNat + 2 := offset_toNat (i := 2) (by omega)
  have h3 : (a + 3).toNat = a.toNat + 3 := offset_toNat (i := 3) (by omega)
  unfold Outside at h
  unfold store4
  rw [storeByte_other _ _ _ _ (by omega), storeByte_other _ _ _ _ (by omega),
    storeByte_other _ _ _ _ (by omega), storeByte_other _ _ _ _ (by omega)]

end Sys2Proof.Machine
end

