-- ==== Sys2Proof/Laws/Walk.lean ====
section
/-! SUPPORT. The laws of the walker (40_walker.md): what a leaf answers, what the write-backs keep, and
once for all what TRANSLATE can do. -/

namespace Sys2Proof.Machine

/-- A permission byte has bits 7:3 clear (R76). -/
theorem permByte_wf {n : Nat} (e : BitVec n) : PermWf (permByte e) := by
  unfold PermWf permByte
  cases e.getLsbD 2 <;> cases e.getLsbD 1 <;> decide

/-- An error code has bits 31:3 clear (R75). -/
theorem errorCode_high (s : State) (w p : Bool) : errorCode s w p &&& 0xFFFFFFF8 = 0 := by
  unfold errorCode
  cases errorUser s <;> cases w <;> cases p <;> decide

/-- A denied read is a user fault, so the error code's U bit is set under both settings (R100, R103). -/
theorem errorUser_of_denied_read {n : Nat} {s : State} {m : WalkMode} {e : BitVec n}
    (h : permOk s m e false = false) : errorUser s = true := by
  simp only [permOk, writeFault, userFault, Bool.false_and, Bool.not_false, Bool.and_true,
    Bool.not_eq_false', Bool.and_eq_true, Bool.not_eq_true'] at h
  unfold errorUser
  split <;> simp [h.1.1, h.2]

/-- What a large page's leaf answers (R96). -/
theorem largeLeaf_cases {n : Nat} (s : State) (m : WalkMode) (w : Bool) (pde : BitVec n)
    (pdeA phys : PAddr) :
    (permOk s m pde w = true ∧
      largeLeaf s m w pde pdeA phys = .ok phys (permByte pde) [⟨pdeA, leafBits w⟩]) ∨
    (permOk s m pde w = false ∧ largeLeaf s m w pde pdeA phys = .fail true) := by
  unfold largeLeaf
  cases h : permOk s m pde w <;> simp

/-- What a 4 KB page's leaf answers (R97, R98). -/
theorem smallLeaf_cases {n : Nat} (s : State) (m : WalkMode) (w : Bool) (pde pte : BitVec n)
    (pdeA pteA phys : PAddr) :
    (pte.getLsbD 0 = false ∧ smallLeaf s m w pde pte pdeA pteA phys = .fail false) ∨
    (pte.getLsbD 0 = true ∧ permOk s m (pte &&& pde) w = true ∧
      smallLeaf s m w pde pte pdeA pteA phys =
        .ok phys (permByte (pte &&& pde)) [⟨pdeA, accessedBits⟩, ⟨pteA, leafBits w⟩]) ∨
    (pte.getLsbD 0 = true ∧ permOk s m (pte &&& pde) w = false ∧
      smallLeaf s m w pde pte pdeA pteA phys = .fail true) := by
  unfold smallLeaf
  cases h : pte.getLsbD 0
  · exact .inl ⟨rfl, by simp⟩
  · cases h' : permOk s m (pte &&& pde) w
    · exact .inr (.inr ⟨rfl, rfl, by simp⟩)
    · exact .inr (.inl ⟨rfl, rfl, by simp⟩)

/-- The permission byte and the failure bit of any walk: a success keeps the byte of an entry that
passed the check, a failure with P = 1 is an entry that failed it (R98, R100). -/
def WalkSound (s : State) (w : Bool) : WalkResult → Prop
  | .ok _ perm _ => ∃ (m : WalkMode) (n : Nat) (e : BitVec n), perm = permByte e ∧ permOk s m e w = true
  | .fail true   => ∃ (m : WalkMode) (n : Nat) (e : BitVec n), permOk s m e w = false
  | .fail false  => True

theorem largeLeaf_sound {n : Nat} (s : State) (m : WalkMode) (w : Bool) (pde : BitVec n)
    (pdeA phys : PAddr) : WalkSound s w (largeLeaf s m w pde pdeA phys) := by
  rcases largeLeaf_cases s m w pde pdeA phys with ⟨h, e⟩ | ⟨h, e⟩ <;> rw [e]
  · exact ⟨m, n, pde, rfl, h⟩
  · exact ⟨m, n, pde, h⟩

theorem smallLeaf_sound {n : Nat} (s : State) (m : WalkMode) (w : Bool) (pde pte : BitVec n)
    (pdeA pteA phys : PAddr) : WalkSound s w (smallLeaf s m w pde pte pdeA pteA phys) := by
  rcases smallLeaf_cases s m w pde pte pdeA pteA phys with ⟨-, e⟩ | ⟨-, h, e⟩ | ⟨-, h, e⟩ <;> rw [e]
  · trivial
  · exact ⟨m, n, _, rfl, h⟩
  · exact ⟨m, n, _, h⟩

/-- Every walk is sound in this sense. -/
theorem walk_sound (s : State) (w : Bool) (a : LAddr) : WalkSound s w (walk s w a).result := by
  have h2 : WalkSound s w (walk2 s w a).result := by
    unfold walk2
    dsimp only
    split
    · trivial
    · split
      · exact largeLeaf_sound ..
      · exact smallLeaf_sound ..
  have h3 : WalkSound s w (walk3 s w a).result := by
    unfold walk3
    dsimp only
    split
    · trivial
    · split
      · trivial
      · split
        · exact largeLeaf_sound ..
        · exact smallLeaf_sound ..
  unfold walk
  cases walkMode s
  · exact h2
  · exact h3

/-- The write-backs keep the canonical form of memory. -/
theorem writeBacks_wf (l : List WriteBack) {s : State} (h : Memory.wf s.mem) :
    Memory.wf (writeBacks l s).mem := by
  induction l generalizing s with
  | nil => exact h
  | cons b l ih => exact ih (store4_wf _ _ _ h)

/-- The port accesses of a write-back: the re-read, then the write (R104). -/
theorem writeBack_portLog (b : WriteBack) (s : State) :
    (writeBack b s).portLog = s.portLog ++
      [.read4 (portAddr s b.addr) (memRead4 s 0 (portAddr s b.addr)),
       .write4 (portAddr s b.addr) (memRead4 s 0 (portAddr s b.addr) ||| b.bits)] := by
  simp only [writeBack, memWrite4_portLog, logPort_portLog, List.append_assoc, List.cons_append,
    List.nil_append]

/-- The write-backs' port accesses come after those before them. -/
theorem writeBacks_portLog (l : List WriteBack) (s : State) :
    ∃ log, (writeBacks l s).portLog = s.portLog ++ log ∧
      (writeBacks l s).portCount = s.portCount + log.length := by
  induction l generalizing s with
  | nil => exact ⟨[], by simp [writeBacks]⟩
  | cons b l ih =>
    obtain ⟨log, h1, h2⟩ := ih (writeBack b s)
    rw [writeBack_portLog, List.append_assoc] at h1
    refine ⟨_, h1, ?_⟩
    rw [writeBacks, h2, writeBack_portCount]
    simp only [List.length_append, List.length_cons, List.length_nil]
    omega

/-- TRANSLATE with an abort pending (R91). -/
theorem translate_abort {w : Bool} {a : LAddr} {s : State} (h : s.abrt ≠ 0) :
    translate w a s = .ok (none, s) := by
  unfold translate; exact if_pos h

/-- TRANSLATE with paging off (R92). -/
theorem translate_off {w : Bool} {a : LAddr} {s : State} (h : s.abrt = 0) (hp : pg s = false) :
    translate w a s = .ok (some (a.setWidth 40), { s with lastPerm := permAll }) := by
  unfold translate
  rw [if_neg (not_not.mpr h), if_pos (by simp [hp])]

/-- TRANSLATE that walks (R110). -/
theorem translate_walk {w : Bool} {a : LAddr} {s : State} (h : Walks s) :
    translate w a s =
      if (walk s w a).reads.all (portReaches s) = false then .error .directRamOutsideRam
      else
        match (walk s w a).result with
        | .fail p => .ok (none, raisePageFault a (errorCode s w p) (logPort (walk s w a).reads s))
        | .ok phys perm wb =>
          .ok (some phys, commitWalk perm wb (logPort (walk s w a).reads s)) := by
  unfold translate
  rw [if_neg (not_not.mpr h.1), if_neg (by simp [h.2])]
  dsimp only
  cases (walk s w a).reads.all (portReaches s) <;> cases (walk s w a).result <;> rfl

/-- What TRANSLATE can do (R110): the fast exit, the identity, a page fault, a committed walk. -/
theorem translate_cases {w : Bool} {a : LAddr} {s t : State} {p : Option PAddr}
    (h : translate w a s = .ok (p, t)) :
    (s.abrt ≠ 0 ∧ p = none ∧ t = s) ∨
    (s.abrt = 0 ∧ pg s = false ∧ p = some (a.setWidth 40) ∧ t = { s with lastPerm := permAll }) ∨
    (s.abrt = 0 ∧ pg s = true ∧ (walk s w a).reads.all (portReaches s) = true ∧
      ∃ q, (walk s w a).result = .fail q ∧ p = none ∧
        t = raisePageFault a (errorCode s w q) (logPort (walk s w a).reads s)) ∨
    (s.abrt = 0 ∧ pg s = true ∧ (walk s w a).reads.all (portReaches s) = true ∧
      ∃ phys perm wb, (walk s w a).result = .ok phys perm wb ∧ p = some phys ∧
        t = commitWalk perm wb (logPort (walk s w a).reads s)) := by
  by_cases ha : s.abrt = 0
  · cases hp : pg s
    · rw [translate_off ha hp] at h
      cases h
      exact .inr (.inl ⟨ha, rfl, rfl, rfl⟩)
    · rw [translate_walk ⟨ha, hp⟩] at h
      split at h
      · cases h
      · next hr =>
        have hr : (walk s w a).reads.all (portReaches s) = true := by simpa using hr
        split at h
        · next q hq => cases h; exact .inr (.inr (.inl ⟨ha, rfl, hr, q, hq, rfl, rfl⟩))
        · next phys perm wb hq =>
          cases h; exact .inr (.inr (.inr ⟨ha, rfl, hr, phys, perm, wb, hq, rfl, rfl⟩))
  · rw [translate_abort ha] at h
    cases h
    exact .inl ⟨ha, rfl, rfl⟩

/-- The one refusal of TRANSLATE (R41). -/
theorem translate_error {w : Bool} {a : LAddr} {s : State} {r : Refusal}
    (h : translate w a s = .error r) :
    r = .directRamOutsideRam ∧ s.abrt = 0 ∧ pg s = true ∧
      (walk s w a).reads.all (portReaches s) = false := by
  by_cases ha : s.abrt = 0
  · cases hp : pg s
    · rw [translate_off ha hp] at h; cases h
    · rw [translate_walk ⟨ha, hp⟩] at h
      split at h
      · next hr => cases h; exact ⟨rfl, ha, rfl, hr⟩
      · split at h <;> cases h
  · rw [translate_abort ha] at h; cases h

/-- The frame of TRANSLATE up to its outputs: only the fault registers, `LAST_PERM`, memory and the
model's port log change (R110). -/
theorem translate_frame {w : Bool} {a : LAddr} {s t : State} {p : Option PAddr}
    (h : translate w a s = .ok (p, t)) :
    t = { s with
      abrt := t.abrt, abrtErr := t.abrtErr, cr2 := t.cr2, lastPerm := t.lastPerm, mem := t.mem,
      portLog := t.portLog, portCount := t.portCount } := by
  rcases translate_cases h with ⟨-, -, rfl⟩ | ⟨-, -, -, rfl⟩ | ⟨-, -, -, q, -, -, rfl⟩ |
    ⟨-, -, -, phys, perm, wb, -, -, rfl⟩
  · rfl
  · rfl
  · rfl
  · have : ∀ u : State, u.cfg = s.cfg → u.env = s.env → u.cr0 = s.cr0 → u.cr3 = s.cr3 →
        u.cr4 = s.cr4 → u.cpl = s.cpl → u.ovr = s.ovr → u.rammask = s.rammask → u.rc = s.rc →
        u.wc = s.wc → u.out = s.out → u.inputs = s.inputs → u.closed = s.closed →
        u = { s with
          abrt := u.abrt, abrtErr := u.abrtErr, cr2 := u.cr2, lastPerm := u.lastPerm,
          mem := u.mem, portLog := u.portLog, portCount := u.portCount } := by
      intro u; cases u; cases s; dsimp only; rintro rfl rfl rfl rfl rfl rfl rfl rfl rfl rfl rfl rfl rfl
      rfl
    apply this <;> simp [commitWalk]

/-- TRANSLATE fails exactly by leaving an abort pending (R91, R213). -/
theorem translate_none_iff {w : Bool} {a : LAddr} {s t : State} {p : Option PAddr}
    (h : translate w a s = .ok (p, t)) : p = none ↔ t.abrt ≠ 0 := by
  rcases translate_cases h with ⟨ha, rfl, rfl⟩ | ⟨ha, -, rfl, rfl⟩ | ⟨-, -, -, q, -, rfl, rfl⟩ |
    ⟨ha, -, -, phys, perm, wb, -, rfl, rfl⟩
  · simpa using ha
  · simpa using ha
  · simp [pageFaultCode]
  · simpa [commitWalk] using ha

/-- TRANSLATE keeps the canonical form of memory. -/
theorem translate_wf {w : Bool} {a : LAddr} {s t : State} {p : Option PAddr}
    (h : translate w a s = .ok (p, t)) (hm : Memory.wf s.mem) : Memory.wf t.mem := by
  rcases translate_cases h with ⟨-, -, rfl⟩ | ⟨-, -, -, rfl⟩ | ⟨-, -, -, q, -, -, rfl⟩ |
    ⟨-, -, -, phys, perm, wb, -, -, rfl⟩
  · exact hm
  · exact hm
  · exact hm
  · exact writeBacks_wf wb hm

/-- `LAST_PERM` after TRANSLATE keeps the form of R76. -/
theorem translate_permWf {w : Bool} {a : LAddr} {s t : State} {p : Option PAddr}
    (h : translate w a s = .ok (p, t)) (hp : PermWf s.lastPerm) : PermWf t.lastPerm := by
  rcases translate_cases h with ⟨-, -, rfl⟩ | ⟨-, -, -, rfl⟩ | ⟨-, -, -, q, -, -, rfl⟩ |
    ⟨-, -, -, phys, perm, wb, hw, -, rfl⟩
  · exact hp
  · show PermWf permAll
    decide +kernel
  · exact hp
  · have := walk_sound s w a
    rw [hw] at this
    obtain ⟨m, n, e, rfl, -⟩ := this
    exact permByte_wf e

/-- The error code after TRANSLATE keeps the form of R75. -/
theorem translate_errWf {w : Bool} {a : LAddr} {s t : State} {p : Option PAddr}
    (h : translate w a s = .ok (p, t)) (he : s.abrtErr &&& 0xFFFFFFF8 = 0) :
    t.abrtErr &&& 0xFFFFFFF8 = 0 := by
  rcases translate_cases h with ⟨-, -, rfl⟩ | ⟨-, -, -, rfl⟩ | ⟨-, -, -, q, -, -, rfl⟩ |
    ⟨-, -, -, phys, perm, wb, hw, -, rfl⟩
  · exact he
  · exact he
  · exact errorCode_high s w q
  · simpa [commitWalk] using he

end Sys2Proof.Machine
end

