-- ==== Sys2Proof/Laws/Access.lean ====
section
/-! SUPPORT. The laws of the access front-end (42_frontend_control.md): what one sub-access can do, and
what an ACCESS of one and of two sub-accesses is. -/

namespace Sys2Proof.Machine

/-- What a sub-access can do (R180): a hit, a fault of its walk, or a walk and an insertion. -/
theorem translateCached_cases {w : Bool} {a : LAddr} {s t : State} {p : Option SubResult}
    (h : translateCached w a s = .ok (p, t)) :
    (∃ k, lookup s w (cacheFor w s) (lpageOf a) = some k ∧
      p = some ⟨hitAddr k.ppage a, w && k.route⟩ ∧ t = s) ∨
    (lookup s w (cacheFor w s) (lpageOf a) = none ∧ translate w a s = .ok (none, t) ∧ p = none) ∨
    (lookup s w (cacheFor w s) (lpageOf a) = none ∧ ∃ q u, translate w a s = .ok (some q, u) ∧
      p = some ⟨q &&& u.rammask, w && cacheable u (ppageOf (q &&& u.rammask)) w &&
        codePresent u (ppageOf (q &&& u.rammask))⟩ ∧
      t = fillCache w (lpageOf a) (ppageOf (q &&& u.rammask)) u) := by
  unfold translateCached at h
  split at h
  · next k hk =>
    cases h
    exact .inl ⟨k, hk, rfl, rfl⟩
  · next hk =>
    split at h
    · cases h
    · next u hu => cases h; exact .inr (.inl ⟨hk, hu, rfl⟩)
    · next q u hu => cases h; exact .inr (.inr ⟨hk, q, u, hu, rfl, rfl⟩)

/-- A sub-access is refused only by its walk. -/
theorem translateCached_error {w : Bool} {a : LAddr} {s : State} {r : Refusal}
    (h : translateCached w a s = .error r) : translate w a s = .error r := by
  unfold translateCached at h
  split at h
  · cases h
  · split at h
    · next r' hr => cases h; exact hr
    · cases h
    · cases h

/-- A sub-access fails exactly by leaving an abort pending, when none was pending before. -/
theorem translateCached_none_iff {w : Bool} {a : LAddr} {s t : State} {p : Option SubResult}
    (h : translateCached w a s = .ok (p, t)) (ha : s.abrt = 0) : p = none ↔ t.abrt ≠ 0 := by
  rcases translateCached_cases h with ⟨k, -, rfl, rfl⟩ | ⟨-, ht, rfl⟩ | ⟨-, q, u, ht, rfl, rfl⟩
  · simpa using ha
  · exact ⟨fun _ => (translate_none_iff ht).mp rfl, fun _ => rfl⟩
  · rw [fillCache_abrt, ← translate_none_iff ht]; simp

/-- The parts of an access that fits its page. -/
theorem splitAccess_one {a : LAddr} {n : Nat} (h : a.toNat % 4096 + n ≤ 4096) :
    splitAccess a n = [⟨a, n⟩] := by
  have : (a.extractLsb 11 0).toNat = a.toNat % 4096 := by
    simp [BitVec.extractLsb_toNat]
  unfold splitAccess
  rw [this, if_pos h]

/-- The parts of an access that straddles a page boundary. -/
theorem splitAccess_two {a : LAddr} {n n0 : Nat} (h0 : a.toNat % 4096 + n0 = 4096) (h : n0 < n) :
    splitAccess a n = [⟨a, n0⟩, ⟨a + BitVec.ofNat 32 n0, n - n0⟩] := by
  have : (a.extractLsb 11 0).toNat = a.toNat % 4096 := by
    simp [BitVec.extractLsb_toNat]
  unfold splitAccess
  rw [this, if_neg (by omega), show 0x1000 - a.toNat % 4096 = n0 by omega]

/-- One sub-access of an access. -/
theorem translateSubs_one (w : Bool) (x : SubAccess) (s : State) :
    translateSubs w [x] s =
      match translateCached w x.addr s with
      | .error r => .error r
      | .ok (none, s') => .ok (none, s')
      | .ok (some p, s') => .ok (some [p], s') := by
  unfold translateSubs
  rcases translateCached w x.addr s with r | ⟨_ | p, s'⟩ <;> rfl

/-- Two sub-accesses of an access, in address order (R215). -/
theorem translateSubs_two (w : Bool) (x y : SubAccess) (s : State) :
    translateSubs w [x, y] s =
      match translateCached w x.addr s with
      | .error r => .error r
      | .ok (none, s') => .ok (none, s')
      | .ok (some p, s') =>
        match translateCached w y.addr s' with
        | .error r => .error r
        | .ok (none, s'') => .ok (none, s'')
        | .ok (some q, s'') => .ok (some [p, q], s'') := by
  rw [translateSubs]
  rcases translateCached w x.addr s with r | ⟨_ | p, s'⟩
  · rfl
  · rfl
  · dsimp only
    rw [translateSubs_one]
    rcases translateCached w y.addr s' with r | ⟨_ | q, s''⟩ <;> rfl

/-- A property that every sub-access keeps is kept by all the parts of an access. -/
theorem translateSubs_keeps {w : Bool} {P : State → Prop}
    (hP : ∀ a s t p, translateCached w a s = .ok (p, t) → P s → P t) {l : List SubAccess} {s t : State}
    {ps : Option (List SubResult)} (h : translateSubs w l s = .ok (ps, t)) (hs : P s) : P t := by
  induction l generalizing s ps with
  | nil => cases h; exact hs
  | cons x l ih =>
    rw [translateSubs] at h
    cases hx : translateCached w x.addr s with
    | error r => rw [hx] at h; cases h
    | ok pu =>
      obtain ⟨_ | p, u⟩ := pu <;> rw [hx] at h
      · cases h; exact hP _ _ _ _ hx hs
      · dsimp only at h
        cases hl : translateSubs w l u with
        | error r => rw [hl] at h; cases h
        | ok qv =>
          obtain ⟨_ | qs, v⟩ := qv <;> rw [hl] at h <;> cases h <;>
            exact ih hl (hP _ _ _ _ hx hs)

/-- A property that every sub-access and the outputs keep is kept by ACCESS. -/
theorem execAccess_keeps {w : Bool} {P : State → Prop}
    (hP : ∀ a s t p, translateCached w a s = .ok (p, t) → P s → P t)
    (hd : ∀ o s, P s → P (drive o s)) {sz : AccessSize} {a : LAddr} {s t : State}
    (h : execAccess w sz a s = .next t) (hs : P s) : P t := by
  unfold execAccess at h
  split at h
  · cases h; exact hd _ _ hs
  · dsimp only at h
    split at h
    · cases h
    · next hk => cases h; exact hd _ _ (translateSubs_keeps hP hk hs)
    · next hk => cases h; exact hd _ _ (translateSubs_keeps hP hk hs)

/-- ACCESS with an abort pending (R184). -/
theorem execAccess_abort {w : Bool} {sz : AccessSize} {a : LAddr} {s : State} (h : s.abrt ≠ 0) :
    execAccess w sz a s = .next (drive faultOutputs s) := by
  unfold execAccess; exact if_pos h

/-- ACCESS within one page, with no abort pending: its one sub-access. -/
theorem execAccess_one {w : Bool} {sz : AccessSize} {a : LAddr} {s : State} (h : s.abrt = 0)
    (hp : a.toNat % 4096 + sizeBytes sz ≤ 4096) :
    execAccess w sz a s =
      match translateCached w a s with
      | .error r => .refused r
      | .ok (none, s') => .next (drive faultOutputs s')
      | .ok (some p, s') =>
        .next (drive ⟨p.phys.setWidth 64, stOk ||| stWhen p.route stRoute, 0,
          BitVec.ofNat 4 (sizeBytes sz)⟩ s') := by
  unfold execAccess
  rw [if_neg (by simpa using h)]
  dsimp only
  rw [splitAccess_one hp, translateSubs_one]
  rcases translateCached w a s with r | ⟨_ | p, s'⟩
  · rfl
  · rfl
  · simp [accessOutputs, stWhen]

end Sys2Proof.Machine
end

