-- ==== Sys2Proof/Laws/Align.lean ====
section
/-! SUPPORT. The alignment of the walker's port accesses (20_memory.md R45) and, from it, what a walk
leaves alone in memory (40_walker.md R104). -/

namespace Sys2Proof.Machine

/-- The low `k` bits of an address are 0. -/
def LowZero {n : Nat} (k : Nat) (a : BitVec n) : Prop := ∀ i < k, a.getLsbD i = false

theorem LowZero.mod {n k : Nat} {a : BitVec n} (h : LowZero k a) : a.toNat % 2 ^ k = 0 := by
  apply Nat.eq_of_testBit_eq
  intro i
  rw [Nat.testBit_mod_two_pow, Nat.zero_testBit]
  by_cases hi : i < k
  · have : a.toNat.testBit i = false := h i hi
    simp [this]
  · simp [hi]

theorem LowZero.mono {n j k : Nat} {a : BitVec n} (h : LowZero k a) (hj : j ≤ k) : LowZero j a :=
  fun i hi => h i (by omega)

theorem LowZero.append {m k : Nat} (x : BitVec m) : LowZero k (x ++ 0#k) := by
  intro i hi
  rw [BitVec.getLsbD_append]; simp [hi]

theorem LowZero.setWidth {n m k : Nat} {a : BitVec n} (h : LowZero k a) :
    LowZero k (a.setWidth m) := by
  intro i hi
  rw [BitVec.getLsbD_setWidth, h i hi, Bool.and_false]

/-- The address mask keeps an address aligned (R48). -/
theorem LowZero.portAddr {k : Nat} {a : PAddr} (h : LowZero k a) (s : State) :
    LowZero k (portAddr s a) := by
  unfold Machine.portAddr; split
  · intro i hi
    rw [BitVec.getLsbD_and, h i hi, Bool.false_and]
  · exact h

/-- The four bytes at a word-aligned address do not pass the top of the space. -/
theorem LowZero.fits4 {a : PAddr} (h : LowZero 2 a) : a.toNat + 4 ≤ 2 ^ 40 := by
  have := h.mod
  have := a.isLt
  omega

/-- The eight bytes at an aligned address do not pass the top of the space. -/
theorem LowZero.fits8 {a : PAddr} (h : LowZero 3 a) : a.toNat + 8 ≤ 2 ^ 40 := by
  have := h.mod
  have := a.isLt
  omega

theorem aligned_read4 {a : PAddr} (h : LowZero 2 a) (v : Dword) : Aligned (.read4 a v) := by
  have := h.mod
  simp only [Aligned, accessAddr, accessBytes]; omega

theorem aligned_write4 {a : PAddr} (h : LowZero 2 a) (v : Dword) : Aligned (.write4 a v) := by
  have := h.mod
  simp only [Aligned, accessAddr, accessBytes]; omega

theorem aligned_read8 {a : PAddr} (h : LowZero 3 a) (v : Qword) : Aligned (.read8 a v) := by
  have := h.mod
  simp only [Aligned, accessAddr, accessBytes]; omega

theorem pdeAddr2_low (cr3 : Dword) (a : LAddr) : LowZero 2 (pdeAddr2 cr3 a) := .append _

theorem pteAddr2_low (pde : Dword) (a : LAddr) : LowZero 2 (pteAddr2 pde a) := .append _

theorem pdpteAddr3_low (cr3 : Dword) (a : LAddr) : LowZero 3 (pdpteAddr3 cr3 a) := .append _

theorem pdeAddr3_low (e : BitVec 40) (a : LAddr) : LowZero 3 (pdeAddr3 e a) := .append _

theorem pteAddr3_low (e : BitVec 40) (a : LAddr) : LowZero 3 (pteAddr3 e a) := .append _

/-- The write-backs of an answer go to aligned addresses. -/
def AlignedBacks : WalkResult → Prop
  | .fail _    => True
  | .ok _ _ wb => ∀ b ∈ wb, LowZero 2 b.addr

theorem largeLeaf_aligned {n : Nat} (s : State) (m : WalkMode) (w : Bool) (pde : BitVec n)
    {pdeA : PAddr} (phys : PAddr) (h : LowZero 2 pdeA) :
    AlignedBacks (largeLeaf s m w pde pdeA phys) := by
  rcases largeLeaf_cases s m w pde pdeA phys with ⟨-, e⟩ | ⟨-, e⟩ <;> rw [e]
  · simpa [AlignedBacks] using h
  · trivial

theorem smallLeaf_aligned {n : Nat} (s : State) (m : WalkMode) (w : Bool) (pde pte : BitVec n)
    {pdeA pteA : PAddr} (phys : PAddr) (h : LowZero 2 pdeA) (h' : LowZero 2 pteA) :
    AlignedBacks (smallLeaf s m w pde pte pdeA pteA phys) := by
  rcases smallLeaf_cases s m w pde pte pdeA pteA phys with ⟨-, e⟩ | ⟨-, -, e⟩ | ⟨-, -, e⟩ <;> rw [e]
  · trivial
  · simpa [AlignedBacks] using ⟨h, h'⟩
  · trivial

/-- Every read of a walk is aligned, and so is every write-back it asks for (R45). -/
theorem walk_aligned (s : State) (w : Bool) (a : LAddr) :
    (∀ acc ∈ (walk s w a).reads, Aligned acc) ∧ AlignedBacks (walk s w a).result := by
  unfold walk
  cases walkMode s
  · dsimp only; unfold walk2; dsimp only
    have h1 := (pdeAddr2_low s.cr3 a).setWidth (m := 40)
    split
    · exact ⟨by simpa using aligned_read4 (h1.portAddr s) _, trivial⟩
    · split
      · exact ⟨by simpa using aligned_read4 (h1.portAddr s) _, largeLeaf_aligned _ _ _ _ _ h1⟩
      · refine ⟨?_, smallLeaf_aligned _ _ _ _ _ _ h1 (pteAddr2_low _ _).setWidth⟩
        simpa using ⟨aligned_read4 (h1.portAddr s) _,
          aligned_read4 ((pteAddr2_low _ _).setWidth.portAddr s) _⟩
  · dsimp only; unfold walk3; dsimp only
    have h1 := (pdpteAddr3_low s.cr3 a).setWidth (m := 40)
    split
    · exact ⟨by simpa using aligned_read8 (h1.portAddr s) _, trivial⟩
    · split
      · refine ⟨?_, trivial⟩
        simpa using ⟨aligned_read8 (h1.portAddr s) _,
          aligned_read8 ((pdeAddr3_low _ _).portAddr s) _⟩
      · split
        · refine ⟨?_, largeLeaf_aligned _ _ _ _ _ ((pdeAddr3_low _ _).mono (by omega))⟩
          simpa using ⟨aligned_read8 (h1.portAddr s) _,
            aligned_read8 ((pdeAddr3_low _ _).portAddr s) _⟩
        · refine ⟨?_, smallLeaf_aligned _ _ _ _ _ _ ((pdeAddr3_low _ _).mono (by omega))
            ((pteAddr3_low _ _).mono (by omega))⟩
          simpa using ⟨aligned_read8 (h1.portAddr s) _,
            aligned_read8 ((pdeAddr3_low _ _).portAddr s) _,
            aligned_read8 ((pteAddr3_low _ _).portAddr s) _⟩

/-- A write-back leaves every byte outside its entry's first four (R104). -/
theorem writeBack_outside (b : WriteBack) (s : State) {x : Nat} (hl : LowZero 2 b.addr)
    (h : Outside x (portAddr s b.addr) 4) :
    Memory.read (writeBack b s).mem x = Memory.read s.mem x :=
  store4_outside _ _ _ _ (hl.portAddr s).fits4 h

/-- The write-backs leave every byte outside their entries (R104). -/
theorem writeBacks_outside (l : List WriteBack) (s : State) {x : Nat}
    (hl : ∀ b ∈ l, LowZero 2 b.addr) (h : ∀ b ∈ l, Outside x (portAddr s b.addr) 4) :
    Memory.read (writeBacks l s).mem x = Memory.read s.mem x := by
  induction l generalizing s with
  | nil => rfl
  | cons b l ih =>
    refine (ih (writeBack b s) (fun c hc => hl c (by simp [hc])) (fun c hc => ?_)).trans
      (writeBack_outside b s (hl b (by simp)) (h b (by simp)))
    exact h c (by simp [hc])

/-- TRANSLATE leaves every byte outside the entries it writes back to (R104). -/
theorem translate_outside {w : Bool} {a : LAddr} {s t : State} {p : Option PAddr}
    (hx : translate w a s = .ok (p, t)) {x : Nat} (h : ∀ e ∈ walkStores s w a, Outside x e 4) :
    Memory.read t.mem x = Memory.read s.mem x := by
  rcases translate_cases hx with ⟨-, -, rfl⟩ | ⟨-, -, -, rfl⟩ | ⟨-, -, -, q, -, -, rfl⟩ |
    ⟨h1, h2, -, phys, perm, wb, hq, -, rfl⟩
  · rfl
  · rfl
  · rfl
  · have hs : walkStores s w a = wb.map fun x => portAddr s x.addr := by
      unfold walkStores; rw [if_neg (by simp [h1, h2]), hq]
    have ha := (walk_aligned s w a).2
    rw [hq] at ha
    rw [hs] at h
    refine (writeBacks_outside wb (logPort (walk s w a).reads s) ha fun b hb => ?_).trans rfl
    exact h _ (List.mem_map.mpr ⟨b, hb, rfl⟩)

end Sys2Proof.Machine
end

