-- ==== Sys2Proof/Laws/Commute.lean ====
section
/-! SUPPORT. Changes of state that the walker does not see: a walk, TRANSLATE and ACCESS commute with
them. Two settings of a parameter, two supervisor levels, other outputs, or other contents of a cache
that is not used are compared this way. -/

namespace Sys2Proof.Machine

/-- A walk is the same in two states that agree on what it reads. -/
theorem walk_congr {s s' : State} {w : Bool} {a : LAddr} (h3 : s'.cr3 = s.cr3) (h4 : s'.cr4 = s.cr4)
    (hperm : ∀ (m : WalkMode) (n : Nat) (e : BitVec n), permOk s' m e w = permOk s m e w)
    (hread : ∀ k x, memRead4 s' k x = memRead4 s k x)
    (hpse : s'.cfg.paeLargeNeedsPse = s.cfg.paeLargeNeedsPse)
    (haddr : ∀ x, portAddr s' x = portAddr s x) : walk s' w a = walk s w a := by
  have h1 : pse s' = pse s := by simp [pse, h4]
  have h2 : pae s' = pae s := by simp [pae, h4]
  have h8 : ∀ k x, memRead8 s' k x = memRead8 s k x := by intro k x; simp [memRead8, hread]
  have hl : ∀ (n : Nat) (m : WalkMode) (pde : BitVec n) (x p : PAddr),
      largeLeaf s' m w pde x p = largeLeaf s m w pde x p := by intros; simp [largeLeaf, hperm]
  have hs : ∀ (n : Nat) (m : WalkMode) (pde pte : BitVec n) (x y p : PAddr),
      smallLeaf s' m w pde pte x y p = smallLeaf s m w pde pte x y p := by
    intros; simp [smallLeaf, hperm]
  unfold walk walkMode walk2 walk3 isLargePae
  simp only [h1, h2, h8, hread, h3, haddr, hl, hs, hpse]

/-- A change `f` of state that the walker does not see. -/
structure Commutes (f : State → State) : Prop where
  cr0 : ∀ s, (f s).cr0 = s.cr0
  cr3 : ∀ s, (f s).cr3 = s.cr3
  cr4 : ∀ s, (f s).cr4 = s.cr4
  abrt : ∀ s, (f s).abrt = s.abrt
  rammask : ∀ s, (f s).rammask = s.rammask
  env : ∀ s, (f s).env = s.env
  needsPse : ∀ s, (f s).cfg.paeLargeNeedsPse = s.cfg.paeLargeNeedsPse
  perm : ∀ s m (n : Nat) (e : BitVec n) w, permOk (f s) m e w = permOk s m e w
  error : ∀ s w p, errorCode (f s) w p = errorCode s w p
  read : ∀ s k x, memRead4 (f s) k x = memRead4 s k x
  addr : ∀ s x, portAddr (f s) x = portAddr s x
  setPerm : ∀ s p, { f s with lastPerm := p } = f { s with lastPerm := p }
  raise : ∀ s a e, raisePageFault a e (f s) = f (raisePageFault a e s)
  log : ∀ s l, logPort l (f s) = f (logPort l s)
  write : ∀ s a v, memWrite4 a v (f s) = f (memWrite4 a v s)
  outputs : ∀ s o, drive o (f s) = f (drive o s)

/-- A change of state that the walker and the cache of one kind of access do not see. -/
structure CommutesAccess (f : State → State) (w : Bool) : Prop extends Commutes f where
  cache : ∀ s, cacheFor w (f s) = cacheFor w s
  insert : ∀ s lp pp, (if w then insertWriteSlot lp pp (f s) else insertReadSlot lp pp (f s)) =
    f (if w then insertWriteSlot lp pp s else insertReadSlot lp pp s)

/-- Under `f` the port reaches what it reached before (R41). -/
def KeepsReach (f : State → State) : Prop :=
  ∀ s acc, portReaches s acc = true → portReaches (f s) acc = true

theorem KeepsReach.all {f : State → State} (h : KeepsReach f) {s : State} {l : List PortAccess}
    (hl : l.all (portReaches s) = true) : l.all (portReaches (f s)) = true := by
  rw [List.all_eq_true] at hl ⊢
  exact fun x hx => h s x (hl x hx)

section
variable {f : State → State} {w : Bool} {a : LAddr} {s t : State}

theorem Commutes.walk (h : Commutes f) (s : State) (w : Bool) (a : LAddr) :
    walk (f s) w a = walk s w a :=
  walk_congr (h.cr3 s) (h.cr4 s) (fun m n e => h.perm s m n e w) (h.read s) (h.needsPse s) (h.addr s)

theorem Commutes.paging (h : Commutes f) (s : State) : pg (f s) = pg s := by
  unfold pg; rw [h.cr0]

theorem Commutes.backs (h : Commutes f) (l : List WriteBack) (s : State) :
    writeBacks l (f s) = f (writeBacks l s) := by
  induction l generalizing s with
  | nil => rfl
  | cons b l ih =>
    show writeBacks l (writeBack b (f s)) = f (writeBacks l (writeBack b s))
    rw [← ih]; congr 1
    unfold writeBack; dsimp only
    rw [h.addr, h.read, h.log, h.write]

/-- TRANSLATE up to its outputs commutes with `f`. -/
theorem Commutes.translate (h : Commutes f) (hr : KeepsReach f) {p : Option PAddr}
    (hx : translate w a s = .ok (p, t)) : translate w a (f s) = .ok (p, f t) := by
  rcases translate_cases hx with ⟨h0, rfl, rfl⟩ | ⟨h1, h2, rfl, rfl⟩ | ⟨h1, h2, ha, q, hq, rfl, rfl⟩ |
    ⟨h1, h2, ha, phys, perm, wb, hq, rfl, rfl⟩
  · rw [translate_abort (by rw [h.abrt]; exact h0)]
  · rw [translate_off (by rw [h.abrt]; exact h1) (by rw [h.paging]; exact h2), h.setPerm]
  · rw [translate_walk ⟨by rw [h.abrt]; exact h1, by rw [h.paging]; exact h2⟩, h.walk,
      if_neg (by rw [hr.all ha]; decide), hq]
    dsimp only
    rw [h.log, h.raise, h.error]
  · rw [translate_walk ⟨by rw [h.abrt]; exact h1, by rw [h.paging]; exact h2⟩, h.walk,
      if_neg (by rw [hr.all ha]; decide), hq]
    dsimp only [commitWalk]
    rw [h.log, h.backs, h.setPerm]

theorem Commutes.lookup (h : Commutes f) (c : Cache) (lp : LPage) :
    lookup (f s) w c lp = lookup s w c lp := by
  have hm : walkMode (f s) = walkMode s := by unfold walkMode pae; rw [h.cr4]
  unfold Machine.lookup; congr 1; funext x
  unfold hits; rw [hm, h.perm]

/-- A sub-access commutes with `f`. -/
theorem CommutesAccess.cached (h : CommutesAccess f w) (hr : KeepsReach f) {p : Option SubResult}
    (hx : translateCached w a s = .ok (p, t)) : translateCached w a (f s) = .ok (p, f t) := by
  unfold translateCached
  rw [h.cache, h.lookup]
  rcases translateCached_cases hx with ⟨k, hk, rfl, rfl⟩ | ⟨hk, ht, rfl⟩ | ⟨hk, q, u, ht, rfl, rfl⟩
  · rw [hk]
  · rw [hk, h.translate hr ht]
  · rw [hk, h.translate hr ht]
    dsimp only
    have e1 : ∀ x, cacheable (f u) x w = cacheable u x w := by intro x; unfold cacheable; rw [h.env]
    have e2 : ∀ x, codePresent (f u) x = codePresent u x := by intro x; unfold codePresent; rw [h.env]
    have e3 : ∀ x y, fillCache w x y (f u) = f (fillCache w x y u) := by
      intro x y; unfold fillCache; rw [e1, h.insert]; split <;> rfl
    rw [h.rammask, e1, e2, e3]

/-- The parts of an access commute with `f`. -/
theorem CommutesAccess.subs (h : CommutesAccess f w) (hr : KeepsReach f) {l : List SubAccess}
    {ps : Option (List SubResult)} (hx : translateSubs w l s = .ok (ps, t)) :
    translateSubs w l (f s) = .ok (ps, f t) := by
  induction l generalizing s t ps with
  | nil => cases hx; rfl
  | cons x l ih =>
    rw [translateSubs] at hx ⊢
    cases hc : translateCached w x.addr s with
    | error r => rw [hc] at hx; cases hx
    | ok pu =>
      obtain ⟨p, u⟩ := pu
      rw [h.cached hr hc]; rw [hc] at hx
      cases p with
      | none => cases hx; rfl
      | some p =>
        dsimp only at hx ⊢
        cases hl : translateSubs w l u with
        | error r => rw [hl] at hx; cases hx
        | ok qv =>
          obtain ⟨q, v⟩ := qv
          rw [ih hl]; rw [hl] at hx
          cases q <;> (cases hx; rfl)

/-- ACCESS commutes with `f`. -/
theorem CommutesAccess.access (h : CommutesAccess f w) (hr : KeepsReach f) {sz : AccessSize}
    (hx : execAccess w sz a s = .next t) : execAccess w sz a (f s) = .next (f t) := by
  unfold execAccess at hx ⊢
  rw [h.abrt]
  split at hx
  · next hh => cases hx; rw [if_pos hh, h.outputs]
  · next hh =>
    rw [if_neg hh]; dsimp only at hx ⊢
    split at hx
    · cases hx
    · next hc => cases hx; rw [h.subs hr hc]; dsimp only; rw [h.outputs]
    · next hc => cases hx; rw [h.subs hr hc]; dsimp only; rw [h.outputs]

/-- TRANSLATE commutes with `f`. -/
theorem Commutes.execTranslate (h : Commutes f) (hr : KeepsReach f)
    (hx : execTranslate w a s = .next t) : execTranslate w a (f s) = .next (f t) := by
  unfold Machine.execTranslate at hx ⊢
  split at hx
  · cases hx
  · next p u hu => cases hx; rw [h.translate hr hu]; dsimp only; rw [h.outputs]

/-- TRANSLATE_NOABRT commutes with `f`. -/
theorem Commutes.execTranslateNoabrt (h : Commutes f) (hr : KeepsReach f)
    (hx : execTranslateNoabrt w a s = .next t) : execTranslateNoabrt w a (f s) = .next (f t) := by
  unfold Machine.execTranslateNoabrt at hx ⊢
  rw [h.abrt, h.paging, h.walk]
  split at hx
  · next hh => cases hx; rw [if_pos hh, h.outputs]
  · next hh =>
    rw [if_neg hh]
    split at hx
    · next hp => cases hx; rw [if_pos hp, h.outputs]
    · next hp =>
      rw [if_neg hp]; dsimp only at hx ⊢
      split at hx
      · cases hx
      · next ha =>
        cases hx
        rw [if_neg (by rw [hr.all (by simpa using ha)]; decide), h.log, h.outputs]

end

/-- The contents of the read cache are not seen by the walker, nor by a write (R110, R180). -/
theorem commutes_readCache (c : Cache) : CommutesAccess (fun s => { s with rc := c }) true := by
  constructor <;> first | exact (fun _ => rfl) | (constructor <;> intros <;> rfl) | (intros; rfl)

/-- The contents of the write cache are not seen by the walker, nor by a read or fetch (R110, R180). -/
theorem commutes_writeCache (c : Cache) : CommutesAccess (fun s => { s with wc := c }) false := by
  constructor <;> first | exact (fun _ => rfl) | (constructor <;> intros <;> rfl) | (intros; rfl)

end Sys2Proof.Machine
end

