-- ==== Sys2Proof/Laws/Found.lean ====
section
/-! SUPPORT. What a walk is, given the entries it finds (the structures of Safety.lean), and what
TRANSLATE then gives; what a 4-byte store to RAM leaves at its own address. -/

namespace Sys2Proof.Machine

/-! ## Stores to RAM -/

/-- The bytes of a 4-byte store to RAM (R42). -/
theorem store4_ram {p : Platform} {m : Memory} {a : PAddr} (v : Dword) (hm : Memory.wf m)
    (ht : a.toNat + 4 ≤ 2 ^ 40) (hr : ∀ i < 4, kindAt p (a + BitVec.ofNat 40 i) = some .ram) :
    Memory.read (store4 p m a v) a.toNat = v.extractLsb 7 0 ∧
    Memory.read (store4 p m a v) (a.toNat + 1) = v.extractLsb 15 8 ∧
    Memory.read (store4 p m a v) (a.toNat + 2) = v.extractLsb 23 16 ∧
    Memory.read (store4 p m a v) (a.toNat + 3) = v.extractLsb 31 24 := by
  have h1 : (a + 1).toNat = a.toNat + 1 := offset_toNat (i := 1) (by omega)
  have h2 : (a + 2).toNat = a.toNat + 2 := offset_toNat (i := 2) (by omega)
  have h3 : (a + 3).toNat = a.toNat + 3 := offset_toNat (i := 3) (by omega)
  have k0 : kindAt p a = some .ram := by
    have := hr 0 (by omega)
    rwa [show BitVec.ofNat 40 0 = 0#40 from rfl, BitVec.add_zero] at this
  have w1 := storeByte_wf p a (v.extractLsb 7 0) hm
  have w2 := storeByte_wf p (a + 1) (v.extractLsb 15 8) w1
  have w3 := storeByte_wf p (a + 2) (v.extractLsb 23 16) w2
  unfold store4
  refine ⟨?_, ?_, ?_, ?_⟩
  · rw [storeByte_other _ _ _ _ (by omega), storeByte_other _ _ _ _ (by omega),
      storeByte_other _ _ _ _ (by omega)]
    exact storeByte_ram _ hm k0
  · rw [storeByte_other _ _ _ _ (by omega), storeByte_other _ _ _ _ (by omega), ← h1]
    exact storeByte_ram _ w1 (hr 1 (by omega))
  · rw [storeByte_other _ _ _ _ (by omega), ← h2]
    exact storeByte_ram _ w2 (hr 2 (by omega))
  · rw [← h3]
    exact storeByte_ram _ w3 (hr 3 (by omega))

/-- A 4-byte store to RAM is read back. -/
theorem mem32_store4 {p : Platform} {m : Memory} {a : PAddr} (v : Dword) (hm : Memory.wf m)
    (ht : a.toNat + 4 ≤ 2 ^ 40) (hr : ∀ i < 4, kindAt p (a + BitVec.ofNat 40 i) = some .ram) :
    mem32 (store4 p m a v) a = v := by
  obtain ⟨h0, h1, h2, h3⟩ := store4_ram v hm ht hr
  unfold mem32
  rw [h0, h1, h2, h3]
  apply BitVec.eq_of_getLsbD_eq
  intro i hi
  simp only [BitVec.getLsbD_append, BitVec.getLsbD_extractLsb]
  by_cases a1 : i < 8
  · simp [a1]
  · by_cases a2 : i < 16
    · simp [a1, show i - 8 < 8 by omega, show 8 + (i - 8) = i by omega]
    · by_cases a3 : i < 24
      · simp [a1, show ¬ i - 8 < 8 by omega, show i - 8 - 8 < 8 by omega,
          show 16 + (i - 8 - 8) = i by omega]
      · simp [a1, show ¬ i - 8 < 8 by omega, show ¬ i - 8 - 8 < 8 by omega,
          show 24 + (i - 8 - 8 - 8) = i by omega]
        omega

/-- A word of memory depends on its four bytes. -/
theorem mem32_congr {m m' : Memory} {a : PAddr}
    (h : ∀ x, a.toNat ≤ x → x < a.toNat + 4 → Memory.read m' x = Memory.read m x) :
    mem32 m' a = mem32 m a := by
  unfold mem32
  rw [h _ (by omega) (by omega), h _ (by omega) (by omega), h _ (by omega) (by omega),
    h _ (by omega) (by omega)]

/-! ## Reading the entries -/

theorem mem32_of_read {s : State} {a : PAddr} {v : Dword} {k : Nat} (h : RamAt s a 4)
    (hl : LowZero 2 a) (hv : memRead4 s k a = v) : mem32 s.mem a = v := by
  rw [← memRead4_ram h hl.fits4 k, hv]

/-- The low word of an entry read as 64 bits from RAM. -/
theorem mem32_of_read8 {s : State} {a : PAddr} {q : Qword} {k : Nat} (h : RamAt s a 4)
    (hl : LowZero 3 a) (hv : memRead8 s k a = q) : mem32 s.mem a = q.setWidth 32 := by
  rw [← memRead4_ram h (hl.mono (by omega) : LowZero 2 a).fits4 k, ← hv]
  apply BitVec.eq_of_getLsbD_eq
  intro i hi
  rw [BitVec.getLsbD_setWidth, memRead8, BitVec.getLsbD_append]
  simp [hi]

theorem maskEntry_bit (q : Qword) {i : Nat} (hi : i < 40) :
    (maskEntry q).getLsbD i = q.getLsbD i := by
  simp only [maskEntry, BitVec.getLsbD_extractLsb]
  simp; omega

section
variable {s : State} {a : LAddr} {dirA pdeA pteA : PAddr} {pde pte : Dword} {q0 q1 q2 : Qword}

theorem Reads2.low (h : Reads2 s a pdeA pde) : LowZero 2 pdeA := by
  rw [h.addr]; exact (pdeAddr2_low _ _).setWidth.portAddr s

theorem Reads2.walk (h : Reads2 s a pdeA pde) (w : Bool) : walk s w a = walk2 s w a := by
  unfold Machine.walk walkMode; rw [h.mode]; rfl

theorem Table2.low (h : Table2 s a pdeA pde pteA pte) : LowZero 2 pteA := by
  rw [h.addrT]; exact (pteAddr2_low _ _).setWidth.portAddr s

theorem Reads3.low (h : Reads3 s a dirA q0) : LowZero 3 dirA := by
  rw [h.addr]; exact (pdpteAddr3_low _ _).setWidth.portAddr s

theorem Reads3.walk (h : Reads3 s a dirA q0) (w : Bool) : walk s w a = walk3 s w a := by
  unfold Machine.walk walkMode; rw [h.mode]; rfl

theorem Directory3.low (h : Directory3 s a dirA q0 pdeA q1) : LowZero 3 pdeA := by
  rw [h.addrD]; exact (pdeAddr3_low _ _).portAddr s

theorem Table3.low (h : Table3 s a dirA q0 pdeA q1 pteA q2) : LowZero 3 pteA := by
  rw [h.addrT]; exact (pteAddr3_low _ _).portAddr s

/-! ## The walk, by what it finds -/

/-- The directory entry is not present (R98). -/
theorem Reads2.absent (h : Reads2 s a pdeA pde) (w : Bool) (hp : pde.getLsbD 0 = false) :
    Machine.walk s w a = ⟨[.read4 pdeA pde], .fail false⟩ := by
  rw [h.walk]; unfold walk2; dsimp only
  rw [← h.addr, h.read, if_pos (by rw [hp]; rfl)]

/-- A 4 MB page (R96). -/
theorem Large2.walk (h : Large2 s a pdeA pde) (w : Bool) :
    Machine.walk s w a = ⟨[.read4 pdeA pde],
      largeLeaf s .twoLevel w pde ((pdeAddr2 s.cr3 a).setWidth 40) ((phys4M pde a).setWidth 40)⟩ := by
  rw [h.toReads2.walk]; unfold walk2; dsimp only
  rw [← h.addr, h.toReads2.read, if_neg (by rw [h.present]; decide), if_pos (by simp [h.large])]

/-- A table entry (R94). -/
theorem Table2.walk (h : Table2 s a pdeA pde pteA pte) (w : Bool) :
    Machine.walk s w a = ⟨[.read4 pdeA pde, .read4 pteA pte],
      smallLeaf s .twoLevel w pde pte ((pdeAddr2 s.cr3 a).setWidth 40)
        ((pteAddr2 pde a).setWidth 40) ((phys4K pte a).setWidth 40)⟩ := by
  rw [h.toReads2.walk]; unfold walk2; dsimp only
  rw [← h.addr, h.toReads2.read, ← h.addrT, h.readT, if_neg (by rw [h.present]; decide),
    if_neg (by simpa using h.small)]

/-- The PDPTE is not present (R98). -/
theorem Reads3.absent (h : Reads3 s a dirA q0) (w : Bool) (hp : q0.getLsbD 0 = false) :
    Machine.walk s w a = ⟨[.read8 dirA q0], .fail false⟩ := by
  rw [h.walk]; unfold walk3; dsimp only
  rw [← h.addr, h.read, maskEntry_bit _ (by omega), if_pos (by rw [hp]; rfl)]

/-- The PAE directory entry is not present (R98). -/
theorem Directory3.absent (h : Directory3 s a dirA q0 pdeA q1) (w : Bool)
    (hp : q1.getLsbD 0 = false) :
    Machine.walk s w a = ⟨[.read8 dirA q0, .read8 pdeA q1], .fail false⟩ := by
  rw [h.toReads3.walk]; unfold walk3; dsimp only
  rw [← h.addr, h.toReads3.read, maskEntry_bit _ (by omega), if_neg (by rw [h.presentP]; decide),
    ← h.addrD, h.readD, maskEntry_bit _ (by omega), if_pos (by rw [hp]; rfl)]

theorem isLargePae_iff : isLargePae s (maskEntry q1) = true ↔ Maps2M s q1 := by
  unfold isLargePae Maps2M
  rw [maskEntry_bit _ (by omega)]
  cases s.cfg.paeLargeNeedsPse <;> cases pse s <;> cases q1.getLsbD 7 <;> simp

/-- A 2 MB page (R96). -/
theorem Directory3.large (h : Directory3 s a dirA q0 pdeA q1) (w : Bool) (hp : q1.getLsbD 0 = true)
    (hl : Maps2M s q1) :
    Machine.walk s w a = ⟨[.read8 dirA q0, .read8 pdeA q1],
      largeLeaf s .pae w (maskEntry q1) (pdeAddr3 (maskEntry q0) a) (phys2M (maskEntry q1) a)⟩ := by
  rw [h.toReads3.walk]; unfold walk3; dsimp only
  rw [← h.addr, h.toReads3.read, maskEntry_bit _ (by omega), if_neg (by rw [h.presentP]; decide),
    ← h.addrD, h.readD, maskEntry_bit _ (by omega), if_neg (by rw [hp]; decide),
    if_pos (isLargePae_iff.mpr hl)]

/-- A PAE table entry (R95). -/
theorem Table3.walk (h : Table3 s a dirA q0 pdeA q1 pteA q2) (w : Bool) :
    Machine.walk s w a = ⟨[.read8 dirA q0, .read8 pdeA q1, .read8 pteA q2],
      smallLeaf s .pae w (maskEntry q1) (maskEntry q2) (pdeAddr3 (maskEntry q0) a)
        (pteAddr3 (maskEntry q1) a) (phys4KPae (maskEntry q2) a)⟩ := by
  rw [h.toReads3.walk]; unfold walk3; dsimp only
  rw [← h.addr, h.toReads3.read, maskEntry_bit _ (by omega), if_neg (by rw [h.presentP]; decide),
    ← h.addrD, h.toDirectory3.readD, maskEntry_bit _ (by omega), if_neg (by rw [h.present]; decide),
    if_neg (by rw [isLargePae_iff]; exact h.small), ← h.addrT, h.readT]

end

/-! ## What the port must reach -/

/-- Under `DIRECT_RAM` a 4-byte fetch is reached when its bytes are RAM (R41). -/
theorem portReaches_read4 {s : State} (hd : s.cfg.ptAccess = .directRam) {x : PAddr} {v : Dword} :
    portReaches s (.read4 x v) = true ↔ RamAt s x 4 := by
  simp [portReaches, allRam, hd, RamAt]

/-- Under `DIRECT_RAM` an 8-byte fetch is reached when its bytes are RAM (R41). -/
theorem portReaches_read8 {s : State} (hd : s.cfg.ptAccess = .directRam) {x : PAddr} {v : Qword} :
    portReaches s (.read8 x v) = true ↔ RamAt s x 8 := by
  simp [portReaches, allRam, hd, RamAt]

/-- The first fetch of a two-level walk (R94). -/
theorem walk_head2 {s : State} (hm : pae s = false) (w : Bool) (a : LAddr) :
    PortAccess.read4 (portAddr s ((pdeAddr2 s.cr3 a).setWidth 40))
      (memRead4 s 0 (portAddr s ((pdeAddr2 s.cr3 a).setWidth 40))) ∈ (walk s w a).reads := by
  unfold walk walkMode walk2
  rw [hm]
  dsimp only
  simp only [Bool.false_eq_true, ↓reduceIte]
  split <;> [skip; split] <;> exact List.mem_cons_self

/-- The first fetch of a three-level walk (R95). -/
theorem walk_head3 {s : State} (hm : pae s = true) (w : Bool) (a : LAddr) :
    PortAccess.read8 (portAddr s ((pdpteAddr3 s.cr3 a).setWidth 40))
      (memRead8 s 0 (portAddr s ((pdpteAddr3 s.cr3 a).setWidth 40))) ∈ (walk s w a).reads := by
  unfold walk walkMode walk3
  rw [hm]
  simp only [↓reduceIte]
  split <;> [skip; split <;> [skip; split]] <;> exact List.mem_cons_self

/-- The second fetch of a three-level walk (R95). -/
theorem Reads3.second {s : State} {a : LAddr} {dirA : PAddr} {q0 : Qword} (h : Reads3 s a dirA q0)
    (hp : q0.getLsbD 0 = true) (w : Bool) :
    PortAccess.read8 (portAddr s (pdeAddr3 (maskEntry q0) a))
      (memRead8 s 1 (portAddr s (pdeAddr3 (maskEntry q0) a))) ∈ (Machine.walk s w a).reads := by
  rw [h.walk]; unfold walk3; dsimp only
  rw [← h.addr, h.read, maskEntry_bit _ (by omega), if_neg (by rw [hp]; decide)]
  split <;> [skip; split] <;> exact List.mem_cons_of_mem _ List.mem_cons_self

/-- The second fetch of a two-level walk (R94). -/
theorem Reads2.second {s : State} {a : LAddr} {pdeA : PAddr} {pde : Dword} (h : Reads2 s a pdeA pde)
    (hp : pde.getLsbD 0 = true) (hl : ¬(pde.getLsbD 7 = true ∧ pse s = true)) (w : Bool) :
    PortAccess.read4 (portAddr s ((pteAddr2 pde a).setWidth 40))
      (memRead4 s 1 (portAddr s ((pteAddr2 pde a).setWidth 40))) ∈ (Machine.walk s w a).reads := by
  rw [h.walk]; unfold walk2; dsimp only
  rw [← h.addr, h.read, if_neg (by rw [hp]; decide), if_neg (by simpa using hl)]
  exact List.mem_cons_of_mem _ List.mem_cons_self

/-- The third fetch of a three-level walk (R95). -/
theorem Directory3.third {s : State} {a : LAddr} {dirA pdeA : PAddr} {q0 q1 : Qword}
    (h : Directory3 s a dirA q0 pdeA q1) (hp : q1.getLsbD 0 = true) (hl : ¬Maps2M s q1) (w : Bool) :
    PortAccess.read8 (portAddr s (pteAddr3 (maskEntry q1) a))
      (memRead8 s 2 (portAddr s (pteAddr3 (maskEntry q1) a))) ∈ (Machine.walk s w a).reads := by
  rw [h.toReads3.walk]; unfold walk3; dsimp only
  rw [← h.addr, h.toReads3.read, maskEntry_bit _ (by omega), if_neg (by rw [h.presentP]; decide),
    ← h.addrD, h.readD, maskEntry_bit _ (by omega), if_neg (by rw [hp]; decide),
    if_neg (by rw [isLargePae_iff]; exact hl)]
  exact List.mem_cons_of_mem _ (List.mem_cons_of_mem _ List.mem_cons_self)

/-- One access out of reach is enough. -/
theorem all_false_of_mem {l : List PortAccess} {s : State} {acc : PortAccess} (h : acc ∈ l)
    (hn : ¬portReaches s acc = true) : l.all (portReaches s) = false := by
  rw [Bool.eq_false_iff, ne_eq, List.all_eq_true]
  exact fun hh => hn (hh acc h)

/-- Under `DIRECT_RAM` a walk has an entry out of reach exactly when it fetches one outside RAM
(R41). -/
theorem walk_outOfReach_iff {s : State} (hd : s.cfg.ptAccess = .directRam) (w : Bool) (a : LAddr) :
    (walk s w a).reads.all (portReaches s) = false ↔ FetchesOutsideRam s a := by
  constructor
  · intro h
    by_contra hn
    suffices (walk s w a).reads.all (portReaches s) = true by rw [h] at this; cases this
    cases hm : pae s
    · obtain ⟨pdeA, hA⟩ : ∃ x, x = portAddr s ((pdeAddr2 s.cr3 a).setWidth 40) := ⟨_, rfl⟩
      obtain ⟨pde, hv⟩ : ∃ v, memRead4 s 0 pdeA = v := ⟨_, rfl⟩
      have h0 : RamAt s pdeA 4 := not_not.mp fun ho => hn (.directory2 hm (hA ▸ ho))
      have r : Reads2 s a pdeA pde := ⟨hm, hA, (portReaches_read4 hd).mpr h0, hv⟩
      by_cases hp : pde.getLsbD 0 = true
      · by_cases hl : pde.getLsbD 7 = true ∧ pse s = true
        · rw [Large2.walk ⟨r, hp, hl⟩]; simp [r.reach]
        · have h1 := not_not.mp fun ho => hn (.table2 r hp hl ho)
          have t : Table2 s a pdeA pde _ _ := ⟨r, hp, hl, rfl, (portReaches_read4 hd).mpr h1, rfl⟩
          rw [t.walk]; simp [r.reach, t.reachT]
      · rw [r.absent w (by simpa using hp)]; simp [r.reach]
    · obtain ⟨dirA, hA⟩ : ∃ x, x = portAddr s ((pdpteAddr3 s.cr3 a).setWidth 40) := ⟨_, rfl⟩
      obtain ⟨q0, hv⟩ : ∃ v, memRead8 s 0 dirA = v := ⟨_, rfl⟩
      have h0 : RamAt s dirA 8 := not_not.mp fun ho => hn (.pdpte3 hm (hA ▸ ho))
      have r : Reads3 s a dirA q0 := ⟨hm, hA, (portReaches_read8 hd).mpr h0, hv⟩
      by_cases hp : q0.getLsbD 0 = true
      · obtain ⟨pdeA, hA⟩ : ∃ x, x = portAddr s (pdeAddr3 (maskEntry q0) a) := ⟨_, rfl⟩
        obtain ⟨q1, hv⟩ : ∃ v, memRead8 s 1 pdeA = v := ⟨_, rfl⟩
        have h1 : RamAt s pdeA 8 := not_not.mp fun ho => hn (.directory3 r hp (hA ▸ ho))
        have d : Directory3 s a dirA q0 pdeA q1 := ⟨r, hp, hA, (portReaches_read8 hd).mpr h1, hv⟩
        by_cases hq : q1.getLsbD 0 = true
        · by_cases hl : Maps2M s q1
          · rw [d.large w hq hl]; simp [r.reach, d.reachD]
          · have h2 := not_not.mp fun ho => hn (.table3 d hq hl ho)
            have t : Table3 s a dirA q0 pdeA q1 _ _ :=
              ⟨d, hq, hl, rfl, (portReaches_read8 hd).mpr h2, rfl⟩
            rw [t.walk]; simp [r.reach, d.reachD, t.reachT]
        · rw [d.absent w (by simpa using hq)]; simp [r.reach, d.reachD]
      · rw [r.absent w (by simpa using hp)]; simp [r.reach]
  · rintro (⟨hm, ho⟩ | ⟨r, hp, hl, ho⟩ | ⟨hm, ho⟩ | ⟨r, hp, ho⟩ | ⟨d, hp, hl, ho⟩)
    · exact all_false_of_mem (walk_head2 hm w a) (mt (portReaches_read4 hd).mp ho)
    · exact all_false_of_mem (r.second hp hl w) (mt (portReaches_read4 hd).mp ho)
    · exact all_false_of_mem (walk_head3 hm w a) (mt (portReaches_read8 hd).mp ho)
    · exact all_false_of_mem (r.second hp w) (mt (portReaches_read8 hd).mp ho)
    · exact all_false_of_mem (d.third hp hl w) (mt (portReaches_read8 hd).mp ho)

/-! ## The permission predicates read two bits -/

theorem permOk_congr {n m : Nat} {s : State} {mode : WalkMode} {e : BitVec n} {f : BitVec m}
    {w : Bool} (h1 : e.getLsbD 1 = f.getLsbD 1) (h2 : e.getLsbD 2 = f.getLsbD 2) :
    permOk s mode e w = permOk s mode f w := by
  simp only [permOk, userFault, writeFault, h1, h2]

theorem permByte_congr {n m : Nat} {e : BitVec n} {f : BitVec m}
    (h1 : e.getLsbD 1 = f.getLsbD 1) (h2 : e.getLsbD 2 = f.getLsbD 2) : permByte e = permByte f := by
  simp only [permByte, h1, h2]

/-! ## TRANSLATE, by what its walk answers -/

/-- TRANSLATE is `translate` and its outputs. -/
theorem execTranslate_next {s t : State} {w : Bool} {a : LAddr}
    (h : execTranslate w a s = .next t) :
    ∃ p u, translate w a s = .ok (p, u) ∧ t = drive (translateOutputs p) u := by
  unfold execTranslate at h
  split at h
  · cases h
  · next p u hx => cases h; exact ⟨p, u, hx, rfl⟩

/-- A walk that the port reaches and that fails raises its fault (R213). -/
theorem execTranslate_fail {s : State} {w p : Bool} {a : LAddr} (hw : Walks s)
    (hr : (walk s w a).reads.all (portReaches s) = true) (h : (walk s w a).result = .fail p) :
    execTranslate w a s = .next (faultState s a w p (walk s w a).reads) := by
  unfold execTranslate
  rw [translate_walk hw, if_neg (by rw [hr]; decide), h]
  rfl

/-- A walk that the port reaches and that succeeds is committed (R110). -/
theorem execTranslate_ok {s : State} {w : Bool} {a : LAddr} {phys : PAddr} {perm : Byte}
    {wb : List WriteBack} (hw : Walks s) (hr : (walk s w a).reads.all (portReaches s) = true)
    (h : (walk s w a).result = .ok phys perm wb) :
    execTranslate w a s = .next (drive (translateOutputs (some phys))
      (commitWalk perm wb (logPort (walk s w a).reads s))) := by
  unfold execTranslate
  rw [translate_walk hw, if_neg (by rw [hr]; decide), h]

/-- A write-back to RAM (R104). -/
theorem writeBack_ram {b : WriteBack} {s : State} {pa : PAddr} (ha : portAddr s b.addr = pa)
    (ht : pa.toNat + 4 ≤ 2 ^ 40) (hr : RamAt s pa 4) :
    writeBack b s = { s with
      mem := store4 s.env s.mem pa (mem32 s.mem pa ||| b.bits),
      portLog := s.portLog ++
        [.read4 pa (mem32 s.mem pa), .write4 pa (mem32 s.mem pa ||| b.bits)],
      portCount := s.portCount + 2 } := by
  unfold writeBack
  rw [ha]; dsimp only
  rw [memRead4_ram hr ht]
  simp [memWrite4, logPort, List.append_assoc, Nat.add_assoc]

end Sys2Proof.Machine
end

