-- ==== Sys2Proof/Laws/PerInstr.lean ====
section
/-! SUPPORT. Statements made once for each instruction. `EncodeLegal`: the word an instruction encodes
to is none of the illegal words of 30_encoding.md R64. -/

namespace Sys2Proof.Laws.EncodeLegal

/-- The encoding of the instruction is a legal command. -/
def Statement (i : Instr) : Prop := (encode i).wf = true

/-- A command's legality is its word's: with the word `x` legal, so is the instruction it encodes. -/
theorem of_word {i : Instr} (x : BitVec 16) (hx : (encode i).cmd = x)
    (h : Command.wf ⟨x, 0, 0⟩ = true) : Statement i := by
  subst hx; exact h

theorem translate (w : Bool) (laddr : LAddr) : Statement (.translate w laddr) :=
  of_word (wordOf 0x1 w 0 0 0 false) rfl (by revert w; decide)

theorem translateNoabrt (w : Bool) (laddr : LAddr) : Statement (.translateNoabrt w laddr) :=
  of_word (wordOf 0x2 w 0 0 0 false) rfl (by revert w; decide)

theorem lookupRead (lpage : LPage) : Statement (.lookupRead lpage) :=
  of_word 0x0003 (by rfl) (by decide)

theorem lookupWrite (lpage : LPage) : Statement (.lookupWrite lpage) :=
  of_word 0x0004 (by rfl) (by decide)

theorem insertRead (lpage : LPage) (ppage : PPage) : Statement (.insertRead lpage ppage) :=
  of_word 0x0005 (by rfl) (by decide)

theorem insertWrite (lpage : LPage) (ppage : PPage) : Statement (.insertWrite lpage ppage) :=
  of_word 0x0006 (by rfl) (by decide)

theorem flush : Statement .flush :=
  of_word 0x0007 (by rfl) (by decide)

theorem flushWritePage (ppage : PPage) : Statement (.flushWritePage ppage) :=
  of_word 0x0008 (by rfl) (by decide)

theorem invalidate (laddr : LAddr) : Statement (.invalidate laddr) :=
  of_word 0x0009 (by rfl) (by decide)

theorem access (w : Bool) (sz : AccessSize) (laddr : LAddr) : Statement (.access w sz laddr) :=
  of_word (wordOf 0xA w (encodeSize sz) 0 0 false) rfl
    (by generalize encodeSize sz = z; revert w z; decide)

theorem writeCr0 (v : Dword) : Statement (.writeCr0 v) :=
  of_word 0x000B (by rfl) (by decide)

theorem writeCr3 (v : Dword) : Statement (.writeCr3 v) :=
  of_word 0x010B (by rfl) (by decide)

theorem writeCr4 (v : Dword) : Statement (.writeCr4 v) :=
  of_word 0x020B (by rfl) (by decide)

theorem setRammask (mask : BitVec 40) : Statement (.setRammask mask) :=
  of_word 0x000C (by rfl) (by decide)

theorem setPriv (cpl : BitVec 2) (ovr : Bool) : Statement (.setPriv cpl ovr) :=
  of_word (wordOf 0xD false 0 0 cpl ovr) rfl (by revert cpl ovr; decide)

theorem writeAbort (code : Byte) : Statement (.writeAbort code) :=
  of_word 0x000E (by rfl) (by decide)

end Sys2Proof.Laws.EncodeLegal
end

