-- ==== Sys2Proof/Tests/Slice0.lean ====
section
/-! SUPPORT. The model's own tests: words the spec's encodings spell, ill-formed words, one or two steps
of each command with the results of 95_test_vectors.md, and for each statement with hypotheses a witness
that meets them. -/

namespace Sys2Proof.Tests

set_option Elab.async false

open Sys2Proof.Machine

/-! ## Helpers -/

/-- Whether an outcome is a next state of which `p` holds. -/
def nextHas (o : Host.Outcome State Fault Refusal) (p : State → Bool) : Bool :=
  match o with
  | .next t => p t
  | _       => false

theorem exists_next {o : Host.Outcome State Fault Refusal} {p : State → Bool}
    (h : nextHas o p = true) : ∃ t, o = .next t ∧ p t = true := by
  cases o with
  | next t => exact ⟨t, rfl, h⟩
  | fault f => cases h
  | refused r => cases h

/-- A command with its fields at the bit positions of R61, from bit 15 down: reserved, OVRV, CPLV,
CRSEL, reserved, SZ, W, OP. -/
def word (r3 : BitVec 3) (ovrv : BitVec 1) (cplv crsel : BitVec 2) (r1 : BitVec 1) (sz : BitVec 2)
    (w : BitVec 1) (op : BitVec 4) (a b : Qword) : Command :=
  ⟨r3 ++ ovrv ++ cplv ++ crsel ++ r1 ++ sz ++ w ++ op, a, b⟩

/-- A block with caches of two slots, all of memory RAM. -/
def small : Config := { cacheBits := 1 }

/-- The block after reset, with the given memory. -/
def machine (m : Memory) : State := { State.resetWith small Platform.standard with mem := m }

/-- A 32-bit word put into memory. -/
def dword (a : PAddr) (v : Dword) (m : Memory) : Memory := store4 Platform.standard m a v

/-- A 64-bit word put into memory. -/
def qword (a : PAddr) (v : Qword) (m : Memory) : Memory :=
  dword (a + 4) (v.extractLsb 63 32) (dword a (v.extractLsb 31 0) m)

/-- The start state of 95_test_vectors.md 2.2, with the PDE and the PTE given. -/
def twoLevel (pde pte : Dword) : State :=
  { machine (dword 0x1004 pde (dword 0x200C pte [])) with cr0 := 0x80000000, cr3 := 0x00001000 }

/-- The logical address of 95_test_vectors.md 2.2. -/
def laddr2 : LAddr := 0x00403ABC

/-- The start state of vector W11: a 4 MB page with the PDE given, `CPL = 3`. -/
def fourMB (pde : Dword) : State :=
  { machine (dword 0x1000 pde []) with
    cr0 := 0x80000000, cr3 := 0x00001000, cr4 := 0x10, cpl := 3 }

/-- The start state of 95_test_vectors.md 2.3, with the three entries given. -/
def threeLevel (pdpte pde pte : Qword) : State :=
  { machine (qword 0x3008 pdpte (qword 0x4008 pde (qword 0x5008 pte []))) with
    cr0 := 0x80000000, cr3 := 0x00003000, cr4 := 0x20 }

/-- The logical address of 95_test_vectors.md 2.3. -/
def laddr3 : LAddr := 0x40201ABC

/-- A state with paging off and the slots given in the caches of two. -/
def cached (rc wc : List Slot) : State :=
  { machine [] with rc := ⟨rc ++ [Slot.empty], 1⟩, wc := ⟨wc ++ [Slot.empty], 1⟩, lastPerm := 0x07 }

/-- The slot of vector C11, of the given permission byte and route. -/
def slot10 (perm : Byte) (route : Bool) : Slot := ⟨true, 0x10, 0x20, perm, route⟩

/-! ## Well-formedness: each check refuses a term (the illegal words of 95_test_vectors.md 2.1) -/

theorem test_wf_reserved_op :
    Command.opKnown ⟨0x0000, 0, 0⟩ = false ∧ Command.wf ⟨0x0000, 0, 0⟩ = false ∧
    Command.wf ⟨0x000F, 0, 0⟩ = false := by decide

theorem test_wf_reserved_crsel :
    Command.crselKnown ⟨0x030B, 0, 0⟩ = false ∧ Command.wf ⟨0x030B, 0, 0⟩ = false := by decide

theorem test_wf_reserved_bits :
    Command.reservedClear ⟨0x008A, 0, 0⟩ = false ∧ Command.wf ⟨0x008A, 0, 0⟩ = false ∧
    Command.reservedClear ⟨0x2001, 0, 0⟩ = false ∧ Command.wf ⟨0x2001, 0, 0⟩ = false := by decide

theorem test_wf_unused_fields :
    Command.unusedClear ⟨0x0013, 0, 0⟩ = false ∧ Command.wf ⟨0x0013, 0, 0⟩ = false ∧
    Command.unusedClear ⟨0x0101, 0, 0⟩ = false ∧ Command.unusedClear ⟨0x0027, 0, 0⟩ = false ∧
    Command.unusedClear ⟨0x0407, 0, 0⟩ = false ∧ Command.unusedClear ⟨0x1007, 0, 0⟩ = false := by decide

theorem test_wf_accepts :
    Command.wf ⟨0x007A, 0x1000, 0⟩ = true ∧ Command.wf ⟨0x1C0D, 0, 0⟩ = true := by decide

/-! ## Decoding: each constructor's word from the tables of R61 and R62 -/

theorem test_decode_translate :
    decode (word 0b000 0b0 0b00 0b00 0b0 0b00 0b1 0b0001 0x00403ABC 0) =
      .ok (.translate true 0x00403ABC) := by decide

theorem test_decode_translateNoabrt :
    decode (word 0b000 0b0 0b00 0b00 0b0 0b00 0b0 0b0010 0x00403ABC 0) =
      .ok (.translateNoabrt false 0x00403ABC) := by decide

theorem test_decode_lookupRead :
    decode (word 0b000 0b0 0b00 0b00 0b0 0b00 0b0 0b0011 0x00403 0) = .ok (.lookupRead 0x00403) := by
  decide

theorem test_decode_lookupWrite :
    decode (word 0b000 0b0 0b00 0b00 0b0 0b00 0b0 0b0100 0x00403 0) = .ok (.lookupWrite 0x00403) := by
  decide

theorem test_decode_insertRead :
    decode (word 0b000 0b0 0b00 0b00 0b0 0b00 0b0 0b0101 0x40201 0x601) =
      .ok (.insertRead 0x40201 0x601) := by decide

theorem test_decode_insertWrite :
    decode (word 0b000 0b0 0b00 0b00 0b0 0b00 0b0 0b0110 0x00010 0xFFF0000020) =
      .ok (.insertWrite 0x00010 0x0000020) := by decide

theorem test_decode_flush :
    decode (word 0b000 0b0 0b00 0b00 0b0 0b00 0b0 0b0111 0 0) = .ok .flush := by decide

theorem test_decode_flushWritePage :
    decode (word 0b000 0b0 0b00 0b00 0b0 0b00 0b0 0b1000 0x7 0) = .ok (.flushWritePage 0x7) := by decide

theorem test_decode_invalidate :
    decode (word 0b000 0b0 0b00 0b00 0b0 0b00 0b0 0b1001 0x00403000 0) =
      .ok (.invalidate 0x00403000) := by decide

theorem test_decode_access :
    decode (word 0b000 0b0 0b00 0b00 0b0 0b10 0b1 0b1010 0xFFFFFFFF00001000 0) =
      .ok (.access true .b4 0x00001000) ∧
    decode (word 0b000 0b0 0b00 0b00 0b0 0b01 0b0 0b1010 0x00001000 0) =
      .ok (.access false .b2 0x00001000) := by decide

theorem test_decode_writeCr0 :
    decode (word 0b000 0b0 0b00 0b00 0b0 0b00 0b0 0b1011 0x80000000 0) = .ok (.writeCr0 0x80000000) := by
  decide

theorem test_decode_writeCr3 :
    decode (word 0b000 0b0 0b00 0b01 0b0 0b00 0b0 0b1011 0x00001000 0) = .ok (.writeCr3 0x00001000) := by
  decide

theorem test_decode_writeCr4 :
    decode (word 0b000 0b0 0b00 0b10 0b0 0b00 0b0 0b1011 0x00000020 0) = .ok (.writeCr4 0x00000020) := by
  decide

theorem test_decode_setRammask :
    decode (word 0b000 0b0 0b00 0b00 0b0 0b00 0b0 0b1100 0xFFFFFFFFFF 0) =
      .ok (.setRammask 0xFFFFFFFFFF) := by decide

theorem test_decode_setPriv :
    decode (word 0b000 0b0 0b11 0b00 0b0 0b00 0b0 0b1101 0 0) = .ok (.setPriv 3 false) ∧
    decode (word 0b000 0b1 0b00 0b00 0b0 0b00 0b0 0b1101 0 0) = .ok (.setPriv 0 true) := by decide

theorem test_decode_writeAbort :
    decode (word 0b000 0b0 0b00 0b00 0b0 0b00 0b0 0b1110 0x0D 0) = .ok (.writeAbort 0x0D) := by decide

/-- The numbering of log 11: CMD, then A from bit 16, then B from bit 80. -/
theorem test_table_word :
    decodeTableWord 144 (0x0005 + 0x40201 * 2 ^ 16 + 0x601 * 2 ^ 80) =
      some (.insertRead 0x40201 0x601) ∧
    decodeTableWord 16 0x0007 = some .flush ∧ decodeTableWord 16 0x030B = none := by decide +kernel

/-! ## One step of each command -/

/-- Vector W14, with its port trace. -/
theorem test_translate_two_level :
    nextHas
      (exec (.translate false 0x00001234)
        { machine (dword 0x1000 0x00400087 (dword 0x400004 0x00009007 [])) with
          cr0 := 0x80000000, cr3 := 0x1000, cpl := 3 })
      (fun t => t.out == ⟨0x00009234, 0b0001, 0, 0⟩ && t.lastPerm == 0x07 &&
        mem32 t.mem 0x1000 == 0x004000A7 && mem32 t.mem 0x400004 == 0x00009027 &&
        t.portLog == [.read4 0x1000 0x00400087, .read4 0x400004 0x00009007,
          .read4 0x1000 0x00400087, .write4 0x1000 0x004000A7,
          .read4 0x400004 0x00009007, .write4 0x400004 0x00009027]) = true := by decide +kernel

/-- Vector X3: bit 63 of the PTE is ignored and its high dword is not written. -/
theorem test_translate_pae :
    nextHas (exec (.translate false laddr3) (threeLevel 0x4001 0x5007 0x8000000123456007))
      (fun t => t.out == ⟨0x0123456ABC, 0b0001, 0, 0⟩ && t.lastPerm == 0x07 &&
        mem64 t.mem 0x4008 == 0x5027 && mem64 t.mem 0x5008 == 0x8000000123456027) = true := by
  decide +kernel

/-- Vector W13. -/
theorem test_translateNoabrt_silent :
    nextHas (exec (.translateNoabrt false 0x00001234) (fourMB 0x00400087))
      (fun t => t.out == ⟨0x00401234, 0b0001, 0, 0⟩ && t.lastPerm == 0 &&
        mem32 t.mem 0x1000 == 0x00400087) = true := by decide +kernel

/-- Vector W24. -/
theorem test_translateNoabrt_denied :
    nextHas (exec (.translateNoabrt true laddr2) { twoLevel 0x2007 0x5005 with cpl := 3 })
      (fun t => t.out == ⟨0xFFFFFFFFFFFFFFFF, 0b0000, 0, 0⟩ && t.abrt == 0 && t.cr2 == 0) = true := by
  decide +kernel

/-- Vector C10: a supervisor read-only slot. -/
theorem test_lookupRead :
    nextHas (exec (.lookupRead 0x10) (cached [slot10 0x01 false] []))
      (fun t => t.out == ⟨0x20, 0b0001, 0, 0⟩) = true ∧
    nextHas (exec (.lookupRead 0x10) { cached [slot10 0x01 false] [] with cpl := 3 })
      (fun t => t.out == ⟨0, 0b0000, 0, 0⟩) = true := by decide +kernel

/-- Vector C9: a user read-only slot. -/
theorem test_lookupWrite_permission :
    nextHas (exec (.lookupWrite 0x10) (cached [] [slot10 0x05 false]))
      (fun t => t.out == ⟨0x20, 0b0001, 0, 0⟩) = true ∧
    nextHas (exec (.lookupWrite 0x10) { cached [] [slot10 0x05 false] with cr0 := 0x00010000 })
      (fun t => t.out == ⟨0, 0b0000, 0, 0⟩) = true := by decide +kernel

/-- Vectors C11 and C12: `route` comes from the slot. -/
theorem test_lookupWrite_route :
    nextHas (exec (.lookupWrite 0x10) (cached [] [slot10 0x07 true]))
      (fun t => t.out == ⟨0x20, 0b0101, 0, 0⟩) = true := by decide +kernel

/-- Vector C2: a second insertion of a page does nothing. -/
theorem test_insertRead_held :
    nextHas (exec (.insertRead 0x10 0x999) (cached [slot10 0x07 false] []))
      (fun t => t.rc == ⟨[slot10 0x07 false, Slot.empty], 1⟩) = true := by decide +kernel

/-- Vector C14: the cursor wraps. -/
theorem test_insertRead_wraps :
    nextHas (exec (.insertRead 0x00001 0x2) (cached [slot10 0x07 false] []))
      (fun t => t.rc == ⟨[slot10 0x07 false, ⟨true, 0x00001, 0x2, 0x07, false⟩], 0⟩) = true := by
  decide +kernel

/-- Vector C11: `route` is sampled from `code_present`; the read cache stays. -/
theorem test_insertWrite_route :
    nextHas (exec (.insertWrite 0x00010 0x0000020)
        { cached [] [] with env := ⟨[], [], [0x20]⟩, wc := Cache.empty 2 })
      (fun t => t.wc == ⟨[slot10 0x07 true, Slot.empty], 1⟩ && t.rc.next == 1) = true := by
  decide +kernel

/-- Vector C6. -/
theorem test_flush :
    nextHas (exec .flush (cached [slot10 0x07 false] [slot10 0x07 false]))
      (fun t => t.rc == ⟨[clearValid (slot10 0x07 false), Slot.empty], 0⟩ && t.wc == t.rc) = true := by
  decide +kernel

/-- Vector C5: only the write cache's slots of that page; the cursor stays. -/
theorem test_flushWritePage :
    nextHas (exec (.flushWritePage 0x20) (cached [slot10 0x07 false] [slot10 0x07 true]))
      (fun t => t.wc == ⟨[clearValid (slot10 0x07 true), Slot.empty], 1⟩ &&
        t.rc == ⟨[slot10 0x07 false, Slot.empty], 1⟩) = true := by decide +kernel

/-- Vector C7: pages other than the address's go too. -/
theorem test_invalidate :
    nextHas (exec (.invalidate 0x00401000) (cached [slot10 0x07 false] []))
      (fun t => t.rc == ⟨[clearValid (slot10 0x07 false), Slot.empty], 0⟩) = true := by decide +kernel

/-- Vector F5: an access that wraps at the top of the logical space. -/
theorem test_access_split :
    nextHas (exec (.access false .b8 0xFFFFFFFC) (machine []))
      (fun t => t.out == ⟨0xFFFFFFFC, 0b1001, 0x00000000, 4⟩ &&
        (t.rc.slots.map Slot.lpage) == [0xFFFFF, 0x00000] && t.rc.next == 0) = true := by
  decide +kernel

/-- Vector F7: the second part faults; the first part's effects stay. -/
theorem test_access_second_part_faults :
    nextHas (exec (.access true .b4 0x00000FFE)
        { machine (dword 0x1000 0x2007 (dword 0x2000 0x3007 [])) with
          cr0 := 0x80000000, cr3 := 0x1000 })
      (fun t => t.out == ⟨0xFFFFFFFFFFFFFFFF, 0b0010, 0, 0⟩ && t.cr2 == 0x1000 && t.abrt == 0x0E &&
        t.abrtErr == 0x2 && mem32 t.mem 0x1000 == 0x2027 && mem32 t.mem 0x2000 == 0x3067 &&
        t.wc.slots.head? == some ⟨true, 0x0, 0x3, 0x07, false⟩) = true := by decide +kernel

/-- Vectors K1 and K2: a change of PG flushes, a change of WP does not. -/
theorem test_writeCr0 :
    nextHas (exec (.writeCr0 0x80000001) { cached [slot10 0x07 false] [] with cr0 := 1 })
      (fun t => t.cr0 == 0x80000001 && t.rc.next == 0) = true ∧
    nextHas (exec (.writeCr0 0x80010000) { cached [slot10 0x07 false] [] with cr0 := 0x80000000 })
      (fun t => t.cr0 == 0x80010000 && t.rc.next == 1) = true := by decide +kernel

/-- Vector K4: the value is unchanged, the caches are flushed. -/
theorem test_writeCr3 :
    nextHas (exec (.writeCr3 0x1000) { cached [slot10 0x07 false] [] with cr3 := 0x1000 })
      (fun t => t.cr3 == 0x1000 && t.rc == (Cache.mk [slot10 0x07 false, Slot.empty] 1).flush) = true := by
  decide +kernel

/-- Vectors K5 and K6. -/
theorem test_writeCr4 :
    nextHas (exec (.writeCr4 0x10) (cached [slot10 0x07 false] []))
      (fun t => t.cr4 == 0x10 && t.rc.next == 0) = true ∧
    nextHas (exec (.writeCr4 0x90) { cached [slot10 0x07 false] [] with cr4 := 0x10 })
      (fun t => t.cr4 == 0x90 && t.rc.next == 1) = true := by decide +kernel

/-- Vector K7. -/
theorem test_setRammask :
    nextHas (exec (.setRammask 0xFFFFFFFFFF) (cached [slot10 0x07 false] []))
      (fun t => t.rammask == 0xFFFFFFFFFF && t.rc.next == 0) = true := by decide +kernel

/-- Vector K8. -/
theorem test_setPriv :
    nextHas (exec (.setPriv 3 true) (cached [slot10 0x07 false] []))
      (fun t => t.cpl == 3 && t.ovr == true && t.rc.next == 1) = true := by decide +kernel

/-- Vector K9. -/
theorem test_writeAbort :
    nextHas (exec (.writeAbort 0) { machine [] with abrt := 0x0E, abrtErr := 7, cr2 := 0x1234 })
      (fun t => t.abrt == 0 && t.abrtErr == 7 && t.cr2 == 0x1234) = true := by decide +kernel

/-- Program P4, step 5: an illegal word. -/
theorem test_step_illegal_word :
    nextHas (step { machine [] with inputs := [.command ⟨0x030B, 0x12345678, 0⟩] })
      (fun t => t == { machine [] with out := ⟨0xFFFFFFFFFFFFFFFF, 0b0010, 0, 0⟩ }) = true := by
  decide +kernel

/-- `withFetchWord` makes the next step run the word's instruction (program P2, step 6). -/
theorem test_step_withFetchWord :
    nextHas (step ((machine []).withFetchWord 144 (0x0005 + 0x40201 * 2 ^ 16 + 0x601 * 2 ^ 80)))
      (fun t => t.rc == ⟨[⟨true, 0x40201, 0x601, 0x00, false⟩, Slot.empty], 1⟩) = true := by
  decide +kernel

/-- The assembler text of 95_test_vectors.md 2.1. -/
theorem test_asmText :
    asmText (.access true .b4 0x00000FFE) = "ACCESS.W4 0x00000FFE" ∧
    asmText (.insertRead 0x40201 0x601) = "INSERT_READ 0x40201, 0x0000601" ∧
    pseudoClearAbort = .writeAbort 0 ∧ pseudoFetch 0x1000 = .access false .b1 0x1000 := by
  decide +kernel

/-! ## Witnesses: encoding, step, reset -/

/-- EncodeDecodeSameWord. -/
theorem witness_EncodeDecodeSameWord :
    decode ⟨0x006A, 0xFFFFFFFFFFFFFFFF, 5⟩ = .ok (.access false .b8 0xFFFFFFFF) := by decide

/-- DecodeAcceptsExactlyLegalWords, clause by clause. -/
theorem witness_DecodeAcceptsExactlyLegalWords :
    Command.wf ⟨0x007A, 0, 0⟩ = true ∧ Command.opKnown ⟨0x000F, 0, 0⟩ = false ∧
    (Command.opKnown ⟨0x030B, 0, 0⟩ = true ∧ Command.crselKnown ⟨0x030B, 0, 0⟩ = false) ∧
    (Command.opKnown ⟨0x8001, 0, 0⟩ = true ∧ Command.crselKnown ⟨0x8001, 0, 0⟩ = true ∧
      Command.reservedClear ⟨0x8001, 0, 0⟩ = false) ∧
    (Command.opKnown ⟨0x0301, 0, 0⟩ = true ∧ Command.crselKnown ⟨0x0301, 0, 0⟩ = true ∧
      Command.reservedClear ⟨0x0301, 0, 0⟩ = true ∧ Command.unusedClear ⟨0x0301, 0, 0⟩ = false) := by
  decide

/-- DecodeIgnoresUnusedBusBits: buses that differ only above the operand fields. -/
theorem witness_DecodeIgnoresUnusedBusBits :
    (0xF00000#64).setWidth (operandWidthA (Command.op ⟨0x0005, 0, 0⟩)) =
      (0#64).setWidth (operandWidthA (Command.op ⟨0x0005, 0, 0⟩)) ∧
    (0xF0000000#64).setWidth (operandWidthB (Command.op ⟨0x0005, 0, 0⟩)) =
      (0#64).setWidth (operandWidthB (Command.op ⟨0x0005, 0, 0⟩)) := by decide

/-- An open block with one input queued. -/
def queued (x : Input) : State := { machine [] with inputs := [x] }

/-- StepRunsIssuedCommand. -/
theorem witness_StepRunsIssuedCommand :
    (queued (.command ⟨0x0007, 0, 0⟩)).closed = false ∧
    (queued (.command ⟨0x0007, 0, 0⟩)).inputs = [.command ⟨0x0007, 0, 0⟩] ∧
    decode ⟨0x0007, 0, 0⟩ = .ok .flush := by decide +kernel

/-- StepTurnsAwayIllegalWord. -/
theorem witness_StepTurnsAwayIllegalWord :
    (queued (.command ⟨0x030B, 0, 0⟩)).closed = false ∧
    (queued (.command ⟨0x030B, 0, 0⟩)).inputs = [.command ⟨0x030B, 0, 0⟩] ∧
    Command.wf ⟨0x030B, 0, 0⟩ = false := by decide +kernel

/-- ResetLoadsTable: both lifecycle calls on an open block, and a command queued after `close`. -/
theorem witness_ResetLoadsTable :
    ((queued .reset).closed = false ∧ (queued .reset).inputs = [.reset]) ∧
    ((queued .close).closed = false ∧ (queued .close).inputs = [.close]) ∧
    ∃ t, step { machine [] with inputs := [.close, .command ⟨0x0007, 0, 0⟩] } = .next t ∧
      (t.inputs == [.command ⟨0x0007, 0, 0⟩]) = true :=
  ⟨by decide +kernel, by decide +kernel, exists_next (by decide +kernel)⟩

/-- AfterResetTranslationIsIdentity: an access that just fits its page. -/
theorem witness_AfterResetTranslationIsIdentity :
    (0x00000FFC#32).toNat % 4096 + sizeBytes .b4 ≤ 4096 := by decide

theorem machine_caches (m : Memory) : CachesWf (machine m) :=
  ⟨CacheWf.empty (n := 2) (by decide), CacheWf.empty (n := 2) (by decide),
    show ∀ t ∈ (Cache.empty 2).slots, t.route = false by decide⟩

/-- The invariant holds of a machine with canonical memory. -/
theorem machine_inv {m : Memory} (h : Memory.wf m) : Inv (machine m) :=
  ⟨h, machine_caches m,
    ⟨show (0#32) &&& 0xFFFFFFF8 = 0 by decide, show PermWf 0 by decide,
      show ∀ t ∈ (Cache.empty 2).slots, PermWf t.perm by decide,
      show ∀ t ∈ (Cache.empty 2).slots, PermWf t.perm by decide⟩⟩

/-- StepKeepsInvariant: a state that meets the invariant and steps. -/
theorem witness_StepKeepsInvariant :
    Inv { machine [(0x2000, 0x55)] with inputs := [.command ⟨0x0007, 0, 0⟩] } ∧
    ∃ t, step { machine [(0x2000, 0x55)] with inputs := [.command ⟨0x0007, 0, 0⟩] } = .next t ∧
      (t.inputs == []) = true := by
  have h := machine_inv (m := [(0x2000, 0x55)]) (by decide +kernel)
  exact ⟨⟨h.memory, ⟨h.caches.rc, h.caches.wc, h.caches.noRoute⟩,
    ⟨h.fields.errorCode, h.fields.lastPerm, h.fields.readPerm, h.fields.writePerm⟩⟩,
    exists_next (by decide +kernel)⟩

/-- CommandsKeepOneSlotPerPage. -/
theorem witness_CommandsKeepOneSlotPerPage :
    CachesWf (machine []) ∧ ∃ t, exec (.insertWrite 0x10 0x20) (machine []) = .next t ∧
      (t.wc.slots.countP (·.valid) == 1) = true :=
  ⟨machine_caches [], exists_next (by decide +kernel)⟩

/-! ## Witnesses: permission checker and error code -/

/-- PermissionTable: a state and an entry for each row of R101. -/
theorem witness_PermissionTable :
    let u : State := { machine [] with cpl := 3 }
    let sup : State := { machine [] with cpl := 2, cr0 := 0x00010000 }
    let legacy : State := { machine [] with cpl := 0 }
    (u.cpl = 3 ∧ u.ovr = false ∧ (0x3#32).getLsbD 2 = false) ∧
    ((0x5#32).getLsbD 2 = true ∧ (0x5#32).getLsbD 1 = false) ∧
    ((0x7#32).getLsbD 2 = true ∧ (0x7#32).getLsbD 1 = true) ∧
    (sup.cpl ≠ 3 ∧ sup.ovr = false ∧ (0x1#32).getLsbD 1 = false ∧ wpEff sup .twoLevel = true ∧
      wpEff sup .pae = true) ∧
    (legacy.cpl ≠ 3 ∧ legacy.ovr = false ∧ wpEff legacy .twoLevel = false ∧
      wpEff legacy .pae = false) ∧
    ({ machine [] with cpl := 3, ovr := true } : State).ovr = true := by decide +kernel

/-- PermByteDecidesAlike. -/
theorem witness_PermByteDecidesAlike : (0x400087#32).getLsbD 0 = true := by decide

/-- ErrorCodeBits: both settings of the parameter. -/
theorem witness_ErrorCodeBits :
    (machine []).cfg.ecUIgnoresOverride = true ∧
    ({ machine [] with cfg := { ecUIgnoresOverride := false } } : State).cfg.ecUIgnoresOverride =
      false := by decide +kernel

/-- ErrorCodeOneNeverProduced, on a command that faults. -/
theorem witness_ErrorCodeOneNeverProduced :
    (twoLevel 0x2007 0x5005).abrtErr ≠ 1 ∧
    ∃ t, exec (.translate true laddr2) { twoLevel 0x2007 0x5005 with cpl := 3 } = .next t ∧
      (t.abrtErr == 7) = true := ⟨by decide +kernel, exists_next (by decide +kernel)⟩

/-! ## Witnesses: the walker -/

/-- TranslateFastExit. -/
theorem witness_TranslateFastExit : ({ machine [] with abrt := 0x0D } : State).abrt ≠ 0 := by
  decide +kernel

/-- PagingOffIsIdentity. -/
theorem witness_PagingOffIsIdentity :
    (machine []).abrt = 0 ∧ (machine []).cr0.getLsbD 31 = false := by decide +kernel

theorem ram_everywhere {s : State} (h : s.env = Platform.standard) (a : PAddr) (n : Nat) :
    RamAt s a n := by
  intro i _
  have : ∀ b : PAddr, kindAt Platform.standard b = some .ram := by
    intro b
    have : regionHolds ⟨0, 2 ^ 40, .ram⟩ b = true := by
      simp only [regionHolds, Nat.zero_le, decide_true, Bool.true_and, decide_eq_true_eq]
      have := b.isLt; omega
    show (List.find? (fun r => regionHolds r b) [⟨0, 2 ^ 40, .ram⟩]).map Region.kind = _
    rw [List.find?_cons_of_pos (by exact this)]; rfl
  rw [h]; exact this _

/-! What a walk finds in a machine whose port reaches everything, from facts that can be evaluated. -/

theorem dispatch_reaches {s : State} (h : s.cfg.ptAccess = .dispatch) (acc : PortAccess) :
    portReaches s acc = true := by simp [portReaches, h]

theorem reads2 {s : State} {a : LAddr} {pdeA : PAddr} {pde : Dword}
    (hd : s.cfg.ptAccess = .dispatch)
    (h : pae s = false ∧ pdeA = portAddr s ((pdeAddr2 s.cr3 a).setWidth 40) ∧
      memRead4 s 0 pdeA = pde) : Reads2 s a pdeA pde where
  mode  := h.1
  addr  := h.2.1
  reach := dispatch_reaches hd _
  read  := h.2.2

theorem large2 {s : State} {a : LAddr} {pdeA : PAddr} {pde : Dword} (h : Reads2 s a pdeA pde)
    (hl : pde.getLsbD 0 = true ∧ pde.getLsbD 7 = true ∧ pse s = true) : Large2 s a pdeA pde where
  toReads2 := h
  present  := hl.1
  large    := hl.2

theorem table2 {s : State} {a : LAddr} {pdeA pteA : PAddr} {pde pte : Dword}
    (hd : s.cfg.ptAccess = .dispatch) (h : Reads2 s a pdeA pde)
    (ht : pde.getLsbD 0 = true ∧ ¬(pde.getLsbD 7 = true ∧ pse s = true) ∧
      pteA = portAddr s ((pteAddr2 pde a).setWidth 40) ∧ memRead4 s 1 pteA = pte) :
    Table2 s a pdeA pde pteA pte where
  toReads2 := h
  present  := ht.1
  small    := ht.2.1
  addrT    := ht.2.2.1
  reachT   := dispatch_reaches hd _
  readT    := ht.2.2.2

theorem reads3 {s : State} {a : LAddr} {dirA : PAddr} {q0 : Qword}
    (hd : s.cfg.ptAccess = .dispatch)
    (h : pae s = true ∧ dirA = portAddr s ((pdpteAddr3 s.cr3 a).setWidth 40) ∧
      memRead8 s 0 dirA = q0) : Reads3 s a dirA q0 where
  mode  := h.1
  addr  := h.2.1
  reach := dispatch_reaches hd _
  read  := h.2.2

theorem directory3 {s : State} {a : LAddr} {dirA pdeA : PAddr} {q0 q1 : Qword}
    (hd : s.cfg.ptAccess = .dispatch) (h : Reads3 s a dirA q0)
    (ht : q0.getLsbD 0 = true ∧ pdeA = portAddr s (pdeAddr3 (maskEntry q0) a) ∧
      memRead8 s 1 pdeA = q1) : Directory3 s a dirA q0 pdeA q1 where
  toReads3 := h
  presentP := ht.1
  addrD    := ht.2.1
  reachD   := dispatch_reaches hd _
  readD    := ht.2.2

theorem table3 {s : State} {a : LAddr} {dirA pdeA pteA : PAddr} {q0 q1 q2 : Qword}
    (hd : s.cfg.ptAccess = .dispatch) (h : Directory3 s a dirA q0 pdeA q1)
    (ht : q1.getLsbD 0 = true ∧ q1.getLsbD 7 = false ∧
      pteA = portAddr s (pteAddr3 (maskEntry q1) a) ∧ memRead8 s 2 pteA = q2) :
    Table3 s a dirA q0 pdeA q1 pteA q2 where
  toDirectory3 := h
  present := ht.1
  small   := fun hm => by have := hm.1; rw [ht.2.1] at this; cases this
  addrT   := ht.2.2.1
  reachT  := dispatch_reaches hd _
  readT   := ht.2.2.2

/-- A walk is made: a fact that can be evaluated. -/
theorem walks {s : State} (h : s.abrt = 0 ∧ pg s = true) : Walks s := h

/-- TranslateSmallPageTwoLevel (vector W2). -/
theorem witness_TranslateSmallPageTwoLevel :
    Memory.wf (twoLevel 0x2007 0x5005).mem ∧ Walks (twoLevel 0x2007 0x5005) ∧
    Table2 (twoLevel 0x2007 0x5005) laddr2 0x1004 0x2007 0x200C 0x5005 ∧
    RamAt (twoLevel 0x2007 0x5005) 0x1004 4 ∧ RamAt (twoLevel 0x2007 0x5005) 0x200C 4 ∧
    (0x5005#32).getLsbD 0 = true ∧
    permOk (twoLevel 0x2007 0x5005) .twoLevel (0x5005#32 &&& 0x2007#32) true = true :=
  ⟨by decide +kernel, walks (by decide +kernel),
    table2 rfl (reads2 rfl (by decide +kernel)) (by decide +kernel), ram_everywhere rfl _ _,
    ram_everywhere rfl _ _, by decide, by decide +kernel⟩

/-- The self-referencing directory of vectors W17 and W18, where both entries are one location. -/
def selfMap : State :=
  { machine (dword 0x1FFC 0x1007 []) with cr0 := 0x80000000, cr3 := 0x1000 }

/-- TranslateSmallPageTwoLevel where the two entries are the same location (vector W18). -/
theorem witness_TranslateSmallPageTwoLevel_same :
    Memory.wf selfMap.mem ∧ Walks selfMap ∧
    Table2 selfMap 0xFFFFF004 0x1FFC 0x1007 0x1FFC 0x1007 ∧ RamAt selfMap 0x1FFC 4 ∧
    permOk selfMap .twoLevel (0x1007#32 &&& 0x1007#32) true = true ∧
    nextHas (exec (.translate true 0xFFFFF004) selfMap)
      (fun t => t.out.res == 0x1004 && mem32 t.mem 0x1FFC == 0x1067) = true :=
  ⟨by decide +kernel, walks (by decide +kernel),
    table2 rfl (reads2 rfl (by decide +kernel)) (by decide +kernel), ram_everywhere rfl _ _,
    by decide +kernel, by decide +kernel⟩

/-- TranslateLargePageTwoLevel (vector W12). -/
theorem witness_TranslateLargePageTwoLevel :
    Memory.wf (fourMB 0x00400087).mem ∧ Walks (fourMB 0x00400087) ∧
    Large2 (fourMB 0x00400087) 0x00001234 0x1000 0x00400087 ∧ RamAt (fourMB 0x00400087) 0x1000 4 ∧
    permOk (fourMB 0x00400087) .twoLevel (0x00400087#32) true = true :=
  ⟨by decide +kernel, walks (by decide +kernel),
    large2 (reads2 rfl (by decide +kernel)) (by decide +kernel), ram_everywhere rfl _ _, by decide +kernel⟩

/-- TranslateSmallPagePae (vector X2). -/
theorem witness_TranslateSmallPagePae :
    Memory.wf (threeLevel 0x4001 0x5007 0x123456007).mem ∧
    Walks (threeLevel 0x4001 0x5007 0x123456007) ∧
    Table3 (threeLevel 0x4001 0x5007 0x123456007) laddr3 0x3008 0x4001 0x4008 0x5007 0x5008
      0x123456007 ∧
    RamAt (threeLevel 0x4001 0x5007 0x123456007) 0x4008 4 ∧
    RamAt (threeLevel 0x4001 0x5007 0x123456007) 0x5008 4 ∧
    (0x123456007#64).getLsbD 0 = true ∧
    permOk (threeLevel 0x4001 0x5007 0x123456007) .pae (0x123456007#64 &&& 0x5007#64) true = true :=
  ⟨by decide +kernel, walks (by decide +kernel),
    table3 rfl (directory3 rfl (reads3 rfl (by decide +kernel)) (by decide +kernel)) (by decide +kernel),
    ram_everywhere rfl _ _, ram_everywhere rfl _ _, by decide, by decide +kernel⟩

/-- TranslateSmallPagePae where the two entries are the same location: a PAE directory that maps itself
(R104: "the second write sees the first"). -/
theorem witness_TranslateSmallPagePae_same :
    Memory.wf (threeLevel 0x4001 0x4007 0).mem ∧ Walks (threeLevel 0x4001 0x4007 0) ∧
    Table3 (threeLevel 0x4001 0x4007 0) laddr3 0x3008 0x4001 0x4008 0x4007 0x4008 0x4007 ∧
    RamAt (threeLevel 0x4001 0x4007 0) 0x4008 4 ∧ (0x4007#64).getLsbD 0 = true ∧
    permOk (threeLevel 0x4001 0x4007 0) .pae (0x4007#64 &&& 0x4007#64) true = true ∧
    nextHas (exec (.translate true laddr3) (threeLevel 0x4001 0x4007 0))
      (fun t => t.out.res == 0x4ABC && mem64 t.mem 0x4008 == 0x4067) = true :=
  ⟨by decide +kernel, walks (by decide +kernel),
    table3 rfl (directory3 rfl (reads3 rfl (by decide +kernel)) (by decide +kernel))
      (by decide +kernel),
    ram_everywhere rfl _ _, by decide, by decide +kernel, by decide +kernel⟩

/-- TranslateLargePagePae (vector X9, as supervisor and for a write). -/
theorem witness_TranslateLargePagePae :
    Memory.wf (threeLevel 0x4001 0x600085 0).mem ∧ Walks (threeLevel 0x4001 0x600085 0) ∧
    Directory3 (threeLevel 0x4001 0x600085 0) laddr3 0x3008 0x4001 0x4008 0x600085 ∧
    RamAt (threeLevel 0x4001 0x600085 0) 0x4008 4 ∧
    (0x600085#64).getLsbD 0 = true ∧ Maps2M (threeLevel 0x4001 0x600085 0) 0x600085 ∧
    permOk (threeLevel 0x4001 0x600085 0) .pae (0x600085#64) true = true :=
  ⟨by decide +kernel, walks (by decide +kernel),
    directory3 rfl (reads3 rfl (by decide +kernel)) (by decide +kernel), ram_everywhere rfl _ _,
      by decide, by unfold Maps2M; decide +kernel, by decide +kernel⟩

/-- NotPresentFaultsAtFirstLevel, the two-level clauses (vectors W6b and W7). -/
theorem witness_NotPresent_twoLevel :
    (Walks (twoLevel 0x2006 0x5005) ∧ Reads2 (twoLevel 0x2006 0x5005) laddr2 0x1004 0x2006 ∧
      (0x2006#32).getLsbD 0 = false) ∧
    (Walks (twoLevel 0x2007 0x5004) ∧
      Table2 (twoLevel 0x2007 0x5004) laddr2 0x1004 0x2007 0x200C 0x5004 ∧
      (0x5004#32).getLsbD 0 = false) :=
  ⟨⟨walks (by decide +kernel), reads2 rfl (by decide +kernel), by decide⟩,
    walks (by decide +kernel), table2 rfl (reads2 rfl (by decide +kernel)) (by decide +kernel), by decide⟩

/-- NotPresentFaultsAtFirstLevel, the PAE clauses (vectors X5, X7 and X8). -/
theorem witness_NotPresent_pae :
    (Walks (threeLevel 0x4000 0 0) ∧ Reads3 (threeLevel 0x4000 0 0) laddr3 0x3008 0x4000 ∧
      (0x4000#64).getLsbD 0 = false) ∧
    (Walks (threeLevel 0x4001 0x5006 0) ∧
      Directory3 (threeLevel 0x4001 0x5006 0) laddr3 0x3008 0x4001 0x4008 0x5006 ∧
      (0x5006#64).getLsbD 0 = false) ∧
    (Walks (threeLevel 0x4001 0x5007 0x123456000) ∧
      Table3 (threeLevel 0x4001 0x5007 0x123456000) laddr3 0x3008 0x4001 0x4008 0x5007 0x5008
        0x123456000 ∧ (0x123456000#64).getLsbD 0 = false) :=
  ⟨⟨walks (by decide +kernel), reads3 rfl (by decide +kernel), by decide⟩,
   ⟨walks (by decide +kernel), directory3 rfl (reads3 rfl (by decide +kernel)) (by decide +kernel), by decide⟩,
    walks (by decide +kernel),
    table3 rfl (directory3 rfl (reads3 rfl (by decide +kernel)) (by decide +kernel)) (by decide +kernel),
    by decide⟩

/-- The start state of vector W4: a user. -/
def userTwoLevel : State := { twoLevel 0x2007 0x5005 with cpl := 3 }

/-- DeniedLeafFaults, the two-level clauses (vectors W16 and W4). -/
theorem witness_DeniedLeaf_twoLevel :
    (Walks (fourMB 0x004000A5) ∧ Large2 (fourMB 0x004000A5) 0x00001234 0x1000 0x004000A5 ∧
      permOk (fourMB 0x004000A5) .twoLevel (0x004000A5#32) true = false) ∧
    (Walks userTwoLevel ∧ Table2 userTwoLevel laddr2 0x1004 0x2007 0x200C 0x5005 ∧
      (0x5005#32).getLsbD 0 = true ∧
      permOk userTwoLevel .twoLevel (0x5005#32 &&& 0x2007#32) true = false) :=
  ⟨⟨walks (by decide +kernel), large2 (reads2 rfl (by decide +kernel)) (by decide +kernel),
      by decide +kernel⟩,
    walks (by decide +kernel), table2 rfl (reads2 rfl (by decide +kernel)) (by decide +kernel), by decide,
    by decide +kernel⟩

/-- A PAE machine with `CR0.WP` set (program P2, step 12). -/
def protectedPae (pde pte : Qword) : State :=
  { threeLevel 0x4001 pde pte with cr0 := 0x80010000 }

/-- DeniedLeafFaults, the PAE clauses, a supervisor write with `CR0.WP`. -/
theorem witness_DeniedLeaf_pae :
    (Walks (protectedPae 0x600085 0) ∧
      Directory3 (protectedPae 0x600085 0) laddr3 0x3008 0x4001 0x4008 0x600085 ∧
      (0x600085#64).getLsbD 0 = true ∧ Maps2M (protectedPae 0x600085 0) 0x600085 ∧
      permOk (protectedPae 0x600085 0) .pae (0x600085#64) true = false) ∧
    (Walks (protectedPae 0x5007 0x123456005) ∧
      Table3 (protectedPae 0x5007 0x123456005) laddr3 0x3008 0x4001 0x4008 0x5007 0x5008
        0x123456005 ∧ (0x123456005#64).getLsbD 0 = true ∧
      permOk (protectedPae 0x5007 0x123456005) .pae (0x123456005#64 &&& 0x5007#64) true = false) :=
  ⟨⟨walks (by decide +kernel), directory3 rfl (reads3 rfl (by decide +kernel)) (by decide +kernel), by decide,
      by unfold Maps2M; decide +kernel, by decide +kernel⟩,
    walks (by decide +kernel),
    table3 rfl (directory3 rfl (reads3 rfl (by decide +kernel)) (by decide +kernel)) (by decide +kernel),
    by decide, by decide +kernel⟩

/-- FaultActionWritesThreeRegisters (vector W3). -/
theorem witness_FaultAction :
    ({ twoLevel 0x2007 0x5005 with cr0 := 0x80010000 } : State).abrt = 0 ∧
    ∃ t, exec (.translate true laddr2) { twoLevel 0x2007 0x5005 with cr0 := 0x80010000 } = .next t ∧
      (t.abrt != 0 && t.abrtErr == 3 && t.cr2 == laddr2) = true :=
  ⟨by decide +kernel, exists_next (by decide +kernel)⟩

/-- SilentWalkAnswersAlike, where TRANSLATE succeeds, where it faults, and with an abort pending. -/
theorem witness_SilentWalkAnswersAlike :
    (PortTotal (twoLevel 0x2007 0x5005) ∧ (twoLevel 0x2007 0x5005).abrt = 0 ∧
      ∃ t, exec (.translate false laddr2) (twoLevel 0x2007 0x5005) = .next t ∧
        (t.abrt == 0) = true) ∧
    (PortTotal (twoLevel 0x2007 0x5004) ∧
      ∃ t, exec (.translate false laddr2) (twoLevel 0x2007 0x5004) = .next t ∧
        (t.abrt != 0) = true) ∧
    (PortTotal { machine [] with abrt := 0x0E } ∧ ({ machine [] with abrt := 0x0E } : State).abrt ≠ 0) :=
  ⟨⟨.inl rfl, by decide +kernel, exists_next (by decide +kernel)⟩,
   ⟨.inl rfl, exists_next (by decide +kernel)⟩, .inl rfl, by decide +kernel⟩

/-- TranslateIgnoresCaches. -/
theorem witness_TranslateIgnoresCaches :
    ∃ t, exec (.translate false laddr2) (twoLevel 0x2007 0x5005) = .next t ∧
      (t.out.res == 0x5ABC) = true := exists_next (by decide +kernel)

/-- UserTranslationHasUserRights (vector W12). -/
theorem witness_UserTranslationHasUserRights :
    (fourMB 0x00400087).abrt = 0 ∧ (fourMB 0x00400087).cpl = 3 ∧ (fourMB 0x00400087).ovr = false ∧
    ∃ t, exec (.translate true 0x00001234) (fourMB 0x00400087) = .next t ∧ (t.abrt == 0) = true :=
  ⟨by decide +kernel, by decide +kernel, by decide +kernel, exists_next (by decide +kernel)⟩

/-- Where the write-backs of vector W2 go. -/
theorem walkStores_twoLevel :
    walkStores (twoLevel 0x2007 0x5005) true laddr2 = [0x1004, 0x200C] := by decide +kernel

/-- WalkStoresOnlyItsEntries: a byte just above the PTE, for TRANSLATE and for an ACCESS that misses. -/
theorem witness_WalkStoresOnlyItsEntries_walk :
    (∀ e ∈ walkStores (twoLevel 0x2007 0x5005) true laddr2, Outside 0x2010 e 4) ∧
    (∃ t, exec (.translate true laddr2) (twoLevel 0x2007 0x5005) = .next t ∧
      (t.abrt == 0) = true) ∧
    laddr2.toNat % 4096 + sizeBytes .b4 ≤ 4096 ∧
    ∃ t, exec (.access true .b4 laddr2) (twoLevel 0x2007 0x5005) = .next t ∧ (t.abrt == 0) = true := by
  refine ⟨?_, exists_next (by decide +kernel), by decide, exists_next (by decide +kernel)⟩
  rw [walkStores_twoLevel]
  intro e he
  rcases List.mem_pair.mp he with rfl | rfl <;> exact .inr (by decide)

/-- WalkStoresOnlyItsEntries: an ACCESS that hits. -/
theorem witness_WalkStoresOnlyItsEntries_hit :
    ∃ k, lookup (cached [slot10 0x07 false] []) false
      (cacheFor false (cached [slot10 0x07 false] [])) (lpageOf 0x00010FFC) = some k :=
  ⟨slot10 0x07 false, by decide +kernel⟩

/-! ## Witnesses: the port -/

/-- PortIsLittleEndian: the last 4 and the last 8 bytes of the address space. -/
theorem witness_PortIsLittleEndian :
    Memory.wf (machine []).mem ∧ RamAt (machine []) 0xFFFFFFFFFC 4 ∧
    (0xFFFFFFFFFC#40).toNat + 4 ≤ 2 ^ 40 ∧
    RamAt (machine []) 0xFFFFFFFFF8 8 ∧ (0xFFFFFFFFF8#40).toNat + 8 ≤ 2 ^ 40 ∧
    Outside 0xFFFFFFFFFB 0xFFFFFFFFFC 4 :=
  ⟨by decide +kernel, ram_everywhere rfl _ _, by decide, ram_everywhere rfl _ _, by decide,
    by unfold Outside; decide⟩

/-- UnmappedSpaceReadsAllOnes: the first bytes above a machine with one page of RAM. -/
theorem witness_UnmappedSpaceReadsAllOnes :
    let s : State := { machine [] with env := ⟨[⟨0, 0x1000, .ram⟩], [], []⟩ }
    UnmappedAt s 0x1000 4 ∧ UnmappedAt s 0x1000 8 := by
  unfold UnmappedAt; decide +kernel

/-- UnmappedSpaceReadsAllOnes, a directory above one page of RAM (vector W19). -/
theorem witness_UnmappedSpace_walk :
    let s : State := { machine [] with
      env := ⟨[⟨0, 0x1000, .ram⟩], [], []⟩, cr0 := 0x80000000, cr3 := 0x1000, cr4 := 0x10 }
    (s.abrt = 0 ∧ pg s = true) ∧ s.cfg.ptAccess = .dispatch ∧ pae s = false ∧ pse s = true ∧
    0x1004 = portAddr s ((pdeAddr2 s.cr3 laddr2).setWidth 40) ∧ UnmappedAt s 0x1004 4 := by
  unfold UnmappedAt; decide +kernel

/-- UnmappedSpaceReadsAllOnes, a PAE directory just above the RAM. -/
theorem witness_UnmappedSpace_pae :
    let s : State := { threeLevel 0x4001 0 0 with env := ⟨[⟨0, 0x4000, .ram⟩], [], []⟩ }
    Walks s ∧ s.cfg.ptAccess = .dispatch ∧ Reads3 s laddr3 0x3008 0x4001 ∧
    (0x4001#64).getLsbD 0 = true ∧ (s.cfg.paeLargeNeedsPse = true → pse s = true) ∧
    0x4008 = portAddr s (pdeAddr3 (maskEntry 0x4001) laddr3) ∧ UnmappedAt s 0x4008 8 :=
  ⟨walks (by decide +kernel), by decide +kernel, reads3 rfl (by decide +kernel), by decide,
    by decide +kernel, by decide +kernel, by unfold UnmappedAt; decide +kernel⟩

/-- PortAccessesAreAligned. -/
theorem witness_PortAccessesAreAligned :
    ∃ t, exec (.translate false laddr3) (threeLevel 0x4001 0x5007 0x0000000123456007) = .next t ∧
      (t.portLog.length == 7) = true := exists_next (by decide +kernel)

/-- The walk of 95_test_vectors.md 2.2 under `DIRECT_RAM`, with RAM of the given size. -/
def direct (ram : Nat) : State :=
  { twoLevel 0x2007 0x5005 with
    cfg := { cacheBits := 1, ptAccess := .directRam }, env := ⟨[⟨0, ram, .ram⟩], [], []⟩ }

/-- The walk of 95_test_vectors.md 2.3 under `DIRECT_RAM`, with RAM of the given size. -/
def direct3 (ram : Nat) : State :=
  { threeLevel 0x4001 0x5007 0x123456007 with
    cfg := { cacheBits := 1, ptAccess := .directRam }, env := ⟨[⟨0, ram, .ram⟩], [], []⟩ }

/-- PtAccessOnlyRefuses: a walk that `DIRECT_RAM` reaches, and one whose first entry it does not, by
each translating command with a cold cache. -/
theorem witness_PtAccessOnlyRefuses :
    (∃ t, exec (.translate true laddr2) (direct 0x10000) = .next t ∧ (t.out.res == 0x5ABC) = true) ∧
    (Walks (direct 0x1004) ∧ (direct 0x1004).cfg.ptAccess = .directRam ∧
      laddr2.toNat % 4096 + sizeBytes .b4 ≤ 4096 ∧
      ∀ k ∈ (direct 0x1004).wc.slots, k.valid = false) ∧
    exec (.translate true laddr2) (direct 0x1004) = .refused .directRamOutsideRam ∧
    exec (.translateNoabrt true laddr2) (direct 0x1004) = .refused .directRamOutsideRam ∧
    exec (.access true .b4 laddr2) (direct 0x1004) = .refused .directRamOutsideRam :=
  ⟨exists_next (by decide +kernel),
    ⟨walks (by decide +kernel), by decide +kernel, by decide, by decide +kernel⟩, by rfl, by rfl,
    by rfl⟩

/-- PtAccessOnlyRefuses: each entry of the two-level walk outside RAM, the level before it in RAM. -/
theorem witness_FetchesOutsideRam_twoLevel :
    FetchesOutsideRam (direct 0x1004) laddr2 ∧ FetchesOutsideRam (direct 0x200C) laddr2 := by
  refine ⟨.directory2 (by decide +kernel) (by unfold RamAt; decide +kernel),
    .table2 (pdeA := 0x1004) (pde := 0x2007) ⟨?_, ?_, ?_, ?_⟩ ?_ ?_ (by unfold RamAt; decide +kernel)⟩
  all_goals decide +kernel

/-- The PDPTE of `direct3`, when RAM holds it. -/
theorem reads3_direct3 {ram : Nat} (h : pae (direct3 ram) = true ∧
    0x3008 = portAddr (direct3 ram) ((pdpteAddr3 (direct3 ram).cr3 laddr3).setWidth 40) ∧
    portReaches (direct3 ram) (.read8 0x3008 0x4001) = true ∧
    memRead8 (direct3 ram) 0 0x3008 = 0x4001) : Reads3 (direct3 ram) laddr3 0x3008 0x4001 :=
  ⟨h.1, h.2.1, h.2.2.1, h.2.2.2⟩

/-- PtAccessOnlyRefuses: each entry of the PAE walk outside RAM, the levels before it in RAM. -/
theorem witness_FetchesOutsideRam_pae :
    FetchesOutsideRam (direct3 0x3008) laddr3 ∧ FetchesOutsideRam (direct3 0x4008) laddr3 ∧
    FetchesOutsideRam (direct3 0x5008) laddr3 := by
  refine ⟨.pdpte3 (by decide +kernel) (by unfold RamAt; decide +kernel),
    .directory3 (reads3_direct3 (by decide +kernel)) (by decide) (by unfold RamAt; decide +kernel),
    .table3 (pdeA := 0x4008) (q1 := 0x5007)
      ⟨reads3_direct3 (by decide +kernel), ?_, ?_, ?_, ?_⟩ (by decide)
      (by unfold Maps2M; decide +kernel) (by unfold RamAt; decide +kernel)⟩
  all_goals decide +kernel

/-- PtAccessOnlyRefuses, a straddling ACCESS: the first part refused, and the second part refused after
the first, whose page was cached. -/
theorem witness_PtAccessOnlyRefuses_split :
    let a : LAddr := 0x00403FFE
    let s : State := direct 0x1004
    let u : State := { direct 0x1004 with rc := ⟨[⟨true, 0x00403, 0x5, 0x05, false⟩, Slot.empty], 1⟩ }
    s.abrt = 0 ∧ a.toNat % 4096 + 2 = 4096 ∧ 2 < sizeBytes .b4 ∧
    exec (.access false .b1 a) s = .refused .directRamOutsideRam ∧
    ∃ t, exec (.access false .b1 a) u = .next t ∧
      t.abrt = 0 ∧ exec (.access false .b1 (a + 2)) t = .refused .directRamOutsideRam := by
  refine ⟨by decide +kernel, by decide, by decide, by rfl, ?_⟩
  exact ⟨_, rfl, by decide +kernel, by rfl⟩

/-! ## Witnesses: the caches -/

theorem cached_caches {rc wc : Slot} (h : rc.route = false) : CachesWf (cached [rc] [wc]) where
  rc := ⟨rfl, show 1 < 2 by decide, by simp [cached, machine, Slot.empty]⟩
  wc := ⟨rfl, show 1 < 2 by decide, by simp [cached, machine, Slot.empty]⟩
  noRoute := by simp [cached, Slot.empty, h]

/-- LookupReadAnswers: a hit, and a slot that is denied (vector C10). -/
theorem witness_LookupReadAnswers :
    (let s := cached [slot10 0x01 false] [slot10 0x01 false]
     slot10 0x01 false ∈ s.rc.slots ∧ CacheWf s.cfg.cacheSize s.rc ∧
      (slot10 0x01 false).valid = true ∧ (slot10 0x01 false).lpage = 0x10 ∧
      permOk s (walkMode s) (slot10 0x01 false).perm false = true) ∧
    (let s : State := { cached [slot10 0x01 false] [slot10 0x01 false] with cpl := 3 }
     ∀ t ∈ s.rc.slots, t.valid = true → t.lpage = 0x10 →
        permOk s (walkMode s) t.perm false = false) :=
  ⟨⟨by decide +kernel, (cached_caches rfl).rc, by decide, by decide, by decide +kernel⟩,
    by decide +kernel⟩

/-- LookupWriteAnswers: a hit, and a slot that is denied (vector C9). -/
theorem witness_LookupWriteAnswers :
    (let s := cached [slot10 0x05 false] [slot10 0x05 true]
     slot10 0x05 true ∈ s.wc.slots ∧ CacheWf s.cfg.cacheSize s.wc ∧
      (slot10 0x05 true).valid = true ∧ (slot10 0x05 true).lpage = 0x10 ∧
      permOk s (walkMode s) (slot10 0x05 true).perm true = true) ∧
    (let s : State := { cached [slot10 0x05 false] [slot10 0x05 true] with cpl := 3 }
     ∀ t ∈ s.wc.slots, t.valid = true → t.lpage = 0x10 →
        permOk s (walkMode s) t.perm true = false) :=
  ⟨⟨by decide +kernel, (cached_caches rfl).wc, by decide, by decide, by decide +kernel⟩,
    by decide +kernel⟩

/-- InsertReadFillsCursorSlot and InsertWriteFillsCursorSlot: a page held, and one not held. -/
theorem witness_InsertFillsCursorSlot :
    let s := cached [slot10 0x07 false] [slot10 0x07 true]
    (∃ t ∈ s.rc.slots, t.valid = true ∧ t.lpage = 0x10) ∧
    (∀ t ∈ s.rc.slots, t.valid = true → t.lpage ≠ 0x11) ∧
    (∃ t ∈ s.wc.slots, t.valid = true ∧ t.lpage = 0x10) ∧
    (∀ t ∈ s.wc.slots, t.valid = true → t.lpage ≠ 0x11) := by decide +kernel

/-- FlushWritePageDropsThatPage: a slot of the page. -/
theorem witness_FlushWritePageDropsThatPage :
    (cached [slot10 0x07 false] [slot10 0x07 true]).wc.slots[0]? = some (slot10 0x07 true) ∧
    (slot10 0x07 true).ppage = 0x20 := by decide +kernel

/-- InsertedPageIsFound, both caches. -/
theorem witness_InsertedPageIsFound :
    let s := cached [slot10 0x07 false] [slot10 0x07 true]
    CachesWf s ∧ (∀ t ∈ s.rc.slots, t.valid = true → t.lpage ≠ 0x11) ∧
    permOk s (walkMode s) s.lastPerm false = true ∧
    (∀ t ∈ s.wc.slots, t.valid = true → t.lpage ≠ 0x11) ∧
    permOk s (walkMode s) s.lastPerm true = true :=
  ⟨cached_caches rfl, by decide +kernel, by decide +kernel, by decide +kernel, by decide +kernel⟩

/-- RoundRobinFillsWholeCache: two pages in a cache of two slots. -/
theorem witness_RoundRobinFillsWholeCache :
    let s := cached [slot10 0x07 false] [slot10 0x07 true]
    let l : List (LPage × PPage) := [(0x1, 0x11), (0x2, 0x12)]
    CachesWf s ∧ l.length = s.cfg.cacheSize ∧ (l.map Prod.fst).Nodup ∧
    (∀ p ∈ l, ∀ t ∈ s.rc.slots, t.valid = true → t.lpage ≠ p.1) ∧
    ∀ p ∈ l, ∀ t ∈ s.wc.slots, t.valid = true → t.lpage ≠ p.1 := by
  refine ⟨cached_caches rfl, by decide +kernel, by decide +kernel, fun p hp => ?_, fun p hp => ?_⟩ <;>
    rcases List.mem_pair.mp hp with rfl | rfl <;> decide +kernel

/-! ## Witnesses: the front-end -/

/-- AccessSplitsAtPageBoundary: the last address that fits and the first that does not. -/
theorem witness_AccessSplitsAtPageBoundary :
    (0x00000FFC#32).toNat % 4096 + sizeBytes .b4 ≤ 0x1000 ∧
    0x1000 < (0x00000FFD#32).toNat % 4096 + sizeBytes .b4 := by decide

/-- AccessHitMakesNoWalk, for a read and for a write. -/
theorem witness_AccessHitMakesNoWalk :
    let s := cached [slot10 0x07 false] [slot10 0x07 true]
    s.abrt = 0 ∧ CachesWf s ∧ (0x00010FF8#32).toNat % 4096 + sizeBytes .b8 ≤ 4096 ∧
    slot10 0x07 false ∈ s.rc.slots ∧ slot10 0x07 true ∈ s.wc.slots ∧
    (slot10 0x07 false).valid = true ∧ (slot10 0x07 true).valid = true ∧
    (slot10 0x07 false).lpage = (0x00010FF8#32).extractLsb 31 12 ∧
    permOk s (walkMode s) (slot10 0x07 false).perm false = true ∧
    permOk s (walkMode s) (slot10 0x07 true).perm true = true :=
  ⟨by decide +kernel, cached_caches rfl, by decide, by decide +kernel, by decide +kernel, by decide,
    by decide, by decide, by decide +kernel, by decide +kernel⟩

/-- AccessMissTranslatesThenInserts: a cold cache, where the walk succeeds and where it faults. -/
theorem witness_AccessMissTranslatesThenInserts :
    (twoLevel 0x2007 0x5005).abrt = 0 ∧ laddr2.toNat % 4096 + sizeBytes .b4 ≤ 4096 ∧
    (∀ k ∈ (twoLevel 0x2007 0x5005).wc.slots, k.valid = false) ∧
    (∃ t, exec (.translate true laddr2) (twoLevel 0x2007 0x5005) = .next t ∧
      (t.abrt == 0) = true) ∧
    (∀ k ∈ (twoLevel 0x2007 0x5004).wc.slots, k.valid = false) ∧
    ∃ t, exec (.translate true laddr2) (twoLevel 0x2007 0x5004) = .next t ∧ (t.abrt != 0) = true :=
  ⟨by decide +kernel, by decide, by decide +kernel, exists_next (by decide +kernel),
    by decide +kernel, exists_next (by decide +kernel)⟩

/-- AccessMissTranslatesThenInserts: a slot that holds the page and is denied. -/
theorem witness_AccessMiss_denied :
    let s : State := { cached [slot10 0x07 false] [slot10 0x05 false] with cpl := 3 }
    slot10 0x05 false ∈ s.wc.slots ∧ (slot10 0x05 false).valid = true ∧ s.abrt = 0 ∧
    (0x00010FFC#32).toNat % 4096 + sizeBytes .b4 ≤ 4096 ∧
    (∀ k ∈ s.wc.slots, k.valid = true → k.lpage = (0x00010FFC#32).extractLsb 31 12 →
      permOk s (walkMode s) k.perm true = false) ∧
    ∃ t, exec (.translate true 0x00010FFC) s = .next t ∧ (t.abrt == 0) = true :=
  ⟨by decide +kernel, by decide, by decide +kernel, by decide, by decide +kernel,
    exists_next (by decide +kernel)⟩

/-- SplitAccessIsTwoAccesses and SplitAccessPagingOff: both parts succeed (vector F5). -/
theorem witness_SplitAccess :
    (machine []).abrt = 0 ∧ (machine []).cr0.getLsbD 31 = false ∧ (machine []).env.codePages = [] ∧
    (∀ k ∈ (machine []).rc.slots ++ (machine []).wc.slots, k.valid = false) ∧
    (0xFFFFFFFC#32).toNat % 4096 + 4 = 4096 ∧ 4 < sizeBytes .b8 ∧
    ∃ t, exec (.access false .b1 0xFFFFFFFC) (machine []) = .next t ∧
      (t.abrt == 0 && nextHas (exec (.access false .b1 (0xFFFFFFFC + 4)) t)
        (fun u => u.abrt == 0)) = true :=
  ⟨by decide +kernel, by decide +kernel, by decide +kernel, by decide +kernel, by decide, by decide,
    exists_next (by decide +kernel)⟩

/-- SplitAccessIsTwoAccesses: the first part faults; and the second faults (vector F7). -/
theorem witness_SplitAccess_faults :
    (∃ t, exec (.access true .b1 0x00000FFE)
        { machine [] with cr0 := 0x80000000, cr3 := 0x1000 } = .next t ∧ (t.abrt != 0) = true) ∧
    ∃ t, exec (.access true .b1 0x00000FFE)
        { machine (dword 0x1000 0x2007 (dword 0x2000 0x3007 [])) with
          cr0 := 0x80000000, cr3 := 0x1000 } = .next t ∧
      (t.abrt == 0 && nextHas (exec (.access true .b1 (0x00000FFE + 2)) t)
        (fun u => u.abrt != 0)) = true :=
  ⟨exists_next (by decide +kernel), exists_next (by decide +kernel)⟩

/-- PendingAbortIsCarried. -/
theorem witness_PendingAbortIsCarried :
    ({ machine [] with abrt := 0x0E } : State).abrt ≠ 0 ∧
    ([.access true .b8 0xFFF, .translate false 0] : List Instr) ≠ [] ∧
    ∀ i ∈ ([.access true .b8 0xFFF, .translate false 0] : List Instr), Translating i := by
  refine ⟨by decide +kernel, by decide, ?_⟩
  simp [Translating]

/-- ReadsAndWritesKeepApart: a write and a read that fault, and a read that succeeds. -/
theorem witness_ReadsAndWritesKeepApart :
    (twoLevel 0x2007 0x5004).abrt = 0 ∧
    (∃ t, exec (.access true .b4 laddr2) (twoLevel 0x2007 0x5004) = .next t ∧
      (t.abrt != 0) = true) ∧
    (∃ t, exec (.access false .b4 laddr2) (twoLevel 0x2007 0x5004) = .next t ∧
      (t.abrt != 0) = true) ∧
    ∃ t, exec (.access false .b4 laddr2) (twoLevel 0x2007 0x5005) = .next t ∧ (t.abrt == 0) = true :=
  ⟨by decide +kernel, exists_next (by decide +kernel), exists_next (by decide +kernel),
    exists_next (by decide +kernel)⟩

/-- CachedPagesStayMasked: a masked access (vector F6) and a split access whose second part is masked,
from a state whose cached pages are masked. -/
theorem witness_CachedPagesStayMasked :
    let s : State := { machine [] with rammask := 0xFFFFEFFFFF }
    PagesMasked s ∧ (∃ t, exec (.access false .b1 0xFFFFFFFF) s = .next t ∧
      (t.abrt == 0 && t.out.res == 0xFFEFFFFF) = true) ∧
    ∃ t, exec (.access false .b2 0x000FFFFF) s = .next t ∧
      (t.abrt == 0 && t.out.res == 0x000FFFFF && t.out.res1 == 0x00000000) = true :=
  ⟨⟨by decide +kernel, by decide +kernel⟩, exists_next (by decide +kernel),
    exists_next (by decide +kernel)⟩

/-- RepeatedAccessHitsAlike, where another page is not cacheable. -/
theorem witness_RepeatedAccessHitsAlike :
    let s : State := { machine [] with env := ⟨[⟨0, 2 ^ 40, .ram⟩], [(0xA0, true)], []⟩ }
    s.abrt = 0 ∧ CachesWf s ∧ (0x000B8FFF#32).toNat % 4096 + sizeBytes .b1 ≤ 4096 ∧
    (∀ k ∈ s.wc.slots, k.valid = true → k.lpage ≠ (0x000B8FFF#32).extractLsb 31 12) ∧
    s.rammask.extractLsb 11 0 = 0xFFF#12 ∧
    ∃ t, exec (.access true .b1 0x000B8FFF) s = .next t ∧ (t.abrt == 0 &&
      decide ((ppageOf (t.out.res.setWidth 40), true) ∉ s.env.uncacheable)) = true :=
  ⟨by decide +kernel, ⟨(machine_caches []).rc, (machine_caches []).wc, (machine_caches []).noRoute⟩,
    by decide, by decide +kernel, by decide +kernel, exists_next (by decide +kernel)⟩

/-! ## Witnesses: control and whole-machine rules -/

/-- ModeLoadsFlushOnChange: PG changes, only WP changes, PSE changes, PAE changes, neither changes. -/
theorem witness_ModeLoadsFlushOnChange :
    ((machine []).cfg.flushOnModeChange = true ∧
      (machine []).cr0.getLsbD 31 ≠ (0x80000000#32).getLsbD 31) ∧
    ¬((machine []).cfg.flushOnModeChange = true ∧
      (machine []).cr0.getLsbD 31 ≠ (0x00010000#32).getLsbD 31) ∧
    ((machine []).cr4.getLsbD 4 ≠ (0x10#32).getLsbD 4) ∧
    ((machine []).cr4.getLsbD 5 ≠ (0x20#32).getLsbD 5) ∧
    ¬((machine []).cfg.flushOnModeChange = true ∧
      ((machine []).cr4.getLsbD 4 ≠ (0x80#32).getLsbD 4 ∨
        (machine []).cr4.getLsbD 5 ≠ (0x80#32).getLsbD 5)) := by decide +kernel

/-- OnlyNamedCommandsWrite. -/
theorem witness_OnlyNamedCommandsWrite :
    ∃ t, exec (.setRammask 0xFFFFEFFFFF) (machine []) = .next t ∧
      (t.rammask == 0xFFFFEFFFFF) = true := exists_next (by decide +kernel)

/-- EveryCommandCompletes: `DISPATCH`; `DIRECT_RAM` on a machine that is all RAM; an open block. -/
theorem witness_EveryCommandCompletes :
    PortTotal (machine []) ∧
    PortTotal { machine [] with cfg := { cacheBits := 1, ptAccess := .directRam } } ∧
    (machine []).closed = false := by
  refine ⟨.inl rfl, .inr fun a => ?_, by decide +kernel⟩
  have := ram_everywhere (s := machine []) rfl a 1 0 (by decide)
  rwa [show BitVec.ofNat 40 0 = 0#40 from rfl, BitVec.add_zero] at this

/-- SupervisorLevelsAreAlike. -/
theorem witness_SupervisorLevelsAreAlike :
    (machine []).cpl ≠ 3 ∧ (2 : BitVec 2) ≠ 3 ∧
    (∀ v o, Instr.access true .b4 laddr2 ≠ .setPriv v o) ∧
    ∃ t, exec (.access true .b4 laddr2) (machine []) = .next t ∧ (t.abrt == 0) = true :=
  ⟨by decide +kernel, by decide, (fun _ _ h => by cases h), exists_next (by decide +kernel)⟩

end Sys2Proof.Tests
end

section
/-! PROOFS. The scope of the block (00_scope.md R6): what a command and a step can answer. -/

namespace Sys2Proof.Machine

/-- What a command, and the step of an open block, can answer: a next state, or R41's refusal in a
state whose port does not reach every address. -/
def CompletesOrRefuses (s : State) (o : Host.Outcome State Fault Refusal) : Prop :=
  (∃ t, o = .next t) ∨ (o = .refused .directRamOutsideRam ∧ ¬PortTotal s)

theorem CompletesOrRefuses.next (s t : State) : CompletesOrRefuses s (.next t) := .inl ⟨t, rfl⟩

/-- Where the port reaches every address, there is no refusal. -/
theorem CompletesOrRefuses.completes {s : State} {o : Host.Outcome State Fault Refusal}
    (h : CompletesOrRefuses s o) (ht : PortTotal s) : ∃ t, o = .next t :=
  h.resolve_right fun ⟨_, hn⟩ => hn ht

/-! ## Where the port reaches every address -/

/-- Only the parameters and the platform decide what the port reaches (R41). -/
theorem portTotal_congr {s t : State} (hc : t.cfg = s.cfg) (he : t.env = s.env) :
    PortTotal t ↔ PortTotal s := by
  unfold PortTotal; rw [hc, he]

/-- A port that does not reach every address is a `DIRECT_RAM` port (R41). -/
theorem directRam_of_not_portTotal {s : State} (h : ¬PortTotal s) : s.cfg.ptAccess = .directRam := by
  cases hp : s.cfg.ptAccess with
  | directRam => rfl
  | dispatch => exact absurd (.inl hp) h

theorem PortTotal.reaches {s : State} (h : PortTotal s) (acc : PortAccess) :
    portReaches s acc = true := by
  rcases h with hd | hr
  · simp [portReaches, hd]
  · cases acc <;> simp [portReaches, allRam, hr]

/-- An access out of reach says the port does not reach every address. -/
theorem not_portTotal_of_reads {s : State} {l : List PortAccess}
    (h : l.all (portReaches s) = false) : ¬PortTotal s := fun ht => by
  rw [List.all_eq_true.mpr fun acc _ => ht.reaches acc] at h
  cases h

/-! ## The three commands that walk -/

/-- A refused walk is R41's. -/
theorem translate_refusal {w : Bool} {a : LAddr} {s : State} {r : Refusal}
    (h : translate w a s = .error r) : r = .directRamOutsideRam ∧ ¬PortTotal s := by
  obtain ⟨hr, -, -, hl⟩ := translate_error h
  exact ⟨hr, not_portTotal_of_reads hl⟩

/-- A sub-access leaves alone what decides the port's reach. -/
theorem translateCached_portTotal {w : Bool} {a : LAddr} {s t : State} {p : Option SubResult}
    (h : translateCached w a s = .ok (p, t)) : PortTotal t ↔ PortTotal s := by
  rcases translateCached_cases h with ⟨_, -, -, rfl⟩ | ⟨-, ht, -⟩ | ⟨-, q, u, hu, -, rfl⟩
  · rfl
  · rw [translate_frame ht]; rfl
  · rw [portTotal_congr (fillCache_cfg ..) (fillCache_env ..), translate_frame hu]; rfl

/-- The parts of an access are refused only as R41 says. -/
theorem translateSubs_refusal {w : Bool} {l : List SubAccess} {s : State} {r : Refusal}
    (h : translateSubs w l s = .error r) : r = .directRamOutsideRam ∧ ¬PortTotal s := by
  induction l generalizing s with
  | nil => cases h
  | cons x l ih =>
    rw [translateSubs] at h
    cases hx : translateCached w x.addr s with
    | error r' =>
      rw [hx] at h; cases h
      exact translate_refusal (translateCached_error hx)
    | ok pu =>
      obtain ⟨_ | p, u⟩ := pu <;> rw [hx] at h
      · cases h
      · have hl : translateSubs w l u = .error r := by
          dsimp only at h
          split at h
          · next hl => cases h; exact hl
          · cases h
          · cases h
        obtain ⟨hr, hu⟩ := ih hl
        exact ⟨hr, mt (translateCached_portTotal hx).mpr hu⟩

theorem execTranslate_completesOrRefuses (w : Bool) (a : LAddr) (s : State) :
    CompletesOrRefuses s (execTranslate w a s) := by
  unfold execTranslate
  split
  · next hr =>
    obtain ⟨rfl, hn⟩ := translate_refusal hr
    exact .inr ⟨rfl, hn⟩
  · exact .next ..

theorem execTranslateNoabrt_completesOrRefuses (w : Bool) (a : LAddr) (s : State) :
    CompletesOrRefuses s (execTranslateNoabrt w a s) := by
  unfold execTranslateNoabrt
  split
  · exact .next ..
  · split
    · exact .next ..
    · dsimp only
      split
      · next hl => exact .inr ⟨rfl, not_portTotal_of_reads (by simpa using hl)⟩
      · exact .next ..

theorem execAccess_completesOrRefuses (w : Bool) (sz : AccessSize) (a : LAddr) (s : State) :
    CompletesOrRefuses s (execAccess w sz a s) := by
  unfold execAccess
  split
  · exact .next ..
  · dsimp only
    split
    · next hr =>
      obtain ⟨rfl, hn⟩ := translateSubs_refusal hr
      exact .inr ⟨rfl, hn⟩
    · exact .next ..
    · exact .next ..

/-! ## Every command, every step -/

/-- Only the commands that walk can refuse; every other one answers a next state. -/
theorem exec_completesOrRefuses (i : Instr) (s : State) : CompletesOrRefuses s (exec i s) := by
  cases i with
  | translate w a => exact execTranslate_completesOrRefuses w a s
  | translateNoabrt w a => exact execTranslateNoabrt_completesOrRefuses w a s
  | access w sz a => exact execAccess_completesOrRefuses w sz a s
  | lookupRead | lookupWrite | insertRead | insertWrite | flush | flushWritePage | invalidate
  | writeCr0 | writeCr3 | writeCr4 | setRammask | setPriv | writeAbort => exact .next ..

/-- A word that decodes runs its instruction. -/
theorem runCommand_of_decode {c : Command} {i : Instr} (h : decode c = .ok i) (s : State) :
    runCommand c s = exec i (beginCommand s) := by
  unfold runCommand; rw [h]

/-- An illegal word completes (R64); a legal one is its instruction. -/
theorem runCommand_completesOrRefuses (c : Command) (s : State) :
    CompletesOrRefuses s (runCommand c s) := by
  unfold runCommand
  split
  · next i _ =>
    exact (exec_completesOrRefuses i (beginCommand s)).imp_right
      (And.imp_right (mt (portTotal_congr (beginCommand_cfg s) (beginCommand_env s)).mpr))
  · exact .next ..

theorem takeInput_completesOrRefuses (x : Input) (s : State) :
    CompletesOrRefuses s (takeInput x s) := by
  cases x with
  | command c => exact runCommand_completesOrRefuses c s
  | guestStore | setPlatform | reset | close => exact .next ..

/-- With nothing issued the block waits. -/
theorem step_waits {s : State} (h : s.inputs = []) : step s = .next s := by
  unfold step takeNext; rw [h]

/-- An open block takes the next input off its queue. -/
theorem step_takes {s : State} {x : Input} {rest : List Input} (ho : s.closed = false)
    (h : s.inputs = x :: rest) : step s = takeInput x { s with inputs := rest } := by
  unfold step takeNext; rw [h]; simp [ho]

theorem step_completesOrRefuses {s : State} (ho : s.closed = false) :
    CompletesOrRefuses s (step s) := by
  cases hi : s.inputs with
  | nil => rw [step_waits hi]; exact .next ..
  | cons x rest =>
    rw [step_takes ho hi]
    exact takeInput_completesOrRefuses x { s with inputs := rest }

end Sys2Proof.Machine

open Sys2Proof.Machine

/-- Settles O58: the commands that walk refuse only an entry out of the port's reach, and an open
block does nothing but wait, complete an input or run a command. -/
theorem everyCommandCompletes : Obligations.EveryCommandCompletes := by
  unfold Obligations.EveryCommandCompletes
  refine ⟨fun i s ht => (exec_completesOrRefuses i s).completes ht, fun s ho => ?_⟩
  exact (step_completesOrRefuses ho).imp_right (And.imp_right directRam_of_not_portTotal)

/-- Settles O6: an open block takes the command, and its word decodes. -/
theorem stepRunsIssuedCommand : Obligations.StepRunsIssuedCommand := by
  unfold Obligations.StepRunsIssuedCommand
  intro s c rest i ho hi hd
  calc step s = runCommand c { s with inputs := rest } := step_takes ho hi
    _ = exec i (beginCommand { s with inputs := rest }) := runCommand_of_decode hd _
end

section
/-! PROOFS. What every command and every step keep of the state (10_state.md): one principle over the
operations that the commands are made of, and from it the invariant of the block. -/

namespace Sys2Proof.Machine

/-! ## Cache contents -/

/-- A slot after a targeted flush is one from before, its valid bit cleared or not. -/
theorem mem_dropPage {pp : PPage} {c : Cache} {t : Slot} (h : t ∈ (c.dropPage pp).slots) :
    ∃ u ∈ c.slots, t = u ∨ t = clearValid u := by
  obtain ⟨u, hu, rfl⟩ := List.mem_map.mp h
  refine ⟨u, hu, ?_⟩
  split
  · exact .inr rfl
  · exact .inl rfl

theorem mem_empty {n : Nat} {t : Slot} (h : t ∈ (Cache.empty n).slots) : t = Slot.empty :=
  (List.mem_replicate.mp h).2

theorem cacheSize_pos (c : Config) : 0 < c.cacheSize := Nat.two_pow_pos c.cacheBits

/-! ## What commands keep -/

/-- A property of states that survives every operation the commands are made of: loads of the
registers no walk writes, outputs and port accesses, a translation, insertions and flushes. -/
structure Keeps (P : State → Prop) : Prop where
  loads : ∀ s cr0 cr3 cr4 cpl ovr rammask abrt, P s →
    P { s with cr0 := cr0, cr3 := cr3, cr4 := cr4, cpl := cpl, ovr := ovr, rammask := rammask,
               abrt := abrt }
  outputs : ∀ s o log count, P s → P { s with out := o, portLog := log, portCount := count }
  translate : ∀ w a s t p, translate w a s = .ok (p, t) → P s → P t
  insertRead : ∀ lp pp s, P s → P (insertReadSlot lp pp s)
  insertWrite : ∀ lp pp s, P s → P (insertWriteSlot lp pp s)
  flush : ∀ s, P s → P (flushCaches s)
  dropPage : ∀ pp s, P s → P { s with wc := s.wc.dropPage pp }

section
variable {P : State → Prop} {s t : State}

theorem Keeps.drive (h : Keeps P) (o : Outputs) (hs : P s) : P (drive o s) :=
  h.outputs s o s.portLog s.portCount hs

theorem Keeps.flushWhen (h : Keeps P) (b : Bool) (hs : P s) : P (flushWhen b s) := by
  cases b
  · exact hs
  · exact h.flush s hs

theorem Keeps.fillCache (h : Keeps P) (w : Bool) (lp : LPage) (pp : PPage) (hs : P s) :
    P (fillCache w lp pp s) := by
  unfold Machine.fillCache
  split
  · cases w
    · exact h.insertRead lp pp s hs
    · exact h.insertWrite lp pp s hs
  · exact hs

theorem Keeps.translateCached (h : Keeps P) (w : Bool) (a : LAddr) (s t : State)
    (p : Option SubResult) (hx : translateCached w a s = .ok (p, t)) (hs : P s) : P t := by
  rcases translateCached_cases hx with ⟨_, -, -, rfl⟩ | ⟨-, ht, -⟩ | ⟨-, q, u, hu, -, rfl⟩
  · exact hs
  · exact h.translate w a s t none ht hs
  · exact h.fillCache w _ _ (h.translate w a s u (some q) hu hs)

theorem Keeps.execTranslate (h : Keeps P) {w : Bool} {a : LAddr}
    (hx : execTranslate w a s = .next t) (hs : P s) : P t := by
  obtain ⟨p, u, hu, rfl⟩ := execTranslate_next hx
  exact h.drive _ (h.translate w a s u p hu hs)

/-- TRANSLATE_NOABRT writes nothing but the outputs and the model's port log (R111). -/
theorem execTranslateNoabrt_frame {w : Bool} {a : LAddr}
    (hx : execTranslateNoabrt w a s = .next t) :
    t = { s with out := t.out, portLog := t.portLog, portCount := t.portCount } := by
  unfold execTranslateNoabrt at hx
  split at hx
  · cases hx; rfl
  · split at hx
    · cases hx; rfl
    · dsimp only at hx
      split at hx <;> cases hx
      rfl

/-- Every command keeps what its operations keep. -/
theorem Keeps.exec (h : Keeps P) {i : Instr} (hx : exec i s = .next t) (hs : P s) : P t := by
  cases i with
  | translate w a => exact h.execTranslate hx hs
  | translateNoabrt w a =>
    rw [execTranslateNoabrt_frame hx]
    exact h.outputs s t.out t.portLog t.portCount hs
  | access w sz a => exact execAccess_keeps (h.translateCached w) (fun o _ => h.drive o) hx hs
  | lookupRead | lookupWrite => cases hx; exact h.drive _ hs
  | insertRead lp pp => cases hx; exact h.drive _ (h.insertRead lp pp s hs)
  | insertWrite lp pp => cases hx; exact h.drive _ (h.insertWrite lp pp s hs)
  | flush | invalidate => cases hx; exact h.drive _ (h.flush s hs)
  | flushWritePage pp => cases hx; exact h.drive _ (h.dropPage pp s hs)
  | writeCr0 v =>
    cases hx; exact h.drive _ (h.flushWhen _ (h.loads s v s.cr3 s.cr4 s.cpl s.ovr s.rammask s.abrt hs))
  | writeCr3 v =>
    cases hx; exact h.drive _ (h.flush _ (h.loads s s.cr0 v s.cr4 s.cpl s.ovr s.rammask s.abrt hs))
  | writeCr4 v =>
    cases hx; exact h.drive _ (h.flushWhen _ (h.loads s s.cr0 s.cr3 v s.cpl s.ovr s.rammask s.abrt hs))
  | setRammask m =>
    cases hx; exact h.drive _ (h.flush _ (h.loads s s.cr0 s.cr3 s.cr4 s.cpl s.ovr m s.abrt hs))
  | setPriv c o => cases hx; exact h.drive _ (h.loads s s.cr0 s.cr3 s.cr4 c o s.rammask s.abrt hs)
  | writeAbort c =>
    cases hx; exact h.drive _ (h.loads s s.cr0 s.cr3 s.cr4 s.cpl s.ovr s.rammask c hs)

end

/-! ## The parts of the invariant -/

theorem keeps_memoryWf : Keeps fun s => Memory.wf s.mem where
  loads _ _ _ _ _ _ _ _ h := h
  outputs _ _ _ _ h := h
  translate _ _ _ _ _ hx h := translate_wf hx h
  insertRead _ _ _ h := h
  insertWrite _ _ _ h := h
  flush _ h := h
  dropPage _ _ h := h

/-- Every command keeps both caches in good form (R22 to R25, R78). -/
theorem keeps_cachesWf : Keeps CachesWf where
  loads _ _ _ _ _ _ _ _ h := ⟨h.rc, h.wc, h.noRoute⟩
  outputs _ _ _ _ h := ⟨h.rc, h.wc, h.noRoute⟩
  translate _ _ _ _ _ hx h := by rw [translate_frame hx]; exact ⟨h.rc, h.wc, h.noRoute⟩
  insertRead _ _ _ h := by
    refine ⟨h.rc.insert _, h.wc, fun u hu => ?_⟩
    rcases mem_insert hu with rfl | hu
    · rfl
    · exact h.noRoute u hu
  insertWrite _ _ _ h := ⟨h.rc, h.wc.insert _, h.noRoute⟩
  flush _ h := by
    refine ⟨h.rc.flush, h.wc.flush, fun u hu => ?_⟩
    obtain ⟨v, hv, rfl⟩ := mem_flush hu
    exact h.noRoute v hv
  dropPage pp _ h := ⟨h.rc, h.wc.dropPage pp, h.noRoute⟩

/-- Every slot of a cache keeps the form of a permission byte (R76). -/
def PermsWf (c : Cache) : Prop := ∀ t ∈ c.slots, PermWf t.perm

theorem PermsWf.insert {c : Cache} (h : PermsWf c) {t : Slot} (ht : PermWf t.perm) (n : Nat) :
    PermsWf (c.insert n t) := fun u hu => by
  rcases mem_insert hu with rfl | hu
  · exact ht
  · exact h u hu

theorem PermsWf.flush {c : Cache} (h : PermsWf c) : PermsWf c.flush := fun u hu => by
  obtain ⟨v, hv, rfl⟩ := mem_flush hu
  exact h v hv

theorem PermsWf.dropPage {c : Cache} (h : PermsWf c) (pp : PPage) : PermsWf (c.dropPage pp) :=
  fun u hu => by
    obtain ⟨v, hv, e⟩ := mem_dropPage hu
    rcases e with rfl | rfl
    · exact h u hv
    · exact h v hv

theorem PermsWf.empty (n : Nat) : PermsWf (Cache.empty n) := fun u hu => by
  rw [mem_empty hu]
  decide

/-- Every command keeps the form of the fault and permission registers (R75, R76): an insertion
copies `LAST_PERM`, a flush clears valid bits only. -/
theorem keeps_fieldsWf : Keeps FieldsWf where
  loads _ _ _ _ _ _ _ _ h := ⟨h.errorCode, h.lastPerm, h.readPerm, h.writePerm⟩
  outputs _ _ _ _ h := ⟨h.errorCode, h.lastPerm, h.readPerm, h.writePerm⟩
  translate _ _ _ _ _ hx h := by
    have hf := translate_frame hx
    refine ⟨translate_errWf hx h.errorCode, translate_permWf hx h.lastPerm, ?_, ?_⟩
    · rw [hf]; exact h.readPerm
    · rw [hf]; exact h.writePerm
  insertRead _ _ _ h :=
    ⟨h.errorCode, h.lastPerm, PermsWf.insert h.readPerm h.lastPerm _, h.writePerm⟩
  insertWrite _ _ _ h :=
    ⟨h.errorCode, h.lastPerm, h.readPerm, PermsWf.insert h.writePerm h.lastPerm _⟩
  flush _ h := ⟨h.errorCode, h.lastPerm, PermsWf.flush h.readPerm, PermsWf.flush h.writePerm⟩
  dropPage pp _ h := ⟨h.errorCode, h.lastPerm, h.readPerm, PermsWf.dropPage h.writePerm pp⟩

/-- Every command keeps the invariant of the block. -/
theorem exec_inv {i : Instr} {s t : State} (h : exec i s = .next t) (hs : Inv s) : Inv t :=
  ⟨keeps_memoryWf.exec h hs.memory, keeps_cachesWf.exec h hs.caches, keeps_fieldsWf.exec h hs.fields⟩

/-- No command writes the parameters, the platform or the inputs still to come. -/
theorem exec_surroundings {i : Instr} {s t : State} (h : exec i s = .next t) :
    t.cfg = s.cfg ∧ t.env = s.env ∧ t.inputs = s.inputs ∧ t.closed = s.closed := by
  have keeps : Keeps fun u =>
      u.cfg = s.cfg ∧ u.env = s.env ∧ u.inputs = s.inputs ∧ u.closed = s.closed :=
    { loads := fun _ _ _ _ _ _ _ _ hu => hu
      outputs := fun _ _ _ _ hu => hu
      translate := fun _ _ _ _ _ hx hu => by rw [translate_frame hx]; exact hu
      insertRead := fun _ _ _ hu => hu
      insertWrite := fun _ _ _ hu => hu
      flush := fun _ hu => hu
      dropPage := fun _ _ hu => hu }
  exact keeps.exec h ⟨rfl, rfl, rfl, rfl⟩

/-! ## Counting slots -/

/-- At most one slot of a cache in good form holds a page (R25). -/
theorem CacheWf.countP_holds_le_one {n : Nat} {c : Cache} (h : CacheWf n c) (lp : LPage) :
    c.slots.countP (holds lp) ≤ 1 := by
  have hp := h.unique.filter (holds lp)
  have hh : ∀ u ∈ c.slots.filter (holds lp), u.valid = true ∧ u.lpage = lp := fun u hu =>
    holds_iff.mp (List.mem_filter.mp hu).2
  rw [List.countP_eq_length_filter]
  match c.slots.filter (holds lp), hp, hh with
  | [], _, _ | [_], _, _ => simp
  | u :: v :: _, hp, hh =>
    obtain ⟨hu, hul⟩ := hh u (by simp)
    obtain ⟨hv, hvl⟩ := hh v (by simp)
    exact absurd ⟨hu, hv, hul.trans hvl.symm⟩ (List.rel_of_pairwise_cons hp (by simp))

theorem CacheWf.countP_valid_le {n : Nat} {c : Cache} (h : CacheWf n c) :
    c.slots.countP (·.valid) ≤ n := h.length ▸ List.countP_le_length

/-! ## Steps -/

/-- With both caches empty and the fields of R75 and R76 at 0 the invariant asks only for canonical
memory (R240). -/
theorem inv_of_empty {s : State} (hm : Memory.wf s.mem) (hr : s.rc = Cache.empty s.cfg.cacheSize)
    (hw : s.wc = Cache.empty s.cfg.cacheSize) (he : s.abrtErr = 0) (hp : s.lastPerm = 0) : Inv s where
  memory := hm
  caches :=
    { rc := hr ▸ .empty (cacheSize_pos s.cfg)
      wc := hw ▸ .empty (cacheSize_pos s.cfg)
      noRoute := fun t ht => by rw [hr] at ht; rw [mem_empty ht]; rfl }
  fields :=
    { errorCode := by rw [he]; decide
      lastPerm := by rw [hp]; decide
      readPerm := hr ▸ PermsWf.empty _
      writePerm := hw ▸ PermsWf.empty _ }

/-- A command port runs the instruction of a legal word, and drives FAULT on any other (R64). -/
theorem runCommand_next {c : Command} {s t : State} (h : runCommand c s = .next t) :
    (∃ i, decode c = .ok i ∧ exec i (beginCommand s) = .next t) ∨
      t = drive faultOutputs (beginCommand s) := by
  unfold runCommand at h
  split at h
  · next i hi => exact .inl ⟨i, hi, h⟩
  · cases h; exact .inr rfl

/-- A step waits, or an open block takes the next input off its queue. -/
theorem step_next {s t : State} (h : step s = .next t) :
    (s.inputs = [] ∧ t = s) ∨
      ∃ x rest, s.inputs = x :: rest ∧ s.closed = false ∧
        takeInput x { s with inputs := rest } = .next t := by
  cases hi : s.inputs with
  | nil =>
    rw [step_waits hi] at h
    cases h; exact .inl ⟨rfl, rfl⟩
  | cons x rest =>
    unfold step takeNext at h
    rw [hi] at h
    dsimp only at h
    split at h
    · cases h
    · next ho => exact .inr ⟨x, rest, rfl, by simpa using ho, h⟩

/-- The invariant speaks of the parameters, memory, the caches, `ABRT_ERR` and `LAST_PERM` alone. -/
theorem Inv.congr {s t : State} (h : Inv s) (hc : t.cfg = s.cfg) (hm : t.mem = s.mem)
    (hr : t.rc = s.rc) (hw : t.wc = s.wc) (he : t.abrtErr = s.abrtErr)
    (hp : t.lastPerm = s.lastPerm) : Inv t := by
  obtain ⟨memory, ⟨rc, wc, noRoute⟩, ⟨errorCode, lastPerm, readPerm, writePerm⟩⟩ := h
  rw [← hm] at memory
  rw [← hr, ← hc] at rc
  rw [← hw, ← hc] at wc
  rw [← hr] at noRoute readPerm
  rw [← hw] at writePerm
  exact ⟨memory, ⟨rc, wc, noRoute⟩, ⟨he ▸ errorCode, hp ▸ lastPerm, readPerm, writePerm⟩⟩

theorem runCommand_inv {c : Command} {s t : State} (h : runCommand c s = .next t) (hs : Inv s) :
    Inv t := by
  rcases runCommand_next h with ⟨i, -, hi⟩ | rfl
  · exact exec_inv hi (hs.congr rfl rfl rfl rfl rfl rfl)
  · exact hs.congr rfl rfl rfl rfl rfl rfl

theorem takeInput_inv {x : Input} {s t : State} (h : takeInput x s = .next t) (hs : Inv s) :
    Inv t := by
  cases x with
  | command c => exact runCommand_inv h hs
  | guestStore a v =>
    cases h
    obtain ⟨hm, ⟨hr, hw, hn⟩, ⟨he, hp, hpr, hpw⟩⟩ := hs
    exact ⟨storeByte_wf s.env a v hm, ⟨hr, hw, hn⟩, ⟨he, hp, hpr, hpw⟩⟩
  | setPlatform | close => cases h; exact hs.congr rfl rfl rfl rfl rfl rfl
  | reset => cases h; exact inv_of_empty hs.memory rfl rfl rfl rfl

end Sys2Proof.Machine

open Sys2Proof.Machine

/-- Settles O11: a step waits or takes an input, and every input keeps the invariant. -/
theorem stepKeepsInvariant : Obligations.StepKeepsInvariant := by
  unfold Obligations.StepKeepsInvariant
  intro s t hs h
  rcases step_next h with ⟨-, rfl⟩ | ⟨x, rest, -, -, hx⟩
  · exact hs
  · exact takeInput_inv hx (hs.congr rfl rfl rfl rfl rfl rfl)

/-- Settles O12: every command keeps both caches in good form, and a cache in good form has no more
slots than that. -/
theorem commandsKeepOneSlotPerPage : Obligations.CommandsKeepOneSlotPerPage := by
  unfold Obligations.CommandsKeepOneSlotPerPage
  intro i s t hs h
  obtain ⟨hrc, hwc, -⟩ := keeps_cachesWf.exec h hs
  rw [(exec_surroundings h).1] at hrc hwc
  exact ⟨hrc.countP_valid_le, hwc.countP_valid_le,
    fun lp => ⟨hrc.countP_holds_le_one lp, hwc.countP_holds_le_one lp⟩⟩

end

section
/-! PROOFS. Which commands write what (10_state.md), and that no command tells the supervisor levels
apart (60_exceptions.md R219). -/

namespace Sys2Proof.Machine

/-! ## What an ACCESS leaves alone -/

/-- What an ACCESS of a kind leaves alone: the registers that the CPU core loads, and the cache of the
other kind (R180). -/
structure AccessFrame (w : Bool) (s t : State) : Prop where
  cr0 : t.cr0 = s.cr0
  cr3 : t.cr3 = s.cr3
  cr4 : t.cr4 = s.cr4
  cpl : t.cpl = s.cpl
  ovr : t.ovr = s.ovr
  rammask : t.rammask = s.rammask
  other : cacheFor (!w) t = cacheFor (!w) s

theorem AccessFrame.refl (w : Bool) (s : State) : AccessFrame w s s := ⟨rfl, rfl, rfl, rfl, rfl, rfl, rfl⟩

theorem AccessFrame.trans {w : Bool} {s t u : State} (h : AccessFrame w s t)
    (h' : AccessFrame w t u) : AccessFrame w s u :=
  ⟨h'.cr0.trans h.cr0, h'.cr3.trans h.cr3, h'.cr4.trans h.cr4, h'.cpl.trans h.cpl,
    h'.ovr.trans h.ovr, h'.rammask.trans h.rammask, h'.other.trans h.other⟩

theorem fillCache_other (w : Bool) (lp : LPage) (pp : PPage) (s : State) :
    cacheFor (!w) (fillCache w lp pp s) = cacheFor (!w) s := by
  unfold fillCache
  split <;> cases w <;> rfl

theorem fillCache_accessFrame (w : Bool) (lp : LPage) (pp : PPage) (s : State) :
    AccessFrame w s (fillCache w lp pp s) :=
  ⟨fillCache_cr0 .., fillCache_cr3 .., fillCache_cr4 .., fillCache_cpl .., fillCache_ovr ..,
    fillCache_rammask .., fillCache_other ..⟩

theorem translate_accessFrame {w : Bool} {a : LAddr} {s t : State} {p : Option PAddr}
    (h : translate w a s = .ok (p, t)) : AccessFrame w s t := by
  rw [translate_frame h]
  exact ⟨rfl, rfl, rfl, rfl, rfl, rfl, by cases w <;> rfl⟩

theorem translateCached_accessFrame {w : Bool} {a : LAddr} {s t : State} {p : Option SubResult}
    (h : translateCached w a s = .ok (p, t)) : AccessFrame w s t := by
  rcases translateCached_cases h with ⟨_, -, -, rfl⟩ | ⟨-, ht, -⟩ | ⟨-, q, u, hu, -, rfl⟩
  · exact .refl w _
  · exact translate_accessFrame ht
  · exact (translate_accessFrame hu).trans (fillCache_accessFrame ..)

theorem execAccess_accessFrame {w : Bool} {sz : AccessSize} {a : LAddr} {s t : State}
    (h : execAccess w sz a s = .next t) : AccessFrame w s t :=
  execAccess_keeps (P := AccessFrame w s)
    (fun _ _ _ _ hx hu => hu.trans (translateCached_accessFrame hx))
    (fun _ _ hu => hu.trans ⟨rfl, rfl, rfl, rfl, rfl, rfl, by cases w <;> rfl⟩) h (.refl w s)

/-! ## Supervisor levels -/

/-- The state with its privilege level exchanged for `c`, if it is a supervisor level (R219). -/
def withSupervisor (c : BitVec 2) (s : State) : State :=
  { s with cpl := if s.cpl = 3 then s.cpl else c }

theorem withSupervisor_eq {c : BitVec 2} {s : State} (h : s.cpl ≠ 3) :
    withSupervisor c s = { s with cpl := c } := by
  unfold withSupervisor; rw [if_neg h]

theorem keepsReach_withSupervisor (c : BitVec 2) : KeepsReach (withSupervisor c) := fun _ _ h => h

theorem flushWhen_withSupervisor (c : BitVec 2) (b : Bool) (s : State) :
    flushWhen b (withSupervisor c s) = withSupervisor c (flushWhen b s) := by
  cases b <;> rfl

section
variable {c : BitVec 2} (hc : c ≠ 3)
include hc

/-- The class of the privilege level does not change (R15). -/
theorem isUser_withSupervisor (s : State) : isUser (withSupervisor c s) = isUser s := by
  unfold isUser withSupervisor
  dsimp only
  split
  · rfl
  · next h => rw [beq_eq_false_iff_ne.mpr hc, beq_eq_false_iff_ne.mpr h]

theorem permOk_withSupervisor {n : Nat} (s : State) (m : WalkMode) (e : BitVec n) (w : Bool) :
    permOk (withSupervisor c s) m e w = permOk s m e w := by
  unfold permOk userFault writeFault
  rw [isUser_withSupervisor hc]; rfl

theorem errorCode_withSupervisor (s : State) (w p : Bool) :
    errorCode (withSupervisor c s) w p = errorCode s w p := by
  unfold errorCode errorUser
  rw [isUser_withSupervisor hc]; rfl

/-- The walker and the caches see the class of the privilege level only, in the permission check and
the error code. -/
theorem commutes_withSupervisor (w : Bool) : CommutesAccess (withSupervisor c) w where
  cr0 _ := rfl
  cr3 _ := rfl
  cr4 _ := rfl
  abrt _ := rfl
  rammask _ := rfl
  env _ := rfl
  needsPse _ := rfl
  perm s m _ e w := permOk_withSupervisor hc s m e w
  error := errorCode_withSupervisor hc
  read _ _ _ := rfl
  addr _ _ := rfl
  setPerm _ _ := rfl
  raise _ _ _ := rfl
  log _ _ := rfl
  write _ _ _ := rfl
  outputs _ _ := rfl
  cache _ := by cases w <;> rfl
  insert _ _ _ := by cases w <;> rfl

/-- Every command but SET_PRIV commutes with an exchange of supervisor levels. -/
theorem exec_withSupervisor {i : Instr} {s t : State} (hi : ∀ v o, i ≠ .setPriv v o)
    (h : exec i s = .next t) : exec i (withSupervisor c s) = .next (withSupervisor c t) := by
  have hw := fun w => commutes_withSupervisor hc w
  have hr := keepsReach_withSupervisor c
  cases i with
  | translate w a => exact (hw w).execTranslate hr h
  | translateNoabrt w a => exact (hw w).execTranslateNoabrt hr h
  | access w sz a => exact (hw w).access hr h
  | lookupRead lp =>
    cases h
    exact congrArg (fun k => Host.Outcome.next (drive (lookupReadOutputs k) (withSupervisor c s)))
      ((hw false).lookup s.rc lp)
  | lookupWrite lp =>
    cases h
    exact congrArg (fun k => Host.Outcome.next (drive (lookupOutputs k) (withSupervisor c s)))
      ((hw true).lookup s.wc lp)
  | setPriv v o => exact absurd rfl (hi v o)
  | writeCr0 v =>
    cases h
    exact congrArg (fun u => Host.Outcome.next (drive okOutputs u))
      (flushWhen_withSupervisor c (cr0Flushes s v) { s with cr0 := v })
  | writeCr4 v =>
    cases h
    exact congrArg (fun u => Host.Outcome.next (drive okOutputs u))
      (flushWhen_withSupervisor c (cr4Flushes s v) { s with cr4 := v })
  | insertRead | insertWrite | flush | flushWritePage | invalidate | writeCr3 | setRammask
  | writeAbort => cases h; rfl

end

end Sys2Proof.Machine

open Sys2Proof.Machine

/-- Settles O57, command by command: the loads, the cache commands and the frames of the three
commands that walk. -/
theorem onlyNamedCommandsWrite : Obligations.OnlyNamedCommandsWrite := by
  unfold Obligations.OnlyNamedCommandsWrite
  intro i s t h
  cases i with
  | translate w a =>
    obtain ⟨p, u, hu, rfl⟩ := execTranslate_next h
    rw [translate_frame hu]
    simp [Committing, Translating]
  | translateNoabrt w a =>
    rw [execTranslateNoabrt_frame h]
    simp [Committing, Translating]
  | access w sz a =>
    obtain ⟨hcr0, hcr3, hcr4, hcpl, hovr, hmask, hother⟩ := execAccess_accessFrame h
    have hsur := exec_surroundings h
    cases w
    · have hwc : t.wc = s.wc := hother
      simp [Committing, Translating, hcr0, hcr3, hcr4, hcpl, hovr, hmask, hwc, hsur]
    · have hrc : t.rc = s.rc := hother
      simp [Committing, Translating, hcr0, hcr3, hcr4, hcpl, hovr, hmask, hrc, hsur]
  | lookupRead | lookupWrite | insertRead | insertWrite | flush | flushWritePage | invalidate
  | writeCr0 | writeCr3 | writeCr4 | setRammask | setPriv | writeAbort =>
    cases h
    simp [Committing, Translating]

/-- Settles O59: every command but SET_PRIV commutes with the exchange, and leaves `CPL` as it was. -/
theorem supervisorLevelsAreAlike : Obligations.SupervisorLevelsAreAlike := by
  unfold Obligations.SupervisorLevelsAreAlike
  intro i s t c hs hc hi h
  obtain ⟨-, -, -, hcpl, -⟩ := onlyNamedCommandsWrite i s t h
  have ht : t.cpl = s.cpl := by
    rcases hcpl with ⟨hcpl, -⟩ | ⟨v, o, e⟩
    · exact hcpl
    · exact absurd e (hi v o)
  rw [← withSupervisor_eq hs, exec_withSupervisor hc hi h, withSupervisor_eq (ht ▸ hs)]

end

section
/-! PROOFS. Round-robin (10_state.md R24): read from the cursor on, a cache is a queue. An insertion of
an uncached page takes the slot at the head away and puts the new one at the end. -/

namespace Sys2Proof.Machine

/-! ## A cache as a queue -/

/-- The slots in the order in which the cursor comes to them. -/
def Cache.queue (c : Cache) : List Slot := c.slots.rotate c.next

/-- Insertions in order. -/
def Cache.insertAll (n : Nat) (ts : List Slot) (c : Cache) : Cache :=
  ts.foldl (fun c t => c.insert n t) c

/-- The cache does not hold a slot's page. -/
def Cache.Free (c : Cache) (t : Slot) : Prop := ∀ u ∈ c.slots, holds t.lpage u = false

theorem CacheWf.queue_length {n : Nat} {c : Cache} (h : CacheWf n c) : c.queue.length = n := by
  rw [Cache.queue, List.length_rotate, h.length]

theorem CacheWf.queue_ne_nil {n : Nat} {c : Cache} (h : CacheWf n c) : c.queue ≠ [] :=
  List.ne_nil_of_length_pos (h.queue_length ▸ h.size_pos)

theorem queue_insert {n : Nat} {c : Cache} (hc : CacheWf n c) {t : Slot} (hf : c.Free t) :
    (c.insert n t).queue = c.queue.tail ++ [t] := by
  have hk : c.next < c.slots.length := hc.length ▸ hc.cursor
  have hset : (c.slots.set c.next t).length = n := by rw [List.length_set, hc.length]
  have htake : (c.slots.set c.next t).take (c.next + 1) = c.slots.take c.next ++ [t] := by
    rw [List.take_succ_eq_append_getElem (by rwa [List.length_set]),
      List.take_set_of_le le_rfl, List.getElem_set_self]
  calc (c.insert n t).queue
    _ = (c.slots.set c.next t).rotate (c.next + 1) := by
      rw [insert_of_free hf, Cache.queue, ← List.rotate_mod _ (c.next + 1), hset]
    _ = c.slots.drop (c.next + 1) ++ (c.slots.take c.next ++ [t]) := by
      rw [List.rotate_eq_drop_append_take (by rwa [List.length_set]),
        List.drop_set_of_lt c.next.lt_succ_self, htake]
    _ = c.queue.tail ++ [t] := by
      rw [Cache.queue, List.rotate_eq_drop_append_take hk.le, List.drop_eq_getElem_cons hk,
        List.cons_append, List.tail_cons, List.append_assoc]

theorem free_insert {n : Nat} {c : Cache} {t u : Slot} (hu : c.Free u) (hne : t.lpage ≠ u.lpage) :
    (c.insert n t).Free u := fun x hx => by
  rcases mem_insert hx with rfl | hx
  · simp [holds, hne]
  · exact hu x hx

/-- Insertions of distinct uncached pages shift the queue by their number and move the cursor on. -/
theorem insertAll_free {n : Nat} {ts : List Slot} {c : Cache} (hc : CacheWf n c)
    (hd : (ts.map (·.lpage)).Nodup) (hf : ∀ t ∈ ts, c.Free t) :
    (c.insertAll n ts).queue = (c.queue ++ ts).drop ts.length ∧
      (c.insertAll n ts).next = (c.next + ts.length) % n := by
  induction ts generalizing c with
  | nil => simp [Cache.insertAll, Nat.mod_eq_of_lt hc.cursor]
  | cons t ts ih =>
    obtain ⟨hnot, hd⟩ := List.nodup_cons.mp hd
    have hft : c.Free t := hf t (by simp)
    have hfs : ∀ u ∈ ts, (c.insert n t).Free u := fun u hu =>
      free_insert (hf u (by simp [hu])) fun e => hnot (List.mem_map.mpr ⟨u, hu, e.symm⟩)
    obtain ⟨hq, hn⟩ := ih (hc.insert t) hd hfs
    refine ⟨hq.trans ?_, hn.trans ?_⟩
    · rw [queue_insert hc hft, List.length_cons, ← List.drop_tail,
        List.tail_append_of_ne_nil hc.queue_ne_nil, List.append_assoc, List.singleton_append]
    · rw [insert_of_free hft, List.length_cons, Nat.mod_add_mod, Nat.add_right_comm, Nat.add_assoc]

/-- `CACHE_SIZE` insertions of distinct uncached pages bring the cursor back and leave exactly the
slots inserted. -/
theorem insertAll_fills {n : Nat} {ts : List Slot} {c : Cache} (hc : CacheWf n c)
    (hl : ts.length = n) (hd : (ts.map (·.lpage)).Nodup) (hf : ∀ t ∈ ts, c.Free t) :
    (c.insertAll n ts).next = c.next ∧ ∀ t, t ∈ (c.insertAll n ts).slots ↔ t ∈ ts := by
  obtain ⟨hq, hn⟩ := insertAll_free hc hd hf
  constructor
  · rw [hn, hl, Nat.add_mod_right, Nat.mod_eq_of_lt hc.cursor]
  · intro t
    rw [← List.mem_rotate (n := (c.insertAll n ts).next), ← Cache.queue, hq,
      List.drop_left' (hc.queue_length.trans hl.symm)]

/-! ## The slots the insertion commands write -/

/-- The slot for a page and the physical page it maps to, with a permission byte and the route of the
physical page (R144, R145). -/
def pageSlot (perm : Byte) (route : PPage → Bool) (p : LPage × PPage) : Slot :=
  ⟨true, p.1, p.2, perm, route p.2⟩

theorem insertAll_pages {n : Nat} {c : Cache} (perm : Byte) (route : PPage → Bool)
    {l : List (LPage × PPage)} (hc : CacheWf n c) (hl : l.length = n) (hd : (l.map Prod.fst).Nodup)
    (hf : ∀ p ∈ l, ∀ t ∈ c.slots, t.valid = true → t.lpage ≠ p.1) :
    (c.insertAll n (l.map (pageSlot perm route))).next = c.next ∧
      (∀ p ∈ l, pageSlot perm route p ∈ (c.insertAll n (l.map (pageSlot perm route))).slots) ∧
      ∀ x ∈ (c.insertAll n (l.map (pageSlot perm route))).slots,
        x.valid = true ∧ (x.lpage, x.ppage) ∈ l := by
  have hfree : ∀ t ∈ l.map (pageSlot perm route), c.Free t := by
    intro t ht u hu
    obtain ⟨p, hp, rfl⟩ := List.mem_map.mp ht
    exact Bool.eq_false_iff.mpr fun hh =>
      hf p hp u hu (holds_iff.mp hh).1 (holds_iff.mp hh).2
  obtain ⟨hn, hm⟩ := insertAll_fills hc (by rwa [List.length_map])
    (by rw [List.map_map]; exact hd) hfree
  refine ⟨hn, fun p hp => (hm _).mpr (List.mem_map_of_mem hp), fun x hx => ?_⟩
  obtain ⟨p, hp, rfl⟩ := List.mem_map.mp ((hm x).mp hx)
  exact ⟨rfl, hp⟩

/-- A sequence of INSERT_READ is the insertions of its slots into the read cache. -/
theorem runAll_insertRead (l : List (LPage × PPage)) (s : State) :
    ∃ t, runAll (l.map fun p => .insertRead p.1 p.2) s = .next t ∧
      t.rc = s.rc.insertAll s.cfg.cacheSize (l.map (pageSlot s.lastPerm fun _ => false)) := by
  induction l generalizing s with
  | nil => exact ⟨s, rfl, rfl⟩
  | cons p l ih => exact ih (drive okOutputs (insertReadSlot p.1 p.2 s))

/-- A sequence of INSERT_WRITE is the insertions of its slots into the write cache. -/
theorem runAll_insertWrite (l : List (LPage × PPage)) (s : State) :
    ∃ t, runAll (l.map fun p => .insertWrite p.1 p.2) s = .next t ∧
      t.wc = s.wc.insertAll s.cfg.cacheSize (l.map (pageSlot s.lastPerm (codePresent s))) := by
  induction l generalizing s with
  | nil => exact ⟨s, rfl, rfl⟩
  | cons p l ih => exact ih (drive okOutputs (insertWriteSlot p.1 p.2 s))

end Sys2Proof.Machine

open Sys2Proof.Machine

/-- Settles O44: read from the cursor on, each cache is a queue that `CACHE_SIZE` insertions replace
as a whole. -/
theorem roundRobinFillsWholeCache : Obligations.RoundRobinFillsWholeCache := by
  unfold Obligations.RoundRobinFillsWholeCache
  intro s l hs hl hd
  constructor
  · intro hf
    obtain ⟨t, ht, hrc⟩ := runAll_insertRead l s
    exact ⟨t, ht, hrc ▸ insertAll_pages s.lastPerm (fun _ => false) hs.rc hl hd hf⟩
  · intro hf
    obtain ⟨t, ht, hwc⟩ := runAll_insertWrite l s
    exact ⟨t, ht, hwc ▸ insertAll_pages s.lastPerm (codePresent s) hs.wc hl hd hf⟩

end

section
/-! PROOFS. The physical port (20_memory.md): words of RAM (R42), and unmapped space as data and as
page-table entries (R43). -/

namespace Sys2Proof.Machine

/-! ## Unmapped bytes -/

section
variable {s : State} {a : PAddr} {m n : Nat}

theorem UnmappedAt.mono (h : UnmappedAt s a n) (hm : m ≤ n) : UnmappedAt s a m :=
  fun i hi => h i (by omega)

/-- The kind at the address itself. -/
theorem UnmappedAt.head (h : UnmappedAt s a n) (hn : 0 < n) : kindAt s.env a = none := by
  simpa using h 0 hn

/-- The upper half of an 8-byte range of unmapped space. -/
theorem UnmappedAt.upper (h : UnmappedAt s a 8) : UnmappedAt s (a + 4) 4 := by
  intro i hi
  have := h (4 + i) (by omega)
  rwa [BitVec.ofNat_add, ← BitVec.add_assoc] at this

/-- A 4-byte read of unmapped space is all ones (R43). -/
theorem memRead4_unmapped (h : UnmappedAt s a 4) (k : Nat) : memRead4 s k a = 0xFFFFFFFF := by
  unfold memRead4
  have h0 := portByte_unmapped (k := k) (h.head (by omega))
  have h1 : portByte s k (a + 1) = 0xFF := portByte_unmapped (h 1 (by omega))
  have h2 : portByte s k (a + 2) = 0xFF := portByte_unmapped (h 2 (by omega))
  have h3 : portByte s k (a + 3) = 0xFF := portByte_unmapped (h 3 (by omega))
  rw [h0, h1, h2, h3]
  rfl

/-- An 8-byte read of unmapped space is all ones (R43). -/
theorem memRead8_unmapped (h : UnmappedAt s a 8) (k : Nat) :
    memRead8 s k a = 0xFFFFFFFFFFFFFFFF := by
  unfold memRead8
  rw [memRead4_unmapped h.upper, memRead4_unmapped (h.mono (by omega))]
  rfl

/-- A byte stored to unmapped space is dropped (R43). -/
theorem storeByte_unmapped {p : Platform} (h : kindAt p a = none) (m : Memory) (v : Byte) :
    storeByte p m a v = m := storeByte_dropped m v (by rw [h]; decide)

/-- A 4-byte write to unmapped space is dropped (R43). -/
theorem memWrite4_unmapped (h : UnmappedAt s a 4) (v : Dword) : (memWrite4 a v s).mem = s.mem := by
  have h0 : kindAt s.env a = none := h.head (by omega)
  have h1 : kindAt s.env (a + 1) = none := h 1 (by omega)
  have h2 : kindAt s.env (a + 2) = none := h 2 (by omega)
  have h3 : kindAt s.env (a + 3) = none := h 3 (by omega)
  rw [memWrite4_mem, store4, storeByte_unmapped h3, storeByte_unmapped h2, storeByte_unmapped h1,
    storeByte_unmapped h0]

end

/-! ## A large page whose entry lies in unmapped space -/

/-- A write-back to unmapped space is dropped (R43, R104). -/
theorem writeBack_unmapped {b : WriteBack} {s : State} (h : UnmappedAt s (portAddr s b.addr) 4) :
    (writeBack b s).mem = s.mem := memWrite4_unmapped h _

/-- An entry that is writable and user passes every check (R100). -/
theorem permOk_of_writable_user {n : Nat} {e : BitVec n} (h1 : e.getLsbD 1 = true)
    (h2 : e.getLsbD 2 = true) (s : State) (m : WalkMode) (w : Bool) : permOk s m e w = true := by
  simp [permOk, userFault, writeFault, h1, h2]

/-- The permission byte of an entry that is writable and user (R102). -/
theorem permByte_of_writable_user {n : Nat} {e : BitVec n} (h1 : e.getLsbD 1 = true)
    (h2 : e.getLsbD 2 = true) : permByte e = 0x07 := by
  rw [permByte, h1, h2]; decide

/-- TRANSLATE of a large page whose entry is writable and user and lies in unmapped space: the address
is answered to every access, and the write-back is dropped (R43, R96). -/
theorem execTranslate_unmapped_largeLeaf {s : State} {w : Bool} {a : LAddr} {n : Nat}
    {l : List PortAccess} {m : WalkMode} {pde : BitVec n} {pdeA phys : PAddr} (hw : Walks s)
    (hd : s.cfg.ptAccess = .dispatch) (hk : walk s w a = ⟨l, largeLeaf s m w pde pdeA phys⟩)
    (h1 : pde.getLsbD 1 = true) (h2 : pde.getLsbD 2 = true)
    (hu : UnmappedAt s (portAddr s pdeA) 4) :
    ∃ t, exec (.translate w a) s = .next t ∧ t.mem = s.mem ∧ t.abrt = 0 ∧ t.lastPerm = 0x07 ∧
      t.out = ⟨phys.setWidth 64, 0b0001, 0, 0⟩ := by
  have hreach : (walk s w a).reads.all (portReaches s) = true :=
    List.all_eq_true.mpr fun acc _ => PortTotal.reaches (.inl hd) acc
  have hok : (walk s w a).result = .ok phys 0x07 [⟨pdeA, leafBits w⟩] := by
    rw [hk, ← permByte_of_writable_user h1 h2]
    exact if_pos (permOk_of_writable_user h1 h2 s m w)
  have hmem : (writeBacks [⟨pdeA, leafBits w⟩] (logPort (walk s w a).reads s)).mem = s.mem :=
    writeBack_unmapped (s := logPort (walk s w a).reads s) hu
  exact ⟨_, execTranslate_ok hw hreach hok, hmem, by simpa [commitWalk] using hw.1, rfl, rfl⟩

end Sys2Proof.Machine

open Sys2Proof.Machine

/-- Settles O32, from the laws of words of RAM. -/
theorem portIsLittleEndian : Obligations.PortIsLittleEndian := by
  unfold Obligations.PortIsLittleEndian
  intro s a v
  refine ⟨fun k hr ht => memRead4_ram hr ht k, fun k hr ht => memRead8_ram hr ht k,
    fun hm hr ht => ?_⟩
  obtain ⟨h0, h1, h2, h3⟩ := store4_ram v hm ht hr
  exact ⟨h0, h1, h2, h3, fun x hx => store4_outside s.env s.mem a v ht hx⟩

/-- Settles O33: all ones is, as a directory entry, a large page that every access may use. -/
theorem unmappedSpaceReadsAllOnes : Obligations.UnmappedSpaceReadsAllOnes := by
  unfold Obligations.UnmappedSpaceReadsAllOnes
  intro s k a v
  refine ⟨fun hu => ?_, fun hu => memRead8_unmapped hu k, ?_, ?_⟩
  · rw [memRead4_unmapped hu]
    exact ⟨rfl, memWrite4_unmapped hu v, by decide, by decide, by decide, by decide⟩
  · intro w l hw hd hmode hpse ha hu
    have hreads : Reads2 s l a 0xFFFFFFFF :=
      ⟨hmode, ha, PortTotal.reaches (.inl hd) _, memRead4_unmapped hu 0⟩
    have hlarge : Large2 s l a 0xFFFFFFFF := ⟨hreads, by decide, by decide, hpse⟩
    obtain ⟨t, hx, hmem, habrt, hperm, hout⟩ :=
      execTranslate_unmapped_largeLeaf hw hd (hlarge.walk w) (by decide) (by decide) (ha ▸ hu)
    refine ⟨t, hx, hmem, habrt, hperm, ?_⟩
    rw [hout, BitVec.setWidth_setWidth (u := 32) (v := 40) (by decide)]
    rfl
  · intro w l dirA q0 hw hd hreads hp hpse ha hu
    have hdir : Directory3 s l dirA q0 a 0xFFFFFFFFFFFFFFFF :=
      ⟨hreads, hp, ha, PortTotal.reaches (.inl hd) _, memRead8_unmapped hu 1⟩
    have hlarge : Maps2M s 0xFFFFFFFFFFFFFFFF := ⟨by decide, hpse⟩
    exact execTranslate_unmapped_largeLeaf hw hd (hdir.large w (by decide) hlarge) (by decide)
      (by decide) (ha ▸ hu.mono (by omega))

end

section
/-! PROOFS. The port accesses of every command are aligned (20_memory.md R45): each command adds to the
port log the reads of its walks and the two accesses of each of their write-backs. -/

namespace Sys2Proof.Machine

/-- The port log of `t` is that of `s` with aligned accesses after it. -/
def ExtendsAligned (s t : State) : Prop :=
  ∃ log, t.portLog = s.portLog ++ log ∧ ∀ acc ∈ log, Aligned acc

theorem ExtendsAligned.of_eq {s t : State} (h : t.portLog = s.portLog) : ExtendsAligned s t :=
  ⟨[], by rw [h, List.append_nil], by simp⟩

theorem ExtendsAligned.trans {s t u : State} (h : ExtendsAligned s t) (h' : ExtendsAligned t u) :
    ExtendsAligned s u := by
  obtain ⟨l, hl, hal⟩ := h
  obtain ⟨l', hl', hal'⟩ := h'
  exact ⟨l ++ l', by rw [hl', hl, List.append_assoc],
    fun acc hacc => (List.mem_append.mp hacc).elim (hal acc) (hal' acc)⟩

/-- The reads of a walk (R45). -/
theorem logPort_extendsAligned (s : State) (w : Bool) (a : LAddr) :
    ExtendsAligned s (logPort (walk s w a).reads s) :=
  ⟨_, rfl, (walk_aligned s w a).1⟩

/-- The re-read and the write of a write-back (R104). -/
theorem writeBack_extendsAligned {b : WriteBack} (h : LowZero 2 b.addr) (s : State) :
    ExtendsAligned s (writeBack b s) := by
  refine ⟨_, writeBack_portLog b s, fun acc hacc => ?_⟩
  obtain rfl | rfl := List.mem_pair.mp hacc
  · exact aligned_read4 (h.portAddr s) _
  · exact aligned_write4 (h.portAddr s) _

theorem writeBacks_extendsAligned {l : List WriteBack} (h : ∀ b ∈ l, LowZero 2 b.addr) (s : State) :
    ExtendsAligned s (writeBacks l s) := by
  induction l generalizing s with
  | nil => exact .of_eq rfl
  | cons b l ih =>
    obtain ⟨hb, hl⟩ := List.forall_mem_cons.mp h
    exact (writeBack_extendsAligned hb s).trans (ih hl (writeBack b s))

theorem translate_extendsAligned {w : Bool} {a : LAddr} {s t : State} {p : Option PAddr}
    (h : translate w a s = .ok (p, t)) : ExtendsAligned s t := by
  rcases translate_cases h with ⟨-, -, rfl⟩ | ⟨-, -, -, rfl⟩ | ⟨-, -, -, q, -, -, rfl⟩ |
    ⟨-, -, -, phys, perm, wb, hk, -, rfl⟩
  · exact .of_eq rfl
  · exact .of_eq rfl
  · exact logPort_extendsAligned s w a
  · have hwb : ∀ b ∈ wb, LowZero 2 b.addr := by simpa [hk, AlignedBacks] using (walk_aligned s w a).2
    exact (logPort_extendsAligned s w a).trans (writeBacks_extendsAligned hwb _)

theorem translateCached_extendsAligned {w : Bool} {a : LAddr} {s t : State} {p : Option SubResult}
    (h : translateCached w a s = .ok (p, t)) : ExtendsAligned s t := by
  rcases translateCached_cases h with ⟨_, -, -, rfl⟩ | ⟨-, ht, -⟩ | ⟨-, q, u, hu, -, rfl⟩
  · exact .of_eq rfl
  · exact translate_extendsAligned ht
  · exact (translate_extendsAligned hu).trans (.of_eq (fillCache_portLog ..))

theorem execTranslateNoabrt_extendsAligned {w : Bool} {a : LAddr} {s t : State}
    (h : execTranslateNoabrt w a s = .next t) : ExtendsAligned s t := by
  unfold execTranslateNoabrt at h
  split at h
  · cases h; exact .of_eq rfl
  · split at h
    · cases h; exact .of_eq rfl
    · dsimp only at h
      split at h
      · cases h
      · cases h; exact logPort_extendsAligned s w a

/-- Every command: those that do not walk make no port access. -/
theorem exec_extendsAligned {i : Instr} {s t : State} (h : exec i s = .next t) :
    ExtendsAligned s t := by
  cases i with
  | translate w a =>
    obtain ⟨p, u, hu, rfl⟩ := execTranslate_next h
    exact (translate_extendsAligned hu).trans (.of_eq rfl)
  | translateNoabrt w a => exact execTranslateNoabrt_extendsAligned h
  | access w sz a =>
    exact execAccess_keeps (P := ExtendsAligned s)
      (fun _ _ _ _ hx hu => hu.trans (translateCached_extendsAligned hx)) (fun _ _ hu => hu) h
      (.of_eq rfl)
  | writeCr0 | writeCr4 => cases h; exact .of_eq (flushWhen_portLog ..)
  | lookupRead | lookupWrite | insertRead | insertWrite | flush | flushWritePage | invalidate
  | writeCr3 | setRammask | setPriv | writeAbort => cases h; exact .of_eq rfl

end Sys2Proof.Machine

open Sys2Proof.Machine

/-- Settles O34: every command extends the port log by aligned accesses. -/
theorem portAccessesAreAligned : Obligations.PortAccessesAreAligned := by
  unfold Obligations.PortAccessesAreAligned
  exact fun _ _ _ h => exec_extendsAligned h

end

section
/-! PROOFS. `PT_ACCESS` (20_memory.md R41): what `DIRECT_RAM` completes, `DISPATCH` completes alike, and
a command is refused exactly when a walk that it makes is. -/

namespace Sys2Proof.Machine

/-! ## The exchange of `DIRECT_RAM` for `DISPATCH` -/

/-- The state with its port access set to `DISPATCH`. -/
def withDispatch (s : State) : State := { s with cfg := { s.cfg with ptAccess := .dispatch } }

theorem keepsReach_withDispatch : KeepsReach withDispatch :=
  fun _ acc _ => PortTotal.reaches (.inl rfl) acc

/-- The walker and the caches see the port access only in what the port reaches. -/
theorem commutes_withDispatch (w : Bool) : CommutesAccess withDispatch w where
  cr0 _ := rfl
  cr3 _ := rfl
  cr4 _ := rfl
  abrt _ := rfl
  rammask _ := rfl
  env _ := rfl
  needsPse _ := rfl
  perm _ _ _ _ _ := rfl
  error _ _ _ := rfl
  read _ _ _ := rfl
  addr _ _ := rfl
  setPerm _ _ := rfl
  raise _ _ _ := rfl
  log _ _ := rfl
  write _ _ _ := rfl
  outputs _ _ := rfl
  cache _ := by cases w <;> rfl
  insert _ _ _ := by cases w <;> rfl

theorem flushWhen_withDispatch (b : Bool) (s : State) :
    flushWhen b (withDispatch s) = withDispatch (flushWhen b s) := by
  cases b <;> rfl

/-- Every command that completes commutes with the exchange. -/
theorem exec_withDispatch {i : Instr} {s t : State} (h : exec i s = .next t) :
    exec i (withDispatch s) = .next (withDispatch t) := by
  have hw := commutes_withDispatch
  have hr := keepsReach_withDispatch
  cases i with
  | translate w a => exact (hw w).execTranslate hr h
  | translateNoabrt w a => exact (hw w).execTranslateNoabrt hr h
  | access w sz a => exact (hw w).access hr h
  | writeCr0 v =>
    cases h
    exact congrArg (fun u => Host.Outcome.next (drive okOutputs u))
      (flushWhen_withDispatch (cr0Flushes s v) { s with cr0 := v })
  | writeCr4 v =>
    cases h
    exact congrArg (fun u => Host.Outcome.next (drive okOutputs u))
      (flushWhen_withDispatch (cr4Flushes s v) { s with cr4 := v })
  | lookupRead | lookupWrite | insertRead | insertWrite | flush | flushWritePage | invalidate
  | writeCr3 | setRammask | setPriv | writeAbort => cases h; rfl

/-! ## When a command is refused -/

section
variable {s t : State} {w : Bool} {a : LAddr} {sz : AccessSize} {r : Refusal}

/-- A translation is refused exactly when it walks and the port does not reach an entry (R41). -/
theorem translate_error_iff :
    translate w a s = .error r ↔
      r = .directRamOutsideRam ∧ Walks s ∧ (walk s w a).reads.all (portReaches s) = false := by
  constructor
  · intro h
    obtain ⟨hr, ha, hp, hk⟩ := translate_error h
    exact ⟨hr, ⟨ha, hp⟩, hk⟩
  · rintro ⟨rfl, hw, hk⟩
    rw [translate_walk hw, if_pos hk]

/-- Under `DIRECT_RAM` that is when the walk fetches an entry outside RAM. -/
theorem translate_error_iff_fetchesOutsideRam (hw : Walks s) (hd : s.cfg.ptAccess = .directRam) :
    translate w a s = .error .directRamOutsideRam ↔ FetchesOutsideRam s a := by
  simp [translate_error_iff, hw, walk_outOfReach_iff hd]

theorem execTranslate_refused_iff :
    execTranslate w a s = .refused r ↔ translate w a s = .error r := by
  unfold execTranslate
  split <;> simp [*]

theorem execTranslateNoabrt_refused_iff :
    execTranslateNoabrt w a s = .refused r ↔ translate w a s = .error r := by
  rw [translate_error_iff]
  unfold execTranslateNoabrt
  split
  · next ha => exact iff_of_false nofun fun ⟨_, hw, _⟩ => ha hw.1
  · next ha =>
    split
    · next hp => exact iff_of_false nofun fun ⟨_, hw, _⟩ => by simp [hw.2] at hp
    · next hp =>
      have hw : Walks s := ⟨not_not.mp ha, by simpa using hp⟩
      cases hk : (walk s w a).reads.all (portReaches s) <;> simp [hk, hw, eq_comm]

theorem translateCached_error_iff :
    translateCached w a s = .error r ↔
      lookup s w (cacheFor w s) (lpageOf a) = none ∧ translate w a s = .error r := by
  unfold translateCached
  split
  · simp [*]
  · split <;> simp [*]

/-- What the block drives makes no difference to a sub-access's refusal: no rule reads it. -/
theorem translateCached_drive_error_iff (o : Outputs) :
    translateCached w a (drive o s) = .error r ↔ translateCached w a s = .error r := by
  have hk : walk (drive o s) w a = walk s w a :=
    walk_congr rfl rfl (fun _ _ _ => rfl) (fun _ _ => rfl) rfl (fun _ => rfl)
  rw [translateCached_error_iff, translateCached_error_iff, translate_error_iff,
    translate_error_iff, hk]
  rfl

/-- An ACCESS within one page is refused when its sub-access is. -/
theorem execAccess_one_refused_iff (h : s.abrt = 0) (hp : a.toNat % 4096 + sizeBytes sz ≤ 4096) :
    execAccess w sz a s = .refused r ↔ translateCached w a s = .error r := by
  rw [execAccess_one h hp]
  split <;> simp [*]

/-- An ACCESS within one page that leaves no abort pending has translated its sub-access. -/
theorem execAccess_one_next (h : s.abrt = 0) (hp : a.toNat % 4096 + sizeBytes sz ≤ 4096)
    (hx : execAccess w sz a s = .next t) (ht : t.abrt = 0) :
    ∃ p u o, translateCached w a s = .ok (some p, u) ∧ t = drive o u := by
  rw [execAccess_one h hp] at hx
  split at hx
  · cases hx
  · next u hu =>
    cases hx
    exact absurd ht ((translateCached_none_iff hu h).mp rfl)
  · next p u hu =>
    cases hx
    exact ⟨p, u, _, hu, rfl⟩

/-- A straddling ACCESS is refused when its first part is, or the second after the first. -/
theorem execAccess_two_refused_iff {n0 : Nat} (h : s.abrt = 0) (h0 : a.toNat % 4096 + n0 = 4096)
    (hn : n0 < sizeBytes sz) :
    execAccess w sz a s = .refused r ↔
      translateCached w a s = .error r ∨
        ∃ p u, translateCached w a s = .ok (some p, u) ∧
          translateCached w (a + BitVec.ofNat 32 n0) u = .error r := by
  unfold execAccess
  rw [if_neg (not_not.mpr h)]
  dsimp only
  rw [splitAccess_two h0 hn, translateSubs_two]
  dsimp only
  rcases hx : translateCached w a s with r' | ⟨_ | p, u⟩
  · simp
  · simp
  · dsimp only
    rcases hy : translateCached w (a + BitVec.ofNat 32 n0) u with r' | ⟨_ | q, v⟩ <;> simp [hy]

/-- One byte never straddles a page. -/
theorem oneByte_within (a : LAddr) : a.toNat % 4096 + sizeBytes .b1 ≤ 4096 :=
  Nat.mod_lt a.toNat (by decide)

/-- A cache in which every valid slot of the page is denied the access misses (R139). -/
theorem lookup_none_of_denied
    (h : ∀ k ∈ (if w then s.wc.slots else s.rc.slots), k.valid = true →
      k.lpage = a.extractLsb 31 12 → permOk s (walkMode s) k.perm w = false) :
    lookup s w (cacheFor w s) (lpageOf a) = none := by
  have hslots : (cacheFor w s).slots = if w then s.wc.slots else s.rc.slots := by cases w <;> rfl
  refine lookup_none.mpr fun k hk => Bool.eq_false_iff.mpr fun hh => ?_
  obtain ⟨hv, hl, hp⟩ := hits_iff.mp hh
  rw [h k (hslots ▸ hk) hv hl] at hp
  cases hp

end

end Sys2Proof.Machine

open Sys2Proof.Machine

/-- Settles O35: a refused command is a refused walk, and a walk is refused for an entry outside RAM
under `DIRECT_RAM` alone. -/
theorem ptAccessOnlyRefuses : Obligations.PtAccessOnlyRefuses := by
  unfold Obligations.PtAccessOnlyRefuses
  refine ⟨fun i s t h => exec_withDispatch h, fun i s r h => ?_, fun s w a hw hd => ?_,
    fun s w sz a b n0 r hs h0 hn hb => ⟨fun h => ?_, fun t hx ht h => ?_⟩⟩
  · obtain ⟨t, ht⟩ | ⟨hr, hn⟩ := exec_completesOrRefuses i s
    · rw [h] at ht; cases ht
    · rw [h] at hr; cases hr
      exact ⟨rfl, directRam_of_not_portTotal hn⟩
  · have houtside := translate_error_iff_fetchesOutsideRam (w := w) (a := a) hw hd
    refine ⟨execTranslate_refused_iff.trans houtside,
      execTranslateNoabrt_refused_iff.trans houtside, fun sz hp hdenied => ?_⟩
    have hmiss := lookup_none_of_denied hdenied
    calc exec (.access w sz a) s = .refused .directRamOutsideRam
      _ ↔ translateCached w a s = .error .directRamOutsideRam := execAccess_one_refused_iff hw.1 hp
      _ ↔ translate w a s = .error .directRamOutsideRam := by
        rw [translateCached_error_iff, and_iff_right hmiss]
      _ ↔ FetchesOutsideRam s a := houtside
  · have hfirst := (execAccess_one_refused_iff hs (oneByte_within a)).mp h
    exact (execAccess_two_refused_iff hs h0 hn).mpr (.inl hfirst)
  · subst hb
    obtain ⟨p, u, o, hu, rfl⟩ := execAccess_one_next hs (oneByte_within a) hx ht
    have hsecond := (execAccess_one_refused_iff ht (oneByte_within _)).mp h
    exact (execAccess_two_refused_iff hs h0 hn).mpr
      (.inr ⟨p, u, hu, (translateCached_drive_error_iff o).mp hsecond⟩)

end

section
/-! PROOFS. The encoding of the commands (30_encoding.md R60 to R64): the fields of a word, the
opcode map row by row, and from them that the decoder reads exactly the legal words, each as an
instruction that encodes to it. -/

namespace Sys2Proof

/-! ## Fields of a word -/

open BitVec (extractLsb'_append_eq_of_le extractLsb'_append_eq_right
  extractLsb'_append_extractLsb'_eq_extractLsb' extractLsb'_eq_self getLsbD_append)

/-- A bit as a field of one bit. -/
theorem ofBool_getLsbD {n : Nat} (x : BitVec n) (i : Nat) :
    BitVec.ofBool (x.getLsbD i) = x.extractLsb' i 1 := by
  refine BitVec.eq_of_getLsbD_eq fun j hj => ?_
  obtain rfl : j = 0 := Nat.lt_one_iff.mp hj
  simp

/-- An operand put on a bus is what bit selection reads back (R63). -/
theorem extractLsb_setWidth {n : Nat} (x : BitVec (n + 1)) (hn : n < 64 := by decide) :
    (x.setWidth 64).extractLsb n 0 = x := by
  rw [BitVec.extractLsb_setWidth_of_lt (by omega)]
  exact extractLsb'_eq_self

@[simp] theorem decodeSize_encodeSize (sz : AccessSize) : decodeSize (encodeSize sz) = sz := by
  cases sz <;> rfl

@[simp] theorem encodeSize_decodeSize (sz : BitVec 2) : encodeSize (decodeSize sz) = sz := by
  revert sz; decide

section
variable (op : BitVec 4) (w : Bool) (sz crsel cplv : BitVec 2) (ovrv : Bool)

theorem wordOf_w : (wordOf op w sz crsel cplv ovrv).getLsbD 4 = w := by
  rw [wordOf]
  iterate 2 rw [getLsbD_append]
  simp

theorem wordOf_sz : (wordOf op w sz crsel cplv ovrv).extractLsb 6 5 = sz := by
  rw [wordOf, BitVec.extractLsb]
  iterate 2 rw [extractLsb'_append_eq_of_le]
  · exact extractLsb'_append_eq_right
  all_goals decide

theorem wordOf_cplv : (wordOf op w sz crsel cplv ovrv).extractLsb 11 10 = cplv := by
  rw [wordOf, BitVec.extractLsb]
  iterate 5 rw [extractLsb'_append_eq_of_le]
  · exact extractLsb'_append_eq_right
  all_goals decide

theorem wordOf_ovrv : (wordOf op w sz crsel cplv ovrv).getLsbD 12 = ovrv := by
  rw [wordOf]
  iterate 7 rw [getLsbD_append]
  simp

end

/-- A word whose reserved bits are 0 is put together from its fields (R61). -/
theorem wordOf_fields {c : Command} (h : c.reservedClear = true) :
    wordOf c.op (c.cmd.getLsbD 4) (c.cmd.extractLsb 6 5) (c.cmd.extractLsb 9 8)
      (c.cmd.extractLsb 11 10) (c.cmd.getLsbD 12) = c.cmd := by
  obtain ⟨h7, h15⟩ : c.cmd.getLsbD 7 = false ∧ c.cmd.extractLsb 15 13 = 0#3 := by
    simpa [Command.reservedClear] using h
  have h7' : 0#1 = c.cmd.extractLsb' 7 1 := by rw [← ofBool_getLsbD, h7]; rfl
  rw [wordOf, h7', ← h15, Command.op]
  simp only [ofBool_getLsbD, BitVec.extractLsb]
  iterate 7 rw [extractLsb'_append_extractLsb'_eq_extractLsb']
  · exact extractLsb'_eq_self
  all_goals rfl

/-! ## The opcode map -/

theorem rowMatches_iff {r : OpcodeRow} {cmd : BitVec 16} :
    rowMatches r cmd = true ↔ cmd &&& r.mask = r.pattern := beq_iff_eq

/-- No word is two rows': their patterns differ under both masks. -/
theorem opcodeRows_disjoint : opcodeRows.Pairwise fun r q =>
    r.pattern &&& q.mask ≠ q.pattern &&& r.mask := by decide

theorem eq_of_rowMatches {r q : OpcodeRow} (hr : r ∈ opcodeRows) (hq : q ∈ opcodeRows)
    {cmd : BitVec 16} (hrc : rowMatches r cmd = true) (hqc : rowMatches q cmd = true) : r = q := by
  by_contra hne
  have : Std.Symm fun r q : OpcodeRow => r.pattern &&& q.mask ≠ q.pattern &&& r.mask :=
    ⟨fun _ _ h => h.symm⟩
  refine opcodeRows_disjoint.forall hr hq hne ?_
  rw [← rowMatches_iff.mp hrc, ← rowMatches_iff.mp hqc, BitVec.and_assoc, BitVec.and_assoc,
    BitVec.and_comm r.mask]

/-- A row's pattern is one of its words. -/
theorem rowMatches_pattern {r : OpcodeRow} (hr : r ∈ opcodeRows) :
    rowMatches r r.pattern = true := by
  revert r; decide

/-- A row with no free bit has no other word. -/
theorem eq_pattern {r : OpcodeRow} {cmd : BitVec 16} (h : rowMatches r cmd = true)
    (hm : r.mask = BitVec.allOnes 16) : cmd = r.pattern := by
  rw [← rowMatches_iff.mp h, hm, BitVec.and_allOnes]

/-- Every row fixes `OP` (R62). -/
theorem op_of_row {r : OpcodeRow} (hr : r ∈ opcodeRows) {c : Command}
    (h : rowMatches r c.cmd = true) : c.op = r.pattern.extractLsb 3 0 := by
  have hmask : r.mask.extractLsb 3 0 = BitVec.allOnes 4 := by
    clear h; revert r; decide
  rw [← rowMatches_iff.mp h, BitVec.extractLsb_and, hmask, BitVec.and_allOnes, Command.op]

theorem getLsbD_eq_of_extractLsb_eq {n hi lo i : Nat} {x y : BitVec n}
    (h : x.extractLsb hi lo = y.extractLsb hi lo) (hlo : lo ≤ i) (hhi : i ≤ hi) :
    x.getLsbD i = y.getLsbD i := by
  have hbit := congrArg (BitVec.getLsbD · (i - lo)) h
  simpa [BitVec.getLsbD_extractLsb, Nat.add_sub_cancel' hlo, Nat.sub_le_sub_right hhi lo] using hbit

/-- Two words with the same bits under a mask are the same when they agree in the bits it leaves
free. -/
theorem word_eq_of_mask {m p x y : BitVec 16} (hx : x &&& m = p) (hy : y &&& m = p)
    (hfree : ∀ i < 16, m.getLsbD i = false → x.getLsbD i = y.getLsbD i) : x = y := by
  refine BitVec.eq_of_getLsbD_eq fun i hi => ?_
  cases hm : m.getLsbD i with
  | false => exact hfree i hi hm
  | true =>
    have hbit := congrArg (BitVec.getLsbD · i) (hx.trans hy.symm)
    simpa [BitVec.getLsbD_and, hm] using hbit

/-- The words of TRANSLATE and TRANSLATE_NOABRT leave only `W` free. -/
theorem wordOf_and_translateMask (op : BitVec 4) (w : Bool) :
    wordOf op w 0 0 0 false &&& 0xFFEF = wordOf op false 0 0 0 false := by
  revert op w; decide

/-- The words of ACCESS leave `W` and `SZ` free. -/
theorem wordOf_and_accessMask (w : Bool) (sz : BitVec 2) :
    wordOf 0xA w sz 0 0 false &&& 0xFF8F = 0x000A := by
  revert w sz; decide

/-- The words of SET_PRIV leave `CPLV` and `OVRV` free. -/
theorem wordOf_and_setPrivMask (cplv : BitVec 2) (ovrv : Bool) :
    wordOf 0xD false 0 0 cplv ovrv &&& 0xE3FF = 0x000D := by
  revert cplv ovrv; decide

/-! ## The decoder -/

/-- A word is one row's and is read by it, or is no row's and is rejected under its reason. -/
theorem decode_cases (c : Command) :
    (∃ r ∈ opcodeRows, rowMatches r c.cmd = true ∧ decode c = .ok (r.build c)) ∨
    ((∀ r ∈ opcodeRows, ¬rowMatches r c.cmd = true) ∧
      decode c = .error (illegalReason c.cmd)) := by
  unfold decode
  split
  · next r hr =>
    have hm := List.find?_some hr
    exact .inl ⟨r, List.mem_of_find?_eq_some hr, hm, rfl⟩
  · next hn => exact .inr ⟨List.find?_eq_none.mp hn, rfl⟩

theorem decode_of_row {r : OpcodeRow} (hr : r ∈ opcodeRows) {c : Command}
    (h : rowMatches r c.cmd = true) : decode c = .ok (r.build c) := by
  rcases decode_cases c with ⟨q, hq, hm, hd⟩ | ⟨hn, -⟩
  · rw [hd, eq_of_rowMatches hq hr hm h]
  · exact absurd h (hn r hr)

theorem decode_of_no_row {c : Command} (h : ∀ r ∈ opcodeRows, ¬rowMatches r c.cmd = true) :
    decode c = .error (illegalReason c.cmd) := by
  rcases decode_cases c with ⟨q, hq, hm, -⟩ | ⟨-, hd⟩
  · exact absurd hm (h q hq)
  · exact hd

/-- An instruction whose word is the `n`th row's decodes to itself when that row builds it. -/
theorem decode_encode_of_row {i : Instr} (n : Nat) {r : OpcodeRow} (hn : opcodeRows[n]? = some r)
    (hm : rowMatches r (encode i).cmd = true) (hb : r.build (encode i) = i) :
    decode (encode i) = .ok i :=
  (decode_of_row (List.mem_of_getElem? hn) hm).trans (congrArg Except.ok hb)

/-- An instruction with no operand in its word has its row's pattern as its word. -/
theorem decode_encode_of_pattern {i : Instr} (n : Nat) {r : OpcodeRow}
    (hn : opcodeRows[n]? = some r) (hb : r.build (encode i) = i)
    (hm : (encode i).cmd = r.pattern := by rfl) : decode (encode i) = .ok i :=
  decode_encode_of_row n hn (hm ▸ rowMatches_pattern (List.mem_of_getElem? hn)) hb

theorem decode_encode (i : Instr) : decode (encode i) = .ok i := by
  cases i with
  | translate w a =>
    exact decode_encode_of_row 0 rfl (rowMatches_iff.mpr (wordOf_and_translateMask 0x1 w))
      (congrArg₂ Instr.translate (wordOf_w ..) (extractLsb_setWidth a))
  | translateNoabrt w a =>
    exact decode_encode_of_row 1 rfl (rowMatches_iff.mpr (wordOf_and_translateMask 0x2 w))
      (congrArg₂ Instr.translateNoabrt (wordOf_w ..) (extractLsb_setWidth a))
  | lookupRead lp =>
    exact decode_encode_of_pattern 2 rfl (congrArg Instr.lookupRead (extractLsb_setWidth lp))
  | lookupWrite lp =>
    exact decode_encode_of_pattern 3 rfl (congrArg Instr.lookupWrite (extractLsb_setWidth lp))
  | insertRead lp pp =>
    exact decode_encode_of_pattern 4 rfl (congrArg₂ Instr.insertRead
      (extractLsb_setWidth lp) (extractLsb_setWidth pp))
  | insertWrite lp pp =>
    exact decode_encode_of_pattern 5 rfl (congrArg₂ Instr.insertWrite
      (extractLsb_setWidth lp) (extractLsb_setWidth pp))
  | flush => exact decode_encode_of_pattern 6 rfl (by rfl)
  | flushWritePage pp =>
    exact decode_encode_of_pattern 7 rfl
      (congrArg Instr.flushWritePage (extractLsb_setWidth pp))
  | invalidate a =>
    exact decode_encode_of_pattern 8 rfl (congrArg Instr.invalidate (extractLsb_setWidth a))
  | access w sz a =>
    refine decode_encode_of_row 9 rfl (rowMatches_iff.mpr (wordOf_and_accessMask ..)) ?_
    dsimp only [encode]
    rw [wordOf_w, wordOf_sz, decodeSize_encodeSize, extractLsb_setWidth a]
  | writeCr0 v =>
    exact decode_encode_of_pattern 10 rfl (congrArg Instr.writeCr0 (extractLsb_setWidth v))
  | writeCr3 v =>
    exact decode_encode_of_pattern 11 rfl (congrArg Instr.writeCr3 (extractLsb_setWidth v))
  | writeCr4 v =>
    exact decode_encode_of_pattern 12 rfl (congrArg Instr.writeCr4 (extractLsb_setWidth v))
  | setRammask m =>
    exact decode_encode_of_pattern 13 rfl (congrArg Instr.setRammask (extractLsb_setWidth m))
  | setPriv cpl ovr =>
    exact decode_encode_of_row 14 rfl (rowMatches_iff.mpr (wordOf_and_setPrivMask cpl ovr))
      (congrArg₂ Instr.setPriv (wordOf_cplv ..) (wordOf_ovrv ..))
  | writeAbort code =>
    exact decode_encode_of_pattern 15 rfl
      (congrArg Instr.writeAbort (extractLsb_setWidth code))

/-! ## The words the decoder reads -/

/-- The words under TRANSLATE's mask are those with some `W`. -/
theorem wordOf_of_and_translateMask {op : BitVec 4} {cmd : BitVec 16}
    (h : cmd &&& 0xFFEF = wordOf op false 0 0 0 false) :
    wordOf op (cmd.getLsbD 4) 0 0 0 false = cmd := by
  refine word_eq_of_mask (wordOf_and_translateMask ..) h fun i hi hm => ?_
  obtain rfl : i = 4 := by revert i; decide
  exact wordOf_w ..

/-- The words under ACCESS's mask are those with some `W` and `SZ`. -/
theorem wordOf_of_and_accessMask {cmd : BitVec 16} (h : cmd &&& 0xFF8F = 0x000A) :
    wordOf 0xA (cmd.getLsbD 4) (cmd.extractLsb 6 5) 0 0 false = cmd := by
  refine word_eq_of_mask (wordOf_and_accessMask ..) h fun i hi hm => ?_
  obtain rfl | ⟨hlo, hhi⟩ : i = 4 ∨ (5 ≤ i ∧ i ≤ 6) := by revert i; decide
  · exact wordOf_w ..
  · exact getLsbD_eq_of_extractLsb_eq (wordOf_sz ..) hlo hhi

/-- The words under SET_PRIV's mask are those with some `CPLV` and `OVRV`. -/
theorem wordOf_of_and_setPrivMask {cmd : BitVec 16} (h : cmd &&& 0xE3FF = 0x000D) :
    wordOf 0xD false 0 0 (cmd.extractLsb 11 10) (cmd.getLsbD 12) = cmd := by
  refine word_eq_of_mask (wordOf_and_setPrivMask ..) h fun i hi hm => ?_
  obtain ⟨hlo, hhi⟩ | rfl : (10 ≤ i ∧ i ≤ 11) ∨ i = 12 := by revert i; decide
  · exact getLsbD_eq_of_extractLsb_eq (wordOf_cplv ..) hlo hhi
  · exact wordOf_ovrv ..

/-- An instruction read from a word encodes to that word: the fields it was built from are the bits
its row leaves free (R61, R62). -/
theorem encode_build {r : OpcodeRow} (hr : r ∈ opcodeRows) {c : Command}
    (h : rowMatches r c.cmd = true) : (encode (r.build c)).cmd = c.cmd := by
  fin_cases hr
  · exact wordOf_of_and_translateMask (op := 0x1) (rowMatches_iff.mp h)
  · exact wordOf_of_and_translateMask (op := 0x2) (rowMatches_iff.mp h)
  iterate 7 exact (eq_pattern h rfl).symm
  · exact (congrArg (wordOf 0xA _ · 0 0 false) (encodeSize_decodeSize _)).trans
      (wordOf_of_and_accessMask (rowMatches_iff.mp h))
  iterate 4 exact (eq_pattern h rfl).symm
  · exact wordOf_of_and_setPrivMask (rowMatches_iff.mp h)
  · exact (eq_pattern h rfl).symm

theorem encode_of_decode {c : Command} {i : Instr} (h : decode c = .ok i) :
    (encode i).cmd = c.cmd := by
  rcases decode_cases c with ⟨r, hr, hm, hd⟩ | ⟨-, hd⟩
  · obtain rfl : r.build c = i := Except.ok.inj (hd.symm.trans h)
    exact encode_build hr hm
  · cases hd.symm.trans h

/-- The operands are the low bits of the buses that R62 gives the operation. -/
theorem build_congr {r : OpcodeRow} (hr : r ∈ opcodeRows) {c : Command} {a b : Qword}
    (ha : a.setWidth (operandWidthA (r.pattern.extractLsb 3 0)) =
      c.a.setWidth (operandWidthA (r.pattern.extractLsb 3 0)))
    (hb : b.setWidth (operandWidthB (r.pattern.extractLsb 3 0)) =
      c.b.setWidth (operandWidthB (r.pattern.extractLsb 3 0))) :
    r.build ⟨c.cmd, a, b⟩ = r.build c := by
  fin_cases hr
  · exact congrArg (Instr.translate _) ha
  · exact congrArg (Instr.translateNoabrt _) ha
  · exact congrArg Instr.lookupRead ha
  · exact congrArg Instr.lookupWrite ha
  · exact congrArg₂ Instr.insertRead ha hb
  · exact congrArg₂ Instr.insertWrite ha hb
  · rfl
  · exact congrArg Instr.flushWritePage ha
  · exact congrArg Instr.invalidate ha
  · exact congrArg (Instr.access _ _) ha
  · exact congrArg Instr.writeCr0 ha
  · exact congrArg Instr.writeCr3 ha
  · exact congrArg Instr.writeCr4 ha
  · exact congrArg Instr.setRammask ha
  · rfl
  · exact congrArg Instr.writeAbort ha

/-! ## The legal words -/

/-- The operations that are not reserved (R62). -/
theorem operation_cases {op : BitVec 4} (h0 : op ≠ 0x0) (hF : op ≠ 0xF) :
    op = 0x1 ∨ op = 0x2 ∨ op = 0x3 ∨ op = 0x4 ∨ op = 0x5 ∨ op = 0x6 ∨ op = 0x7 ∨ op = 0x8 ∨
    op = 0x9 ∨ op = 0xA ∨ op = 0xB ∨ op = 0xC ∨ op = 0xD ∨ op = 0xE := by
  revert op; decide

/-- The registers `CRSEL` names (R61). -/
theorem crsel_cases {crsel : BitVec 2} (h3 : crsel ≠ 3) : crsel = 0 ∨ crsel = 1 ∨ crsel = 2 := by
  revert crsel; decide

/-- A word whose reserved bits and unused fields are 0 is its operation's word with the fields of
that operation (R61). -/
theorem wordOf_used_fields {c : Command} (hres : c.reservedClear = true)
    (hu : c.unusedClear = true) :
    wordOf c.op
      (if (c.op = 0x1 ∨ c.op = 0x2) ∨ c.op = 0xA then c.cmd.getLsbD 4 else false)
      (if c.op = 0xA then c.cmd.extractLsb 6 5 else 0#2)
      (if c.op = 0xB then c.cmd.extractLsb 9 8 else 0#2)
      (if c.op = 0xD then c.cmd.extractLsb 11 10 else 0#2)
      (if c.op = 0xD then c.cmd.getLsbD 12 else false) = c.cmd := by
  simp only [Command.unusedClear, Bool.and_eq_true, Bool.or_eq_true, beq_iff_eq,
    Bool.not_eq_true'] at hu
  obtain ⟨⟨⟨hw, hsz⟩, hcrsel⟩, hpriv⟩ := hu
  rw [ite_eq_left_iff.mpr fun hn => (hw.resolve_left hn).symm,
    ite_eq_left_iff.mpr fun hn => (hsz.resolve_left hn).symm,
    ite_eq_left_iff.mpr fun hn => (hcrsel.resolve_left hn).symm,
    ite_eq_left_iff.mpr fun hn => (hpriv.resolve_left hn).1.symm,
    ite_eq_left_iff.mpr fun hn => (hpriv.resolve_left hn).2.symm]
  exact wordOf_fields hres

/-- A legal word is the word of an instruction (R61, R62, R64). -/
theorem exists_encode {c : Command} (h : c.wf = true) : ∃ i, (encode i).cmd = c.cmd := by
  simp only [Command.wf, Bool.and_eq_true] at h
  obtain ⟨⟨⟨hop, hcrsel⟩, hres⟩, hu⟩ := h
  obtain ⟨h0, hF⟩ : c.op ≠ 0x0 ∧ c.op ≠ 0xF := by simpa [Command.opKnown] using hop
  have hcmd := wordOf_used_fields hres hu
  rcases operation_cases h0 hF with h | h | h | h | h | h | h | h | h | h | h | h | h | h <;>
    rw [h] at hcmd
  · exact ⟨.translate (c.cmd.getLsbD 4) 0, hcmd⟩
  · exact ⟨.translateNoabrt (c.cmd.getLsbD 4) 0, hcmd⟩
  · exact ⟨.lookupRead 0, hcmd⟩
  · exact ⟨.lookupWrite 0, hcmd⟩
  · exact ⟨.insertRead 0 0, hcmd⟩
  · exact ⟨.insertWrite 0 0, hcmd⟩
  · exact ⟨.flush, hcmd⟩
  · exact ⟨.flushWritePage 0, hcmd⟩
  · exact ⟨.invalidate 0, hcmd⟩
  · exact ⟨.access (c.cmd.getLsbD 4) (decodeSize (c.cmd.extractLsb 6 5)) 0,
      (congrArg (wordOf 0xA _ · 0 0 false) (encodeSize_decodeSize _)).trans hcmd⟩
  · have h3 : c.cmd.extractLsb 9 8 ≠ 3#2 := by simpa [Command.crselKnown, h] using hcrsel
    rcases crsel_cases h3 with hk | hk | hk <;> rw [hk] at hcmd
    · exact ⟨.writeCr0 0, hcmd⟩
    · exact ⟨.writeCr3 0, hcmd⟩
    · exact ⟨.writeCr4 0, hcmd⟩
  · exact ⟨.setRammask 0, hcmd⟩
  · exact ⟨.setPriv (c.cmd.extractLsb 11 10) (c.cmd.getLsbD 12), hcmd⟩
  · exact ⟨.writeAbort 0, hcmd⟩

theorem encode_wf (i : Instr) : (encode i).wf = true := by
  open Laws.EncodeLegal in
  cases i with
  | translate w a => exact translate w a
  | translateNoabrt w a => exact translateNoabrt w a
  | lookupRead lp => exact lookupRead lp
  | lookupWrite lp => exact lookupWrite lp
  | insertRead lp pp => exact insertRead lp pp
  | insertWrite lp pp => exact insertWrite lp pp
  | flush => exact flush
  | flushWritePage pp => exact flushWritePage pp
  | invalidate a => exact invalidate a
  | access w sz a => exact access w sz a
  | writeCr0 v => exact writeCr0 v
  | writeCr3 v => exact writeCr3 v
  | writeCr4 v => exact writeCr4 v
  | setRammask m => exact setRammask m
  | setPriv cpl ovr => exact setPriv cpl ovr
  | writeAbort code => exact writeAbort code

/-- Whether a command is legal is read from its word alone (R63). -/
theorem wf_congr {c d : Command} (h : c.cmd = d.cmd) : c.wf = d.wf := by
  obtain ⟨_, _, _⟩ := c
  obtain ⟨_, _, _⟩ := d
  obtain rfl := h
  rfl

theorem wf_of_decode {c : Command} {i : Instr} (h : decode c = .ok i) : c.wf = true :=
  (wf_congr (encode_of_decode h)).symm.trans (encode_wf i)

theorem exists_decode_of_wf {c : Command} (h : c.wf = true) : ∃ i, decode c = .ok i := by
  obtain ⟨i, hi⟩ := exists_encode h
  rcases decode_cases (encode i) with ⟨r, hr, hm, -⟩ | ⟨-, hd⟩
  · exact ⟨r.build c, decode_of_row hr (hi ▸ hm)⟩
  · cases hd.symm.trans (decode_encode i)

/-- The reasons in the order the decoder looks for them (R64). -/
theorem illegalReason_eq (c : Command) : illegalReason c.cmd =
    if c.opKnown = false then .reservedOp
    else if c.crselKnown = false then .reservedCrsel
    else if c.reservedClear = false then .reservedBit
    else .unusedField := by
  have ho : c.opKnown = false ↔ c.op = 0x0 ∨ c.op = 0xF := by
    simp only [Command.opKnown, Bool.and_eq_false_iff, bne_eq_false_iff_eq]
  have hk : c.crselKnown = false ↔ c.op = 0xB ∧ c.cmd.extractLsb 9 8 = 3#2 := by
    simp only [Command.crselKnown, Bool.not_eq_false', Bool.and_eq_true, beq_iff_eq]
  have hr : c.reservedClear = false ↔ c.cmd.getLsbD 7 = true ∨ c.cmd.extractLsb 15 13 ≠ 0#3 := by
    simp only [Command.reservedClear, Bool.and_eq_false_iff, Bool.not_eq_false',
      beq_eq_false_iff_ne]
  simp only [ho, hk, hr]
  rfl

theorem decode_of_not_wf {c : Command} (h : c.wf = false) :
    decode c = .error (illegalReason c.cmd) := by
  rcases decode_cases c with ⟨r, -, -, hd⟩ | ⟨-, hd⟩
  · rw [wf_of_decode hd] at h; cases h
  · exact hd

namespace Machine

/-- An illegal word completes with FAULT (R64). -/
theorem runCommand_of_error {c : Command} {e : IllegalWord} (h : decode c = .error e) (s : State) :
    runCommand c s = .next (drive faultOutputs (beginCommand s)) := by
  unfold runCommand; rw [h]

/-! ## Packed slots -/

section
variable (t : Slot)

theorem packSlot_valid : (packSlot t).getLsbD 0 = t.valid := by
  rw [packSlot, getLsbD_append]
  simp

theorem packSlot_lpage : (packSlot t).extractLsb 20 1 = t.lpage := by
  rw [packSlot, BitVec.extractLsb, extractLsb'_append_eq_of_le (by decide)]
  exact extractLsb'_append_eq_right

theorem packSlot_ppage : (packSlot t).extractLsb 48 21 = t.ppage := by
  rw [packSlot, BitVec.extractLsb]
  iterate 2 rw [extractLsb'_append_eq_of_le]
  · exact extractLsb'_append_eq_right
  all_goals decide

theorem packSlot_perm : (packSlot t).extractLsb 56 49 = t.perm := by
  rw [packSlot, BitVec.extractLsb]
  iterate 3 rw [extractLsb'_append_eq_of_le]
  · exact extractLsb'_append_eq_right
  all_goals decide

theorem packSlot_route : (packSlot t).getLsbD 57 = t.route := by
  rw [packSlot]
  iterate 4 rw [getLsbD_append]
  simp

theorem unpackSlot_packSlot : unpackSlot (packSlot t) = t := by
  rw [unpackSlot, packSlot_valid, packSlot_lpage, packSlot_ppage, packSlot_perm, packSlot_route]

end

/-- The fields of a packed slot stand side by side and fill its word (R78). -/
theorem packSlot_unpackSlot (x : BitVec 58) : packSlot (unpackSlot x) = x := by
  simp only [packSlot, unpackSlot, ofBool_getLsbD, BitVec.extractLsb]
  iterate 4 rw [extractLsb'_append_extractLsb'_eq_extractLsb']
  · exact extractLsb'_eq_self
  all_goals rfl

end Machine

end Sys2Proof

open Sys2Proof Sys2Proof.Machine

/-- Settles O1, row by row of the opcode map: the word is the row's, and the row reads back the
fields and the buses. -/
theorem decodeEncodeRoundTrip : Obligations.DecodeEncodeRoundTrip := by
  unfold Obligations.DecodeEncodeRoundTrip
  exact decode_encode

/-- Settles O2: the row that reads a word has no other word with those fields. -/
theorem encodeDecodeSameWord : Obligations.EncodeDecodeSameWord := by
  unfold Obligations.EncodeDecodeSameWord
  exact fun _ _ h => encode_of_decode h

/-- Settles O3: a legal word is some instruction's, so the decoder reads it; a word it reads is one
an instruction encodes to, so it is legal; and any other is rejected under the first reason. -/
theorem decodeAcceptsExactlyLegalWords : Obligations.DecodeAcceptsExactlyLegalWords := by
  unfold Obligations.DecodeAcceptsExactlyLegalWords
  refine fun c => ⟨exists_decode_of_wf, fun ho => ?_, fun ho hk => ?_, fun ho hk hr => ?_,
    fun ho hk hr hu => ?_⟩
  · rw [decode_of_not_wf (by simp [Command.wf, ho]), illegalReason_eq]
    simp [ho]
  · rw [decode_of_not_wf (by simp [Command.wf, hk]), illegalReason_eq]
    simp [ho, hk]
  · rw [decode_of_not_wf (by simp [Command.wf, hr]), illegalReason_eq]
    simp [ho, hk, hr]
  · rw [decode_of_not_wf (by simp [Command.wf, hu]), illegalReason_eq]
    simp [ho, hk, hr]

/-- Settles O4: the same row reads the word, and the row takes no other bits of the buses. -/
theorem decodeIgnoresUnusedBusBits : Obligations.DecodeIgnoresUnusedBusBits := by
  unfold Obligations.DecodeIgnoresUnusedBusBits
  intro c a b ha hb
  rcases decode_cases c with ⟨r, hr, hm, hd⟩ | ⟨hn, hd⟩
  · rw [op_of_row hr hm] at ha hb
    calc decode ⟨c.cmd, a, b⟩ = .ok (r.build ⟨c.cmd, a, b⟩) := decode_of_row hr hm
      _ = .ok (r.build c) := congrArg Except.ok (build_congr hr ha hb)
      _ = decode c := hd.symm
  · rw [hd]; exact decode_of_no_row hn

/-- Settles O5: each word evaluated. -/
theorem spelledWordsDecode : Obligations.SpelledWordsDecode := by
  unfold Obligations.SpelledWordsDecode
  decide

/-- Settles O7: an open block takes the command, and the decoder rejects its word. -/
theorem stepTurnsAwayIllegalWord : Obligations.StepTurnsAwayIllegalWord := by
  unfold Obligations.StepTurnsAwayIllegalWord
  intro s c rest ho hi hw
  calc step s = runCommand c { s with inputs := rest } := step_takes ho hi
    _ = .next (drive faultOutputs (beginCommand { s with inputs := rest })) :=
      runCommand_of_error (decode_of_not_wf hw) _
    _ = _ := rfl

/-- Settles O60: each field reads back from the packed word, and the fields fill it. -/
theorem slotPackingRoundTrips : Obligations.SlotPackingRoundTrips := by
  unfold Obligations.SlotPackingRoundTrips
  exact ⟨unpackSlot_packSlot, packSlot_unpackSlot⟩

end

section
/-! PROOFS. The permission checker and the error code (40_walker.md R100 to R103): what each class
of privilege is allowed, the bits of the two bytes, and the error code that no command produces. -/

namespace Sys2Proof.Machine

/-! ## The permission check by class of privilege -/

section
variable {s : State} {m : WalkMode} {n : Nat} {e : BitVec n} {w : Bool}

theorem isUser_iff : isUser s = true ↔ s.cpl = 3 := beq_iff_eq

theorem isUser_eq_false_iff : isUser s = false ↔ s.cpl ≠ 3 := beq_eq_false_iff_ne

/-- The override passes every check (R100). -/
theorem permOk_override (h : s.ovr = true) : permOk s m e w = true := by
  simp [permOk, userFault, writeFault, h]

/-- A user needs U/S, and R/W for a write (R100, R101). -/
theorem permOk_user (hu : s.cpl = 3) (ho : s.ovr = false) :
    permOk s m e w = (e.getLsbD 2 && (!w || e.getLsbD 1)) := by
  simp [permOk, userFault, writeFault, isUser_iff.mpr hu, ho]

/-- A supervisor needs R/W, for a write and where `CR0.WP` is effective (R100, R101). -/
theorem permOk_supervisor (hu : s.cpl ≠ 3) (ho : s.ovr = false) :
    permOk s m e w = (!w || e.getLsbD 1 || !wpEff s m) := by
  simp [permOk, userFault, writeFault, isUser_eq_false_iff.mpr hu, ho]

end

/-! ## The bits of a permission byte and of an error code -/

section
variable {n : Nat} (e : BitVec n) (s : State) (w p : Bool)

theorem permByte_present : (permByte e).getLsbD 0 = true := by
  unfold permByte; cases e.getLsbD 2 <;> cases e.getLsbD 1 <;> rfl

theorem permByte_write : (permByte e).getLsbD 1 = e.getLsbD 1 := by
  unfold permByte; cases e.getLsbD 2 <;> cases e.getLsbD 1 <;> rfl

theorem permByte_user : (permByte e).getLsbD 2 = e.getLsbD 2 := by
  unfold permByte; cases e.getLsbD 2 <;> cases e.getLsbD 1 <;> rfl

theorem permByte_high {i : Nat} (hi : 3 ≤ i) : (permByte e).getLsbD i = false := by
  rw [permByte, BitVec.getLsbD_append, if_neg (by omega), BitVec.getLsbD_append, if_neg (by omega),
    BitVec.getLsbD_append, if_neg (by omega), BitVec.getLsbD_zero]

theorem errorCode_present : (errorCode s w p).getLsbD 0 = p := by
  unfold errorCode; cases errorUser s <;> cases w <;> cases p <;> rfl

theorem errorCode_write : (errorCode s w p).getLsbD 1 = w := by
  unfold errorCode; cases errorUser s <;> cases w <;> cases p <;> rfl

theorem errorCode_user : (errorCode s w p).getLsbD 2 = errorUser s := by
  unfold errorCode; cases errorUser s <;> cases w <;> cases p <;> rfl

theorem errorCode_above {i : Nat} (hi : 3 ≤ i) : (errorCode s w p).getLsbD i = false := by
  rw [errorCode, BitVec.getLsbD_setWidth, BitVec.getLsbD_of_ge _ _ hi, Bool.and_false]

end

/-! ## The error code 0x1 -/

/-- The error code 0x1 names a supervisor read denied by a present entry (R103). -/
theorem errorUser_of_errorCode_one {s : State} {w p : Bool} (h : errorCode s w p = 1) :
    errorUser s = false ∧ w = false ∧ p = true := by
  refine ⟨?_, ?_, ?_⟩
  · rw [← errorCode_user s w p, h]; decide
  · rw [← errorCode_write s w p, h]; decide
  · rw [← errorCode_present s w p, h]; decide

/-- A failed walk has another code: a denied read is a user's (R100). -/
theorem errorCode_walk_ne_one {s : State} {w p : Bool} {a : LAddr}
    (h : (walk s w a).result = .fail p) : errorCode s w p ≠ 1 := fun he => by
  obtain ⟨hu, rfl, rfl⟩ := errorUser_of_errorCode_one he
  have hsound := walk_sound s false a
  rw [h] at hsound
  obtain ⟨m, n, e, hdenied⟩ := hsound
  rw [errorUser_of_denied_read hdenied] at hu
  cases hu

theorem keeps_errorCode_ne_one : Keeps fun s => s.abrtErr ≠ 1 where
  loads _ _ _ _ _ _ _ _ h := h
  outputs _ _ _ _ h := h
  translate _ _ _ _ _ hx h := by
    rcases translate_cases hx with ⟨-, -, rfl⟩ | ⟨-, -, -, rfl⟩ | ⟨-, -, -, q, hq, -, rfl⟩ |
      ⟨-, -, -, phys, perm, wb, -, -, rfl⟩
    · exact h
    · exact h
    · exact errorCode_walk_ne_one hq
    · simpa [commitWalk] using h
  insertRead _ _ _ h := h
  insertWrite _ _ _ h := h
  flush _ h := h
  dropPage _ _ h := h

end Sys2Proof.Machine

open Sys2Proof.Machine

/-- Settles O17: of what commands are made of, only a failed walk writes `ABRT_ERR`, and a denied
read is a user's. -/
theorem errorCodeOneNeverProduced : Obligations.ErrorCodeOneNeverProduced := by
  unfold Obligations.ErrorCodeOneNeverProduced
  exact fun _ _ _ hs h => keeps_errorCode_ne_one.exec h hs

/-- Settles O13, from what each class of privilege is allowed. -/
theorem permissionTable : Obligations.PermissionTable := by
  unfold Obligations.PermissionTable
  refine fun s mode n e => ⟨fun hu ho he w => ?_, fun hu ho _ he => ?_, fun hu ho h2 h1 w => ?_,
    fun hu ho h2 _ => ?_, fun hu ho he hw => ?_, fun hu ho _ hw => ?_, fun hu ho => ?_,
    fun hu ho he => ?_, fun ho w => permOk_override ho⟩
  · simp [permOk_user hu ho, he]
  · simp [permOk_user hu ho, he]
  · simp [permOk_user hu ho, h1, h2]
  · simp [permOk_user hu ho, h2]
  · simp [permOk_supervisor hu ho, he, hw]
  · simp [permOk_supervisor hu ho, hw]
  · simp [permOk_supervisor hu ho]
  · simp [permOk_supervisor hu ho, he]

/-- Settles O14, mode by mode. -/
theorem writeProtectIsEffective : Obligations.WriteProtectIsEffective := by
  unfold Obligations.WriteProtectIsEffective
  exact fun s => ⟨Bool.and_true _, rfl⟩

/-- Settles O15: the check reads bits 1 and 2, which the byte has from its entry. -/
theorem permByteDecidesAlike : Obligations.PermByteDecidesAlike := by
  unfold Obligations.PermByteDecidesAlike
  exact fun n e _ => ⟨permByte_present e, permByte_write e, permByte_user e,
    fun i hi => permByte_high e hi,
    fun s mode w => permOk_congr (permByte_write e) (permByte_user e)⟩

/-- Settles O16, bit by bit. -/
theorem errorCodeBits : Obligations.ErrorCodeBits := by
  unfold Obligations.ErrorCodeBits
  refine fun s w p => ⟨errorCode_present s w p, errorCode_write s w p, fun h => ?_, fun h => ?_,
    fun i hi => errorCode_above s w p hi⟩
  · rw [errorCode_user, errorUser, if_pos h, isUser]
  · rw [errorCode_user, errorUser, if_neg (by simp [h]), isUser]

end

section
/-! PROOFS. Address arithmetic of the walk (40_walker.md R93): a concatenation of fields is, as a
number, the sum of two masked words, and such a sum does not carry. -/

namespace Sys2Proof.Machine

section
variable {n : Nat}

theorem toNat_append_eq_add {k : Nat} (x : BitVec n) (y : BitVec k) :
    (x ++ y).toNat = x.toNat * 2 ^ k + y.toNat := by
  rw [BitVec.toNat_append, ← Nat.shiftLeft_add_eq_or_of_lt y.isLt, Nat.shiftLeft_eq]

/-- A mask with bits `lo` to `hi - 1` set keeps that field in its place. -/
theorem toNat_and_field (x : BitVec n) {lo hi : Nat} (hlo : lo ≤ hi) (hn : hi ≤ n) :
    (x &&& BitVec.ofNat n (2 ^ hi - 2 ^ lo)).toNat = x.toNat % 2 ^ hi / 2 ^ lo * 2 ^ lo := by
  have hmask : 2 ^ hi - 2 ^ lo = (2 ^ (hi - lo) - 1) * 2 ^ lo := by
    rw [Nat.sub_one_mul, ← Nat.pow_add, Nat.sub_add_cancel hlo]
  have hlt : 2 ^ hi - 2 ^ lo < 2 ^ n :=
    (Nat.sub_lt (Nat.two_pow_pos hi) (Nat.two_pow_pos lo)).trans_le
      (Nat.pow_le_pow_right (by decide) hn)
  rw [BitVec.toNat_and, BitVec.toNat_ofNat, Nat.mod_eq_of_lt hlt, hmask]
  refine Nat.eq_of_testBit_eq fun i => ?_
  rw [Nat.testBit_and, Nat.testBit_mul_two_pow, Nat.testBit_two_pow_sub_one,
    Nat.testBit_mul_two_pow, Nat.testBit_div_two_pow, Nat.testBit_mod_two_pow]
  by_cases hlow : lo ≤ i
  · rw [Nat.sub_add_cancel hlow]
    have hbit : i - lo < hi - lo ↔ i < hi := by omega
    simp [hlow, hbit, Bool.and_comm]
  · simp [hlow]

/-- A word above bit `k` and a field below it: their sum does not carry (R93). -/
theorem eq_masked_add {x y z : BitVec n} {k lo hi : Nat}
    (hz : z.toNat = x.toNat / 2 ^ k * 2 ^ k + y.toNat % 2 ^ hi / 2 ^ lo * 2 ^ lo)
    (hk : k ≤ n := by decide) (hlo : lo ≤ hi := by decide) (hhi : hi ≤ k := by decide) :
    z = (x &&& BitVec.ofNat n (2 ^ n - 2 ^ k)) + (y &&& BitVec.ofNat n (2 ^ hi - 2 ^ lo)) := by
  refine BitVec.eq_of_toNat_eq ?_
  have hx := toNat_and_field x hk (Nat.le_refl n)
  rw [Nat.mod_eq_of_lt x.isLt] at hx
  have hy := toNat_and_field y hlo (hhi.trans hk)
  rw [BitVec.toNat_add, hx, hy, ← hz, Nat.mod_eq_of_lt z.isLt]

end

end Sys2Proof.Machine

open Sys2Proof.Machine

/-- Settles O18: each address as a number, field by field. -/
theorem entryAddressesNeverCarry : Obligations.EntryAddressesNeverCarry := by
  unfold Obligations.EntryAddressesNeverCarry
  refine ⟨fun cr3 a => ⟨?_, ?_⟩, fun pde a => ⟨?_, ?_, ?_⟩, fun e a => ⟨?_, ?_, ?_, ?_⟩⟩
  · refine eq_masked_add (k := 12) (lo := 2) (hi := 12) ?_
    rw [pdeAddr2, toNat_append_eq_add, toNat_append_eq_add]
    simp; omega
  · refine eq_masked_add (k := 5) (lo := 3) (hi := 5) ?_
    rw [pdpteAddr3, toNat_append_eq_add, toNat_append_eq_add]
    simp; omega
  · refine eq_masked_add (k := 12) (lo := 2) (hi := 12) ?_
    rw [pteAddr2, toNat_append_eq_add, toNat_append_eq_add]
    simp; omega
  · refine eq_masked_add (k := 12) (lo := 0) (hi := 12) ?_
    rw [phys4K, toNat_append_eq_add]
    simp; omega
  · refine eq_masked_add (k := 22) (lo := 0) (hi := 22) ?_
    rw [phys4M, toNat_append_eq_add]
    simp; omega
  · refine eq_masked_add (k := 12) (lo := 3) (hi := 12) ?_
    rw [pdeAddr3, toNat_append_eq_add, toNat_append_eq_add]
    simp; omega
  · refine eq_masked_add (k := 12) (lo := 3) (hi := 12) ?_
    rw [pteAddr3, toNat_append_eq_add, toNat_append_eq_add]
    simp; omega
  · refine eq_masked_add (k := 12) (lo := 0) (hi := 12) ?_
    rw [phys4KPae, toNat_append_eq_add]
    simp; omega
  · refine eq_masked_add (k := 21) (lo := 0) (hi := 21) ?_
    rw [phys2M, toNat_append_eq_add]
    simp; omega

end

section
/-! PROOFS. TRANSLATE without a committed walk (40_walker.md R91, R92, R98, R103): the fast exit,
paging off, and the page fault of every entry that ends a walk. -/

namespace Sys2Proof.Machine

/-! ## Without a walk -/

section
variable {s : State} {w : Bool} {a : LAddr}

theorem execTranslate_abort (h : s.abrt ≠ 0) :
    execTranslate w a s = .next (drive faultOutputs s) := by
  unfold execTranslate
  rw [translate_abort h]
  rfl

theorem execTranslateNoabrt_abort (h : s.abrt ≠ 0) :
    execTranslateNoabrt w a s = .next (drive faultOutputs s) := by
  unfold execTranslateNoabrt
  exact if_pos h

theorem execTranslate_off (h : s.abrt = 0) (hp : pg s = false) :
    execTranslate w a s =
      .next (drive ⟨a.setWidth 64, stOk, 0, 0⟩ { s with lastPerm := permAll }) := by
  unfold execTranslate
  rw [translate_off h hp, ← BitVec.setWidth_setWidth (u := 32) (v := 40) (by decide)]
  rfl

theorem execTranslateNoabrt_off (h : s.abrt = 0) (hp : pg s = false) :
    execTranslateNoabrt w a s = .next (drive ⟨a.setWidth 64, stOk, 0, 0⟩ s) := by
  unfold execTranslateNoabrt
  rw [if_neg (not_not.mpr h), if_pos (by simp [hp])]

end

/-! ## What a leaf answers -/

section
variable {n : Nat} {s : State} {m : WalkMode} {w : Bool} {pde pte : BitVec n}
  {pdeA pteA phys : PAddr}

theorem largeLeaf_granted (h : permOk s m pde w = true) :
    largeLeaf s m w pde pdeA phys = .ok phys (permByte pde) [⟨pdeA, leafBits w⟩] := if_pos h

theorem largeLeaf_denied (h : permOk s m pde w = false) :
    largeLeaf s m w pde pdeA phys = .fail true := if_neg (by simp [h])

theorem smallLeaf_absent (h : pte.getLsbD 0 = false) :
    smallLeaf s m w pde pte pdeA pteA phys = .fail false := if_pos (by rw [h]; rfl)

theorem smallLeaf_granted (h : pte.getLsbD 0 = true) (hp : permOk s m (pte &&& pde) w = true) :
    smallLeaf s m w pde pte pdeA pteA phys =
      .ok phys (permByte (pte &&& pde)) [⟨pdeA, accessedBits⟩, ⟨pteA, leafBits w⟩] := by
  unfold smallLeaf
  rw [if_neg (by rw [h]; decide), if_pos hp]

theorem smallLeaf_denied (h : pte.getLsbD 0 = true) (hp : permOk s m (pte &&& pde) w = false) :
    smallLeaf s m w pde pte pdeA pteA phys = .fail true := by
  unfold smallLeaf
  rw [if_neg (by rw [h]; decide), if_neg (by simp [hp])]

end

/-! ## The masked entries of the PAE walk -/

section
variable {s : State} {m : WalkMode} {w : Bool} (q q' : Qword)

theorem maskEntry_and_bit {i : Nat} (hi : i < 40) :
    (maskEntry q &&& maskEntry q').getLsbD i = (q &&& q').getLsbD i := by
  rw [BitVec.getLsbD_and, BitVec.getLsbD_and, maskEntry_bit q hi, maskEntry_bit q' hi]

theorem permOk_maskEntry : permOk s m (maskEntry q) w = permOk s m q w :=
  permOk_congr (maskEntry_bit q (by decide)) (maskEntry_bit q (by decide))

theorem permOk_maskEntry_and :
    permOk s m (maskEntry q &&& maskEntry q') w = permOk s m (q &&& q') w :=
  permOk_congr (maskEntry_and_bit q q' (by decide)) (maskEntry_and_bit q q' (by decide))

theorem permByte_maskEntry : permByte (maskEntry q) = permByte q :=
  permByte_congr (maskEntry_bit q (by decide)) (maskEntry_bit q (by decide))

theorem permByte_maskEntry_and : permByte (maskEntry q &&& maskEntry q') = permByte (q &&& q') :=
  permByte_congr (maskEntry_and_bit q q' (by decide)) (maskEntry_and_bit q q' (by decide))

end

/-! ## The walk that an entry fails -/

section
variable {s : State} {a : LAddr} {dirA pdeA pteA : PAddr} {pde pte : Dword} {q0 q1 q2 : Qword}

theorem Reads2.reached (h : Reads2 s a pdeA pde) :
    [PortAccess.read4 pdeA pde].all (portReaches s) = true := by simp [h.reach]

theorem Table2.reached (h : Table2 s a pdeA pde pteA pte) :
    [PortAccess.read4 pdeA pde, .read4 pteA pte].all (portReaches s) = true := by
  simp [h.reach, h.reachT]

theorem Reads3.reached (h : Reads3 s a dirA q0) :
    [PortAccess.read8 dirA q0].all (portReaches s) = true := by simp [h.reach]

theorem Directory3.reached (h : Directory3 s a dirA q0 pdeA q1) :
    [PortAccess.read8 dirA q0, .read8 pdeA q1].all (portReaches s) = true := by
  simp [h.reach, h.reachD]

theorem Table3.reached (h : Table3 s a dirA q0 pdeA q1 pteA q2) :
    [PortAccess.read8 dirA q0, .read8 pdeA q1, .read8 pteA q2].all (portReaches s) = true := by
  simp [h.reach, h.reachD, h.reachT]

/-- A table entry is not present (R98). -/
theorem Table2.absent (h : Table2 s a pdeA pde pteA pte) (w : Bool) (hp : pte.getLsbD 0 = false) :
    Machine.walk s w a = ⟨[.read4 pdeA pde, .read4 pteA pte], .fail false⟩ := by
  rw [h.walk, smallLeaf_absent hp]

/-- A PAE table entry is not present (R98). -/
theorem Table3.absent (h : Table3 s a dirA q0 pdeA q1 pteA q2) (w : Bool)
    (hp : q2.getLsbD 0 = false) :
    Machine.walk s w a = ⟨[.read8 dirA q0, .read8 pdeA q1, .read8 pteA q2], .fail false⟩ := by
  rw [h.walk, smallLeaf_absent (by rw [maskEntry_bit q2 (by decide), hp])]

/-- A 4 MB page is denied (R100). -/
theorem Large2.denied (h : Large2 s a pdeA pde) {w : Bool} (hd : permOk s .twoLevel pde w = false) :
    Machine.walk s w a = ⟨[.read4 pdeA pde], .fail true⟩ := by
  rw [h.walk, largeLeaf_denied hd]

/-- A 4 KB page is denied in two-level mode (R97, R100). -/
theorem Table2.denied (h : Table2 s a pdeA pde pteA pte) {w : Bool} (hp : pte.getLsbD 0 = true)
    (hd : permOk s .twoLevel (pte &&& pde) w = false) :
    Machine.walk s w a = ⟨[.read4 pdeA pde, .read4 pteA pte], .fail true⟩ := by
  rw [h.walk, smallLeaf_denied hp hd]

/-- A 2 MB page is denied (R100). -/
theorem Directory3.denied (h : Directory3 s a dirA q0 pdeA q1) {w : Bool} (hp : q1.getLsbD 0 = true)
    (hl : Maps2M s q1) (hd : permOk s .pae q1 w = false) :
    Machine.walk s w a = ⟨[.read8 dirA q0, .read8 pdeA q1], .fail true⟩ := by
  rw [h.large w hp hl, largeLeaf_denied ((permOk_maskEntry q1).trans hd)]

/-- A 4 KB page is denied in PAE mode (R97, R100). -/
theorem Table3.denied (h : Table3 s a dirA q0 pdeA q1 pteA q2) {w : Bool} (hp : q2.getLsbD 0 = true)
    (hd : permOk s .pae (q2 &&& q1) w = false) :
    Machine.walk s w a = ⟨[.read8 dirA q0, .read8 pdeA q1, .read8 pteA q2], .fail true⟩ := by
  rw [h.walk, smallLeaf_denied (by rw [maskEntry_bit q2 (by decide), hp])
    ((permOk_maskEntry_and q2 q1).trans hd)]

end

/-- A failed walk within the port's reach raises its page fault (R213). -/
theorem execTranslate_walk_fail {s : State} {w p : Bool} {a : LAddr} {l : List PortAccess}
    (hw : Walks s) (hk : walk s w a = ⟨l, .fail p⟩) (hr : l.all (portReaches s) = true) :
    exec (.translate w a) s = .next (faultState s a w p l) := by
  have hx := execTranslate_fail (s := s) (w := w) (p := p) (a := a) hw (by rw [hk]; exact hr)
    (by rw [hk])
  rw [hk] at hx
  exact hx

end Sys2Proof.Machine

open Sys2Proof.Machine

/-- Settles O25: at each level the walk ends at the entry, with the reads made so far. -/
theorem notPresentFaultsAtFirstLevel : Obligations.NotPresentFaultsAtFirstLevel := by
  unfold Obligations.NotPresentFaultsAtFirstLevel
  intro s w a hw
  refine ⟨fun _ _ h hp => ?_, fun _ _ _ _ h hp => ?_, fun _ _ h hp => ?_, fun _ _ _ _ h hp => ?_,
    fun _ _ _ _ _ _ h hp => ?_⟩
  all_goals exact execTranslate_walk_fail hw (h.absent w hp) h.reached

/-- Settles O26: each kind of leaf, denied. -/
theorem deniedLeafFaults : Obligations.DeniedLeafFaults := by
  unfold Obligations.DeniedLeafFaults
  intro s w a hw
  refine ⟨fun _ _ h hd => ?_, fun _ _ _ _ h hp hd => ?_, fun _ _ _ _ h hp hl hd => ?_,
    fun _ _ _ _ _ _ h hp hd => ?_⟩
  · exact execTranslate_walk_fail hw (h.denied hd) h.reached
  · exact execTranslate_walk_fail hw (h.denied hp hd) h.reached
  · exact execTranslate_walk_fail hw (h.denied hp hl hd) h.reached
  · exact execTranslate_walk_fail hw (h.denied hp hd) h.reached

/-- Settles O19: neither command gets past the pending abort. -/
theorem translateFastExit : Obligations.TranslateFastExit := by
  unfold Obligations.TranslateFastExit
  exact fun s w a h => ⟨execTranslate_abort h, execTranslateNoabrt_abort h⟩

/-- Settles O20: neither command walks, and 0x07 is writable and user. -/
theorem pagingOffIsIdentity : Obligations.PagingOffIsIdentity := by
  unfold Obligations.PagingOffIsIdentity
  exact fun s w a h hp => ⟨execTranslate_off h hp, execTranslateNoabrt_off h hp,
    fun mode w' => permOk_of_writable_user (by decide) (by decide) s mode w'⟩

end

section
/-! PROOFS. A committed walk (40_walker.md R104, R110): what TRANSLATE returns and logs, the words
that its write-backs leave in RAM, and the bytes that they leave alone. -/

namespace Sys2Proof.Machine

/-! ## A word in RAM under write-backs -/

/-- The naturally aligned word at an address lies in RAM and is `v`. -/
structure RamWord (s : State) (a : PAddr) (v : Dword) : Prop where
  aligned : LowZero 2 a
  ram     : RamAt s a 4
  word    : mem32 s.mem a = v

section
variable {s : State} {a a' : PAddr} {v : Dword} {b : WriteBack}

theorem RamWord.read (h : RamWord s a v) (k : Nat) : memRead4 s k a = v := by
  rw [memRead4_ram h.ram h.aligned.fits4, h.word]

theorem RamWord.logged (h : RamWord s a v) (l : List PortAccess) : RamWord (logPort l s) a v :=
  ⟨h.aligned, h.ram, h.word⟩

/-- A write-back sets its bits in its own word (R104). -/
theorem RamWord.after_own (h : RamWord s a v) (hb : portAddr s b.addr = a) (hm : Memory.wf s.mem) :
    RamWord (writeBack b s) a (v ||| b.bits) where
  aligned := h.aligned
  ram := h.ram
  word := by
    rw [writeBack_ram hb h.aligned.fits4 h.ram, h.word]
    exact mem32_store4 _ hm h.aligned.fits4 h.ram

/-- Different aligned words have no byte in common. -/
theorem LowZero.outside (ha : LowZero 2 a) (ha' : LowZero 2 a') (hne : a ≠ a') {x : Nat}
    (h1 : a.toNat ≤ x) (h2 : x < a.toNat + 4) : Outside x a' 4 := by
  have hne' : a.toNat ≠ a'.toNat := fun h => hne (BitVec.eq_of_toNat_eq h)
  have hmod := ha.mod
  have hmod' := ha'.mod
  unfold Outside
  omega

/-- A write-back leaves every other word as it was (R104). -/
theorem RamWord.after_other (h : RamWord s a v) (hb : portAddr s b.addr = a') (hl : LowZero 2 a')
    (hne : a ≠ a') : RamWord (writeBack b s) a v where
  aligned := h.aligned
  ram := h.ram
  word := by
    subst hb
    rw [← h.word]
    exact mem32_congr fun x h1 h2 =>
      store4_outside s.env s.mem _ _ hl.fits4 (h.aligned.outside hl hne h1 h2)

end

/-! ## The port accesses of the write-backs -/

/-- The port accesses that write-backs make, in order (R104). -/
def backAccesses : List WriteBack → State → List PortAccess
  | [], _ => []
  | b :: l, s =>
    .read4 (portAddr s b.addr) (memRead4 s 0 (portAddr s b.addr)) ::
      .write4 (portAddr s b.addr) (memRead4 s 0 (portAddr s b.addr) ||| b.bits) ::
        backAccesses l (writeBack b s)

/-- The write-backs change memory, and log their accesses (R104). -/
theorem writeBacks_eq (l : List WriteBack) (s : State) :
    writeBacks l s = { s with
      mem := (writeBacks l s).mem, portLog := s.portLog ++ backAccesses l s,
      portCount := s.portCount + 2 * l.length } := by
  induction l generalizing s with
  | nil => simp [backAccesses, writeBacks]
  | cons b l ih =>
    rw [writeBacks, ih (writeBack b s)]
    simp [backAccesses, writeBack, memWrite4, logPort, Nat.mul_add, Nat.add_assoc, Nat.add_comm 2]

section
variable {s : State} {p p1 p2 a a1 a2 : PAddr} {v v1 v2 : Dword}

/-- One write-back to a word in RAM: what it logs and leaves (R104). -/
theorem writeBacks_one_ram (x : Dword) (h : RamWord s a v) (hp : portAddr s p = a)
    (hm : Memory.wf s.mem) :
    backAccesses [⟨p, x⟩] s = [.read4 a v, .write4 a (v ||| x)] ∧
      mem32 (writeBacks [⟨p, x⟩] s).mem a = v ||| x := by
  refine ⟨?_, (h.after_own hp hm).word⟩
  simp only [backAccesses, hp, h.read]

/-- Two write-backs to words in RAM, which may be one word: the second re-reads its word after the
first (R104). -/
theorem writeBacks_two_ram (x1 x2 : Dword) (h1 : RamWord s a1 v1) (h2 : RamWord s a2 v2)
    (hp1 : portAddr s p1 = a1) (hp2 : portAddr s p2 = a2) (hm : Memory.wf s.mem) :
    let v2' := if a1 = a2 then v2 ||| x1 else v2
    backAccesses [⟨p1, x1⟩, ⟨p2, x2⟩] s =
      [.read4 a1 v1, .write4 a1 (v1 ||| x1), .read4 a2 v2', .write4 a2 (v2' ||| x2)] ∧
    mem32 (writeBacks [⟨p1, x1⟩, ⟨p2, x2⟩] s).mem a2 = v2' ||| x2 ∧
    (a1 ≠ a2 → mem32 (writeBacks [⟨p1, x1⟩, ⟨p2, x2⟩] s).mem a1 = v1 ||| x1) := by
  intro v2'
  have hfirst : RamWord (writeBack ⟨p1, x1⟩ s) a1 (v1 ||| x1) := h1.after_own hp1 hm
  have hsecond : RamWord (writeBack ⟨p1, x1⟩ s) a2 v2' := by
    by_cases he : a1 = a2
    · rw [show v2' = v2 ||| x1 from if_pos he]
      exact h2.after_own (hp1.trans he) hm
    · rw [show v2' = v2 from if_neg he]
      exact h2.after_other hp1 h1.aligned (Ne.symm he)
  obtain ⟨hlog, hword⟩ := writeBacks_one_ram x2 hsecond hp2 (store4_wf _ _ _ hm)
  refine ⟨?_, hword, fun hne => (hfirst.after_other (b := ⟨p2, x2⟩) hp2 h2.aligned hne).word⟩
  rw [backAccesses, hlog, hp1, h1.read]

end

/-! ## TRANSLATE that commits its walk -/

section
variable {s : State} {w : Bool} {a : LAddr} {l : List PortAccess} {phys : PAddr} {perm : Byte}
  {wb : List WriteBack} {res : Qword}

/-- A successful walk within the port's reach is committed (R110). -/
theorem execTranslate_walk_ok (hw : Walks s) (hk : walk s w a = ⟨l, .ok phys perm wb⟩)
    (hr : l.all (portReaches s) = true) (hres : phys.setWidth 64 = res) :
    exec (.translate w a) s = .next { s with
      mem := (writeBacks wb (logPort l s)).mem, lastPerm := perm, out := ⟨res, 0b0001, 0, 0⟩,
      portLog := s.portLog ++ (l ++ backAccesses wb (logPort l s)),
      portCount := s.portCount + (l.length + 2 * wb.length) } := by
  have hx := execTranslate_ok (s := s) (w := w) (a := a) (phys := phys) (perm := perm) (wb := wb) hw
    (by rw [hk]; exact hr) (by rw [hk])
  rw [hk, commitWalk, writeBacks_eq] at hx
  rw [exec, hx, ← hres]
  simp [drive, translateOutputs, stOk, logPort, Nat.add_assoc]

/-- It leaves every byte outside its write-backs as it was (R104). -/
theorem walk_ok_outside (hk : walk s w a = ⟨l, .ok phys perm wb⟩) {x : Nat}
    (h : ∀ b ∈ wb, Outside x (portAddr s b.addr) 4) :
    Memory.read (writeBacks wb (logPort l s)).mem x = Memory.read s.mem x := by
  have hwb : ∀ b ∈ wb, LowZero 2 b.addr := by simpa [hk, AlignedBacks] using (walk_aligned s w a).2
  exact writeBacks_outside wb (logPort l s) hwb h

end

/-! ## The entries that a walk finds -/

/-- A field of a masked PAE entry is the entry's (R95). -/
theorem maskEntry_extractLsb (q : Qword) {lo : Nat} (hlo : lo ≤ 39) :
    (maskEntry q).extractLsb 39 lo = q.extractLsb 39 lo := by
  refine BitVec.eq_of_getLsbD_eq fun i hi => ?_
  rw [BitVec.getLsbD_extractLsb, BitVec.getLsbD_extractLsb, maskEntry_bit q (by omega)]

theorem phys4KPae_maskEntry (q : Qword) (a : LAddr) :
    phys4KPae (maskEntry q) a = q.extractLsb 39 12 ++ a.extractLsb 11 0 := by
  rw [phys4KPae, maskEntry_extractLsb q (by decide)]

theorem phys2M_maskEntry (q : Qword) (a : LAddr) :
    phys2M (maskEntry q) a = q.extractLsb 39 21 ++ a.extractLsb 20 0 := by
  rw [phys2M, maskEntry_extractLsb q (by decide)]

section
variable {s : State} {a : LAddr} {dirA pdeA pteA : PAddr} {pde pte : Dword} {q0 q1 q2 : Qword}
  {w : Bool}

theorem Reads2.ramWord (h : Reads2 s a pdeA pde) (hr : RamAt s pdeA 4) : RamWord s pdeA pde :=
  ⟨h.low, hr, mem32_of_read hr h.low h.read⟩

theorem Table2.ramWord (h : Table2 s a pdeA pde pteA pte) (hr : RamAt s pteA 4) :
    RamWord s pteA pte :=
  ⟨h.low, hr, mem32_of_read hr h.low h.readT⟩

/-- A write-back is 32 bits wide: it sees the low word of a PAE entry (R104). -/
theorem Directory3.ramWord (h : Directory3 s a dirA q0 pdeA q1) (hr : RamAt s pdeA 4) :
    RamWord s pdeA (q1.setWidth 32) :=
  ⟨h.low.mono (by decide), hr, mem32_of_read8 hr h.low h.readD⟩

theorem Table3.ramWord (h : Table3 s a dirA q0 pdeA q1 pteA q2) (hr : RamAt s pteA 4) :
    RamWord s pteA (q2.setWidth 32) :=
  ⟨h.low.mono (by decide), hr, mem32_of_read8 hr h.low h.readT⟩

/-- A 4 MB page is granted (R96, R100). -/
theorem Large2.granted (h : Large2 s a pdeA pde) (hd : permOk s .twoLevel pde w = true) :
    Machine.walk s w a = ⟨[.read4 pdeA pde], .ok ((phys4M pde a).setWidth 40) (permByte pde)
      [⟨(pdeAddr2 s.cr3 a).setWidth 40, leafBits w⟩]⟩ := by
  rw [h.walk, largeLeaf_granted hd]

/-- A 4 KB page is granted in two-level mode (R97, R100). -/
theorem Table2.granted (h : Table2 s a pdeA pde pteA pte) (hp : pte.getLsbD 0 = true)
    (hd : permOk s .twoLevel (pte &&& pde) w = true) :
    Machine.walk s w a = ⟨[.read4 pdeA pde, .read4 pteA pte],
      .ok ((phys4K pte a).setWidth 40) (permByte (pte &&& pde))
        [⟨(pdeAddr2 s.cr3 a).setWidth 40, accessedBits⟩,
          ⟨(pteAddr2 pde a).setWidth 40, leafBits w⟩]⟩ := by
  rw [h.walk, smallLeaf_granted hp hd]

/-- A 2 MB page is granted (R96, R100). -/
theorem Directory3.granted (h : Directory3 s a dirA q0 pdeA q1) (hp : q1.getLsbD 0 = true)
    (hl : Maps2M s q1) (hd : permOk s .pae q1 w = true) :
    Machine.walk s w a = ⟨[.read8 dirA q0, .read8 pdeA q1],
      .ok (phys2M (maskEntry q1) a) (permByte q1) [⟨pdeAddr3 (maskEntry q0) a, leafBits w⟩]⟩ := by
  rw [h.large w hp hl, largeLeaf_granted ((permOk_maskEntry q1).trans hd), permByte_maskEntry]

/-- A 4 KB page is granted in PAE mode (R97, R100). -/
theorem Table3.granted (h : Table3 s a dirA q0 pdeA q1 pteA q2) (hp : q2.getLsbD 0 = true)
    (hd : permOk s .pae (q2 &&& q1) w = true) :
    Machine.walk s w a = ⟨[.read8 dirA q0, .read8 pdeA q1, .read8 pteA q2],
      .ok (phys4KPae (maskEntry q2) a) (permByte (q2 &&& q1))
        [⟨pdeAddr3 (maskEntry q0) a, accessedBits⟩, ⟨pteAddr3 (maskEntry q1) a, leafBits w⟩]⟩ := by
  rw [h.walk, smallLeaf_granted (by rw [maskEntry_bit q2 (by decide), hp])
    ((permOk_maskEntry_and q2 q1).trans hd), permByte_maskEntry_and]

end

end Sys2Proof.Machine

open Sys2Proof.Machine

/-- Settles O21: the table entry is granted, and both entries are written back in order. -/
theorem translateSmallPageTwoLevel : Obligations.TranslateSmallPageTwoLevel := by
  unfold Obligations.TranslateSmallPageTwoLevel
  intro s w a pdeA pteA pde pte hw h hp hd leaf pte'
  have hk := h.granted hp hd
  have hres : ((phys4K pte a).setWidth 40).setWidth 64 =
    (pte.extractLsb 31 12 ++ a.extractLsb 11 0).setWidth 64 := BitVec.setWidth_setWidth (by decide)
  refine ⟨_, _, execTranslate_walk_ok hw hk h.reached hres, fun hm hr1 hr2 => ?_,
    fun x h1 h2 => walk_ok_outside hk ?_⟩
  · obtain ⟨hlog, hwords⟩ := writeBacks_two_ram accessedBits (leafBits w)
      ((h.toReads2.ramWord hr1).logged [.read4 pdeA pde, .read4 pteA pte])
      ((h.ramWord hr2).logged _) h.addr.symm h.addrT.symm hm
    exact ⟨congrArg ([.read4 pdeA pde, .read4 pteA pte] ++ ·) hlog, hwords⟩
  · simpa [← h.addr, ← h.addrT] using ⟨h1, h2⟩

/-- Settles O22: the directory entry is granted and written back. -/
theorem translateLargePageTwoLevel : Obligations.TranslateLargePageTwoLevel := by
  unfold Obligations.TranslateLargePageTwoLevel
  intro s w a pdeA pde hw h hd leaf
  have hk := h.granted hd
  have hres : ((phys4M pde a).setWidth 40).setWidth 64 =
    (pde.extractLsb 31 22 ++ a.extractLsb 21 0).setWidth 64 := BitVec.setWidth_setWidth (by decide)
  refine ⟨_, _, execTranslate_walk_ok hw hk h.reached hres, fun hm hr => ?_,
    fun x hx => walk_ok_outside hk ?_⟩
  · obtain ⟨hlog, hword⟩ := writeBacks_one_ram (leafBits w)
      ((h.toReads2.ramWord hr).logged [.read4 pdeA pde]) h.addr.symm hm
    exact ⟨congrArg ([.read4 pdeA pde] ++ ·) hlog, hword⟩
  · simpa [← h.addr] using hx

/-- Settles O23: the table entry is granted, and the low words of both entries are written back in
order. -/
theorem translateSmallPagePae : Obligations.TranslateSmallPagePae := by
  unfold Obligations.TranslateSmallPagePae
  intro s w a dirA pdeA pteA q0 q1 q2 hw h hp hd leaf lo1 lo2
  have hk := h.granted hp hd
  have hres := congrArg (BitVec.setWidth 64) (phys4KPae_maskEntry q2 a)
  refine ⟨_, _, execTranslate_walk_ok hw hk h.reached hres, fun hm hr1 hr2 => ?_,
    fun x h1 h2 => walk_ok_outside hk ?_⟩
  · obtain ⟨hlog, hwords⟩ := writeBacks_two_ram accessedBits (leafBits w)
      ((h.toDirectory3.ramWord hr1).logged [.read8 dirA q0, .read8 pdeA q1, .read8 pteA q2])
      ((h.ramWord hr2).logged _) h.addrD.symm h.addrT.symm hm
    exact ⟨congrArg ([.read8 dirA q0, .read8 pdeA q1, .read8 pteA q2] ++ ·) hlog, hwords⟩
  · simpa [← h.addrD, ← h.addrT] using ⟨h1, h2⟩

/-- Settles O24: the directory entry is granted, and its low word is written back. -/
theorem translateLargePagePae : Obligations.TranslateLargePagePae := by
  unfold Obligations.TranslateLargePagePae
  intro s w a dirA pdeA q0 q1 hw h hp hl hd leaf lo1
  have hk := h.granted hp hl hd
  have hres := congrArg (BitVec.setWidth 64) (phys2M_maskEntry q1 a)
  refine ⟨_, _, execTranslate_walk_ok hw hk h.reached hres, fun hm hr => ?_,
    fun x hx => walk_ok_outside hk ?_⟩
  · obtain ⟨hlog, hword⟩ := writeBacks_one_ram (leafBits w)
      ((h.ramWord hr).logged [.read8 dirA q0, .read8 pdeA q1]) h.addrD.symm hm
    exact ⟨congrArg ([.read8 dirA q0, .read8 pdeA q1] ++ ·) hlog, hword⟩
  · simpa [← h.addrD] using hx

end

section
/-! PROOFS. TRANSLATE beside the silent walk, the caches, user rights and memory (40_walker.md R110,
R111), and an access that straddles two pages with paging off (42_frontend_control.md R181 to
R183). -/

namespace Sys2Proof.Machine

/-! ## The silent walk -/

section
variable {s : State} {w : Bool} {a : LAddr}

/-- TRANSLATE_NOABRT that walks within the port's reach (R111). -/
theorem execTranslateNoabrt_walk {l : List PortAccess} {r : WalkResult} (hw : Walks s)
    (hk : walk s w a = ⟨l, r⟩) (hr : l.all (portReaches s) = true) :
    exec (.translateNoabrt w a) s = .next (drive (peekOutputs r) (logPort l s)) := by
  rw [exec, execTranslateNoabrt, if_neg (not_not.mpr hw.1), if_neg (by simp [hw.2]), hk]
  exact if_neg (by simp [hr])

end

/-! ## The caches -/

/-- TRANSLATE sees neither cache (R110). -/
theorem execTranslate_withCaches {s t : State} {w : Bool} {a : LAddr} (rc wc : Cache)
    (h : execTranslate w a s = .next t) :
    execTranslate w a { s with rc := rc, wc := wc } = .next { t with rc := rc, wc := wc } := by
  have hread : execTranslate w a { s with rc := rc } = .next { t with rc := rc } :=
    (commutes_readCache rc).toCommutes.execTranslate (fun _ _ hr => hr) h
  exact ((commutes_writeCache wc).toCommutes.execTranslate (fun _ _ hr => hr) hread :)

/-! ## A user's rights -/

/-- A user who passes the check without override keeps a permission byte with the rights (R100,
R101). -/
theorem rights_of_permOk {s : State} {m : WalkMode} {n : Nat} {e : BitVec n} {w : Bool}
    (hu : s.cpl = 3) (ho : s.ovr = false) (h : permOk s m e w = true) :
    (permByte e).getLsbD 2 = true ∧ (w = true → (permByte e).getLsbD 1 = true) := by
  rw [permOk_user hu ho, Bool.and_eq_true] at h
  obtain ⟨huser, hwrite⟩ := h
  rw [permByte_user, permByte_write]
  exact ⟨huser, by rintro rfl; simpa using hwrite⟩

/-! ## An access within one page -/

/-- A sub-access stores only to the entries that its walk writes back, and a hit stores nothing
(R104, R150). -/
theorem translateCached_outside {w : Bool} {a : LAddr} {s t : State} {p : Option SubResult}
    {x : Nat} (hx : translateCached w a s = .ok (p, t))
    (h : (∃ k, lookup s w (cacheFor w s) (lpageOf a) = some k) ∨
      ∀ e ∈ walkStores s w a, Outside x e 4) :
    Memory.read t.mem x = Memory.read s.mem x := by
  have miss : lookup s w (cacheFor w s) (lpageOf a) = none →
      ∀ e ∈ walkStores s w a, Outside x e 4 :=
    fun hn => h.resolve_left fun ⟨k, hk⟩ => by rw [hn] at hk; cases hk
  rcases translateCached_cases hx with ⟨_, -, -, rfl⟩ | ⟨hn, ht, -⟩ | ⟨hn, q, u, hu, -, rfl⟩
  · rfl
  · exact translate_outside ht (miss hn)
  · rw [fillCache_mem]; exact translate_outside hu (miss hn)

/-- What an ACCESS within one page leaves in memory is what its sub-access leaves. -/
theorem execAccess_one_mem {w : Bool} {sz : AccessSize} {a : LAddr} {s t : State} (h : s.abrt = 0)
    (hp : a.toNat % 4096 + sizeBytes sz ≤ 4096) (hx : execAccess w sz a s = .next t) :
    ∃ p u, translateCached w a s = .ok (p, u) ∧ t.mem = u.mem := by
  rw [execAccess_one h hp] at hx
  split at hx
  · cases hx
  · next u hu => cases hx; exact ⟨none, u, hu, rfl⟩
  · next p u hu => cases hx; exact ⟨some p, u, hu, rfl⟩

/-! ## Two pages with paging off -/

/-- What a sub-access of a logical page that misses with paging off leaves of what the next one
reads: `LAST_PERM` is 0x07, and a slot of its cache is the page's or was there (R92, R180). -/
structure FilledOff (w : Bool) (lp : LPage) (s u : State) : Prop where
  abrt     : u.abrt = s.abrt
  cr0      : u.cr0 = s.cr0
  rammask  : u.rammask = s.rammask
  env      : u.env = s.env
  mem      : u.mem = s.mem
  lastPerm : u.lastPerm = permAll
  slots    : ∀ k ∈ (cacheFor w u).slots, k.lpage = lp ∨ k ∈ (cacheFor w s).slots

theorem fillCache_filledOff (w : Bool) (lp : LPage) (pp : PPage) (s : State) :
    FilledOff w lp s (fillCache w lp pp { s with lastPerm := permAll }) where
  abrt     := fillCache_abrt ..
  cr0      := fillCache_cr0 ..
  rammask  := fillCache_rammask ..
  env      := fillCache_env ..
  mem      := fillCache_mem ..
  lastPerm := fillCache_lastPerm ..
  slots k hk := by
    unfold fillCache at hk
    split at hk
    · cases w <;> exact (mem_insert hk).imp_left (congrArg Slot.lpage)
    · cases w <;> exact .inr hk

/-- A sub-access that misses with paging off and no code page gives the page itself, under the mask
(R92, R182). -/
theorem translateCached_off {w : Bool} {a : LAddr} {s : State} (h : s.abrt = 0) (hp : pg s = false)
    (hc : s.env.codePages = []) (hl : lookup s w (cacheFor w s) (lpageOf a) = none) :
    ∃ u, translateCached w a s = .ok (some ⟨a.setWidth 40 &&& s.rammask, false⟩, u) ∧
      FilledOff w (lpageOf a) s u := by
  refine ⟨_, ?_, fillCache_filledOff w (lpageOf a) (ppageOf (a.setWidth 40 &&& s.rammask)) s⟩
  unfold translateCached
  rw [hl, translate_off h hp]
  simp [codePresent, hc]

/-- A cache whose valid slots are all of another page misses. -/
theorem lookup_none_of_other {s : State} {w : Bool} {c : Cache} {lp lq : LPage} (hne : lp ≠ lq)
    (h : ∀ k ∈ c.slots, k.lpage = lp ∨ k.valid = false) : lookup s w c lq = none := by
  refine lookup_none.mpr fun k hk => Bool.eq_false_iff.mpr fun hh => ?_
  obtain ⟨hv, hl, -⟩ := hits_iff.mp hh
  rcases h k hk with hk | hk
  · exact hne (hk.symm.trans hl)
  · rw [hk] at hv; cases hv

/-- A straddling ACCESS whose two parts are translated (R183). -/
theorem execAccess_two {w : Bool} {sz : AccessSize} {a : LAddr} {n0 : Nat} {s u v : State}
    {p q : SubResult} (h : s.abrt = 0) (h0 : a.toNat % 4096 + n0 = 4096) (hn : n0 < sizeBytes sz)
    (hp : translateCached w a s = .ok (some p, u))
    (hq : translateCached w (a + BitVec.ofNat 32 n0) u = .ok (some q, v)) :
    execAccess w sz a s = .next (drive ⟨p.phys.setWidth 64,
      stOk ||| stWhen (p.route || q.route) stRoute ||| stSplit, q.phys.setWidth 64,
      BitVec.ofNat 4 n0⟩ v) := by
  unfold execAccess
  rw [if_neg (not_not.mpr h)]
  dsimp only
  rw [splitAccess_two h0 hn, translateSubs_two, hp]
  dsimp only
  rw [hq]
  simp [accessOutputs, stWhen]

/-- The next page is another page (R181). -/
theorem lpageOf_next_ne {a : LAddr} {n0 : Nat} (h : a.toNat % 4096 + n0 = 4096) :
    lpageOf a ≠ lpageOf (a + BitVec.ofNat 32 n0) := fun he => by
  have hpage := congrArg BitVec.toNat he
  simp only [lpageOf, BitVec.extractLsb_toNat, BitVec.toNat_add, BitVec.toNat_ofNat] at hpage
  have hlt := a.isLt
  omega

end Sys2Proof.Machine

open Sys2Proof.Machine

/-- Settles O28: with an abort pending, with paging off, and for each answer of the walk that both
make. -/
theorem silentWalkAnswersAlike : Obligations.SilentWalkAnswersAlike := by
  unfold Obligations.SilentWalkAnswersAlike
  intro s w a ht
  by_cases ha : s.abrt = 0
  · cases hp : pg s with
    | false =>
      exact ⟨_, _, execTranslate_off ha hp, execTranslateNoabrt_off ha hp, rfl,
        ⟨[], List.append_nil _⟩, rfl, fun h => absurd ha h, fun _ _ => rfl, fun _ h => absurd ha h⟩
    | true =>
      have hw : Walks s := ⟨ha, hp⟩
      rcases hk : walk s w a with ⟨l, p | ⟨phys, perm, wb⟩⟩
      all_goals
        have hr : l.all (portReaches s) = true := List.all_eq_true.mpr fun acc _ => ht.reaches acc
      · exact ⟨_, _, execTranslate_walk_fail hw hk hr, execTranslateNoabrt_walk hw hk hr, rfl,
          ⟨[], List.append_nil _⟩, rfl, fun h => absurd ha h,
          fun _ h => absurd h (by decide : pageFaultCode ≠ 0), fun _ _ => rfl⟩
      · refine ⟨_, _, execTranslate_walk_ok hw hk hr rfl, execTranslateNoabrt_walk hw hk hr, rfl,
          ?_, rfl, fun h => absurd ha h, fun _ _ => rfl, fun _ h => absurd ha h⟩
        exact ⟨_, List.append_assoc ..⟩
  · exact ⟨_, _, execTranslate_abort ha, execTranslateNoabrt_abort ha, rfl,
      ⟨[], List.append_nil _⟩, rfl, fun _ => rfl, fun h => absurd h ha, fun h => absurd h ha⟩

/-- Settles O29: the frame of TRANSLATE, which commutes with other contents of either cache. -/
theorem translateIgnoresCaches : Obligations.TranslateIgnoresCaches := by
  unfold Obligations.TranslateIgnoresCaches
  intro s t w a rc wc h
  obtain ⟨p, u, hu, rfl⟩ := execTranslate_next h
  exact ⟨by rw [translate_frame hu, drive_rc], by rw [translate_frame hu, drive_wc],
    execTranslate_withCaches rc wc h⟩

/-- Settles O30: the permission byte kept is that of an entry that passed the check, or 0x07. -/
theorem userTranslationHasUserRights : Obligations.UserTranslationHasUserRights := by
  unfold Obligations.UserTranslationHasUserRights
  intro s t w a h hu ho hx ht
  obtain ⟨p, u, hu', rfl⟩ := execTranslate_next hx
  rcases translate_cases hu' with ⟨ha, -⟩ | ⟨-, -, -, rfl⟩ | ⟨-, -, -, q, -, -, rfl⟩ |
    ⟨-, -, -, phys, perm, wb, hk, -, rfl⟩
  · exact absurd h ha
  · exact ⟨(by decide : permAll.getLsbD 2 = true), fun _ => (by decide : permAll.getLsbD 1 = true)⟩
  · exact absurd ht (by simp [pageFaultCode])
  · have hsound := walk_sound s w a
    rw [hk] at hsound
    obtain ⟨m, n, e, rfl, hok⟩ := hsound
    exact rights_of_permOk hu ho hok

/-- Settles O31: TRANSLATE, and the one sub-access of an ACCESS. -/
theorem walkStoresOnlyItsEntries : Obligations.WalkStoresOnlyItsEntries := by
  unfold Obligations.WalkStoresOnlyItsEntries
  refine ⟨fun s t w a hx x h => ?_, fun s t w sz a hp hx x h => ?_⟩
  · obtain ⟨p, u, hu, rfl⟩ := execTranslate_next hx
    exact translate_outside hu h
  · by_cases ha : s.abrt = 0
    · obtain ⟨p, u, hu, hmem⟩ := execAccess_one_mem ha hp hx
      rw [hmem]
      exact translateCached_outside hu h
    · rw [exec, execAccess_abort ha] at hx
      cases hx
      rfl

/-- Settles O49: each part misses, the second also after the first one's insertion, and is its own
page. -/
theorem splitAccessPagingOff : Obligations.SplitAccessPagingOff := by
  unfold Obligations.SplitAccessPagingOff
  intro s w sz a n0 ha hp hcode hcold h0 hn
  have hmiss : ∀ k ∈ (cacheFor w s).slots, k.valid = false := fun k hk => hcold k (by
    cases w
    · exact List.mem_append_left _ hk
    · exact List.mem_append_right _ hk)
  obtain ⟨u, hu, fu⟩ :=
    translateCached_off ha hp hcode (lookup_of_no_valid (w := w) (lpageOf a) hmiss)
  have hmiss' : lookup u w (cacheFor w u) (lpageOf (a + BitVec.ofNat 32 n0)) = none :=
    lookup_none_of_other (lpageOf_next_ne h0) fun k hk => (fu.slots k hk).imp_right (hmiss k)
  obtain ⟨v, hv, fv⟩ := translateCached_off (fu.abrt.trans ha) (by rw [pg, fu.cr0]; exact hp)
    (by rw [fu.env]; exact hcode) hmiss'
  refine ⟨_, execAccess_two ha h0 hn hu hv, ?_, fv.mem.trans fu.mem, fv.lastPerm,
    (fv.abrt.trans fu.abrt).trans ha⟩
  have hst : stOk ||| stWhen (false || false) stRoute ||| stSplit = 0b1001 := by decide
  rw [drive_out, fu.rammask, ← hst]

end

section
/-! PROOFS. The cache commands (41_cache.md): what a lookup answers, what an insertion fills, what
the flushes clear, and that an inserted page is found. -/

namespace Sys2Proof.Machine

/-! ## Lookups -/

section
variable {s : State} {w : Bool} {n : Nat} {c : Cache} {lp : LPage} {t : Slot}

/-- A lookup misses exactly when every valid slot of the page is denied the access (R139). -/
theorem lookup_none_iff_denied :
    lookup s w c lp = none ↔
      ∀ k ∈ c.slots, k.valid = true → k.lpage = lp → permOk s (walkMode s) k.perm w = false := by
  simp [lookup_none, hits, holds]

/-- A valid slot of the page that is granted the access is the one found (R25, R139). -/
theorem lookup_of_granted (h : CacheWf n c) (ht : t ∈ c.slots) (hv : t.valid = true)
    (hl : t.lpage = lp) (hp : permOk s (walkMode s) t.perm w = true) : lookup s w c lp = some t :=
  lookup_of_hit h ht (hits_iff.mpr ⟨hv, hl, hp⟩)

end

/-- The status of a hit: HIT, and ROUTE beside it (R26). -/
theorem stOk_or_route (route : Bool) :
    stOk ||| stWhen route stRoute = if route then 0b0101 else 0b0001 := by
  cases route <;> rfl

/-! ## Insertions -/

section
variable {s : State} {w : Bool} {n : Nat} {c : Cache} {t : Slot}

theorem insert_of_valid_page (h : ∃ u ∈ c.slots, u.valid = true ∧ u.lpage = t.lpage) :
    c.insert n t = c :=
  insert_of_held (by simpa only [holds_iff] using h)

theorem insert_of_uncached (h : ∀ u ∈ c.slots, u.valid = true → u.lpage ≠ t.lpage) :
    c.insert n t = ⟨c.slots.set c.next t, (c.next + 1) % n⟩ :=
  insert_of_free (by simpa [holds] using h)

theorem mem_insert_of_uncached (hc : CacheWf n c)
    (h : ∀ u ∈ c.slots, u.valid = true → u.lpage ≠ t.lpage) : t ∈ (c.insert n t).slots := by
  rw [insert_of_uncached h]
  exact List.mem_set (hc.length ▸ hc.cursor) t

/-- A slot inserted where its page was not cached is found, if it is granted the access (R139,
R144). -/
theorem lookup_insert (hc : CacheWf n c) (hv : t.valid = true)
    (h : ∀ u ∈ c.slots, u.valid = true → u.lpage ≠ t.lpage)
    (hp : permOk s (walkMode s) t.perm w = true) : lookup s w (c.insert n t) t.lpage = some t :=
  lookup_of_granted (hc.insert t) (mem_insert_of_uncached hc h) hv rfl hp

end

/-! ## Flushes -/

@[simp] theorem flush_length (c : Cache) : c.flush.slots.length = c.slots.length :=
  List.length_map _

@[simp] theorem flush_next (c : Cache) : c.flush.next = 0 := rfl

/-- FLUSH of a flushed state changes nothing (R146). -/
@[simp] theorem flushCaches_flushCaches (s : State) :
    flushCaches (flushCaches s) = flushCaches s := by
  simp [flushCaches]

/-- After a flush every lookup misses, whatever the registers are (R146). -/
theorem lookup_flush (s : State) (w : Bool) (c : Cache) (lp : LPage) :
    lookup s w c.flush lp = none :=
  lookup_of_no_valid lp fun _ => mem_flush_valid

@[simp] theorem dropPage_next (pp : PPage) (c : Cache) : (c.dropPage pp).next = c.next := rfl

@[simp] theorem dropPage_length (pp : PPage) (c : Cache) :
    (c.dropPage pp).slots.length = c.slots.length := List.length_map _

/-- A targeted flush, slot by slot (R147). -/
theorem dropPage_getElem? {c : Cache} {k : Nat} {x : Slot} (pp : PPage) (h : c.slots[k]? = some x) :
    (c.dropPage pp).slots[k]? =
      some (if x.valid = true ∧ x.ppage = pp then clearValid x else x) := by
  simp [Cache.dropPage, h]

end Sys2Proof.Machine

open Sys2Proof.Machine

/-- Settles O36: the lookup finds the slot that is granted, or every slot of the page is denied. -/
theorem lookupReadAnswers : Obligations.LookupReadAnswers := by
  unfold Obligations.LookupReadAnswers
  refine fun s lp => ⟨fun t ht hwf hv hl hp => ?_, fun hd => ?_⟩
  · rw [exec, execLookupRead, lookup_of_granted hwf ht hv hl hp]
    rfl
  · rw [exec, execLookupRead, lookup_none_iff_denied.mpr hd]
    rfl

/-- Settles O37: as in the read cache, with the route in the status. -/
theorem lookupWriteAnswers : Obligations.LookupWriteAnswers := by
  unfold Obligations.LookupWriteAnswers
  refine fun s lp => ⟨fun t ht hwf hv hl hp => ?_, fun hd => ?_⟩
  · rw [exec, execLookupWrite, lookup_of_granted hwf ht hv hl hp, ← stOk_or_route]
    rfl
  · rw [exec, execLookupWrite, lookup_none_iff_denied.mpr hd]
    rfl

/-- Settles O38, from the two cases of an insertion. -/
theorem insertReadFillsCursorSlot : Obligations.InsertReadFillsCursorSlot := by
  unfold Obligations.InsertReadFillsCursorSlot
  refine fun s lp pp => ⟨fun hheld => ?_, fun hfree => ?_⟩
  · rw [exec, execInsertRead, insertReadSlot, insert_of_valid_page hheld]
    rfl
  · rw [exec, execInsertRead, insertReadSlot, insert_of_uncached hfree]
    rfl

/-- Settles O39, from the two cases of an insertion. -/
theorem insertWriteFillsCursorSlot : Obligations.InsertWriteFillsCursorSlot := by
  unfold Obligations.InsertWriteFillsCursorSlot
  refine fun s lp pp => ⟨fun hheld => ?_, fun hfree => ?_⟩
  · rw [exec, execInsertWrite, insertWriteSlot, insert_of_valid_page hheld]
    rfl
  · rw [exec, execInsertWrite, insertWriteSlot, insert_of_uncached hfree]
    rfl

/-- Settles O40: both caches are flushed, and no lookup finds a slot of a flushed cache. -/
theorem flushClearsEverySlot : Obligations.FlushClearsEverySlot := by
  unfold Obligations.FlushClearsEverySlot
  refine fun s => ⟨drive okOutputs (flushCaches s), rfl, rfl, flush_length s.rc, flush_length s.wc,
    fun _ => mem_flush_valid, fun _ => mem_flush_valid, rfl, rfl, ?_, fun lp => ⟨?_, ?_⟩⟩
  · show Host.Outcome.next (drive okOutputs (flushCaches (flushCaches s))) = _
    rw [flushCaches_flushCaches]
  · exact congrArg (fun k => Host.Outcome.next (drive (lookupReadOutputs k) (flushCaches s)))
      (lookup_flush s false s.rc lp)
  · exact congrArg (fun k => Host.Outcome.next (drive (lookupOutputs k) (flushCaches s)))
      (lookup_flush s true s.wc lp)

/-- Settles O41, slot by slot. -/
theorem flushWritePageDropsThatPage : Obligations.FlushWritePageDropsThatPage := by
  unfold Obligations.FlushWritePageDropsThatPage
  exact fun s pp => ⟨_, rfl, rfl, dropPage_next pp s.wc, dropPage_length pp s.wc,
    fun k x hx => dropPage_getElem? pp hx⟩

/-- Settles O42: INVALIDATE does not read its address. -/
theorem invalidateIsFullFlush : Obligations.InvalidateIsFullFlush := by
  unfold Obligations.InvalidateIsFullFlush
  refine fun s a => ⟨drive okOutputs (flushCaches s), rfl, rfl, fun x hx => ?_, rfl, rfl⟩
  exact (List.mem_append.mp hx).elim mem_flush_valid mem_flush_valid

/-- Settles O43: in each cache the slot inserted is the one found. -/
theorem insertedPageIsFound : Obligations.InsertedPageIsFound := by
  unfold Obligations.InsertedPageIsFound
  refine fun s lp pp hs => ⟨fun hfree hp => ⟨_, rfl, ?_⟩, fun hfree hp => ⟨_, rfl, ?_⟩⟩
  · exact congrArg lookupReadOutputs
      (lookup_insert (s := s) (w := false) (t := ⟨true, lp, pp, s.lastPerm, false⟩)
        hs.rc rfl hfree hp)
  · rw [← stOk_or_route]
    exact congrArg lookupOutputs
      (lookup_insert (s := s) (w := true) (t := ⟨true, lp, pp, s.lastPerm, codePresent s pp⟩)
        hs.wc rfl hfree hp)

end

section
/-! PROOFS. The cache in front of the walker (41_cache.md R150, 42_frontend_control.md R180 to
R183): an ACCESS that hits, one that misses, and the hit that a miss leaves behind. -/

namespace Sys2Proof.Machine

/-! ## An ACCESS that hits -/

section
variable {s t : State} {w : Bool} {sz : AccessSize} {a : LAddr} {k : Slot}

theorem cacheFor_slots (w : Bool) (s : State) :
    (cacheFor w s).slots = if w then s.wc.slots else s.rc.slots := by cases w <;> rfl

theorem CachesWf.cacheFor (h : CachesWf s) (w : Bool) :
    CacheWf s.cfg.cacheSize (cacheFor w s) := by
  cases w
  · exact h.rc
  · exact h.wc

/-- An ACCESS within one page that hits drives its outputs and nothing else (R150, R180, R183). -/
theorem execAccess_hit (ha : s.abrt = 0) (hp : a.toNat % 4096 + sizeBytes sz ≤ 4096)
    (h : lookup s w (cacheFor w s) (lpageOf a) = some k) :
    execAccess w sz a s = .next (drive ⟨(hitAddr k.ppage a).setWidth 64,
      stOk ||| stWhen (w && k.route) stRoute, 0, BitVec.ofNat 4 (sizeBytes sz)⟩ s) := by
  rw [execAccess_one ha hp, translateCached, h]

/-! ## An ACCESS that misses -/

/-- An ACCESS within one page that misses faults where its walk faults (R180, R183). -/
theorem execAccess_miss_none (ha : s.abrt = 0) (hp : a.toNat % 4096 + sizeBytes sz ≤ 4096)
    (h : lookup s w (cacheFor w s) (lpageOf a) = none) (ht : translate w a s = .ok (none, t)) :
    execAccess w sz a s = .next (drive faultOutputs t) := by
  rw [execAccess_one ha hp, translateCached, h, ht]

/-- An ACCESS within one page that misses masks the address its walk gives, and caches its page
(R180, R182, R183). -/
theorem execAccess_miss_some {q p : PAddr} (ha : s.abrt = 0)
    (hp : a.toNat % 4096 + sizeBytes sz ≤ 4096)
    (h : lookup s w (cacheFor w s) (lpageOf a) = none) (ht : translate w a s = .ok (some q, t))
    (hm : q &&& t.rammask = p) :
    execAccess w sz a s = .next (drive ⟨p.setWidth 64,
        stOk ||| stWhen (w && cacheable t (ppageOf p) w && codePresent t (ppageOf p)) stRoute, 0,
        BitVec.ofNat 4 (sizeBytes sz)⟩
      (fillCache w (lpageOf a) (ppageOf p) t)) := by
  rw [execAccess_one ha hp, translateCached, h, ht, ← hm]

end

/-- The insertion command of an access's kind, where the page is cacheable, is the insertion after a
walk, whatever outputs are driven before and after it (R180). -/
theorem exec_insert_fillCache (w : Bool) (lp : LPage) (pp : PPage) (o : Outputs) (s : State) :
    ∃ u, exec (if w then .insertWrite lp pp else .insertRead lp pp) (drive o s) = .next u ∧
      ∀ o', drive o' (if cacheable s pp w then u else drive o s) =
        drive o' (fillCache w lp pp s) := by
  unfold fillCache
  cases w
  · refine ⟨_, rfl, fun o' => ?_⟩
    split <;> rfl
  · refine ⟨_, rfl, fun o' => ?_⟩
    split <;> rfl

/-! ## What a walk answers, as a cache hit needs it -/

/-- A physical address has the page offset of a linear one. -/
def SameOffset (p : PAddr) (a : LAddr) : Prop := ∀ i < 12, p.getLsbD i = a.getLsbD i

/-- A successful walk of a mode gives an address with the page offset of the linear one, and a
permission byte that grants the access (R94, R95, R100, R102). -/
def WalkHits (s : State) (m : WalkMode) (w : Bool) (a : LAddr) : WalkResult → Prop
  | .ok phys perm _ => SameOffset phys a ∧ permOk s m perm w = true
  | .fail _ => True

section
variable {n : Nat} {s : State} {m : WalkMode} {w : Bool} {a : LAddr} {pde pte : BitVec n}
  {pdeA pteA phys : PAddr}

theorem permOk_permByte (e : BitVec n) : permOk s m (permByte e) w = permOk s m e w :=
  permOk_congr (permByte_write e) (permByte_user e)

theorem largeLeaf_hits (h : SameOffset phys a) :
    WalkHits s m w a (largeLeaf s m w pde pdeA phys) := by
  rcases largeLeaf_cases s m w pde pdeA phys with ⟨hp, e⟩ | ⟨-, e⟩ <;> rw [e]
  · exact ⟨h, (permOk_permByte pde).trans hp⟩
  · trivial

theorem smallLeaf_hits (h : SameOffset phys a) :
    WalkHits s m w a (smallLeaf s m w pde pte pdeA pteA phys) := by
  rcases smallLeaf_cases s m w pde pte pdeA pteA phys with ⟨-, e⟩ | ⟨-, hp, e⟩ | ⟨-, -, e⟩ <;>
    rw [e]
  · trivial
  · exact ⟨h, (permOk_permByte (pte &&& pde)).trans hp⟩
  · trivial

/-- A 32-bit address with the page offset has it on the 40-bit bus. -/
theorem sameOffset_setWidth {x : Dword} (h : ∀ i < 12, x.getLsbD i = a.getLsbD i) :
    SameOffset (x.setWidth 40) a := fun i hi => by
  rw [BitVec.getLsbD_setWidth, h i hi, decide_eq_true (by omega), Bool.true_and]

/-- The low field of a concatenation is the linear address's own. -/
theorem getLsbD_append_extractLsb {hi : Nat} (x : BitVec n) (a : LAddr) {i : Nat} (h : i ≤ hi) :
    (x ++ a.extractLsb hi 0).getLsbD i = a.getLsbD i := by
  rw [BitVec.getLsbD_append, if_pos (by omega), BitVec.getLsbD_extractLsb]
  simp [h]

end

theorem walk2_hits (s : State) (w : Bool) (a : LAddr) :
    WalkHits s .twoLevel w a (walk2 s w a).result := by
  unfold walk2
  dsimp only
  split
  · trivial
  · split
    · exact largeLeaf_hits
        (sameOffset_setWidth fun i hi => getLsbD_append_extractLsb _ a (by omega))
    · exact smallLeaf_hits
        (sameOffset_setWidth fun i hi => getLsbD_append_extractLsb _ a (by omega))

theorem walk3_hits (s : State) (w : Bool) (a : LAddr) :
    WalkHits s .pae w a (walk3 s w a).result := by
  unfold walk3
  dsimp only
  split
  · trivial
  · split
    · trivial
    · split
      · exact largeLeaf_hits fun i hi => getLsbD_append_extractLsb _ a (by omega)
      · exact smallLeaf_hits fun i hi => getLsbD_append_extractLsb _ a (by omega)

theorem walk_hits (s : State) (w : Bool) (a : LAddr) :
    WalkHits s (walkMode s) w a (walk s w a).result := by
  unfold walk
  cases walkMode s
  · exact walk2_hits s w a
  · exact walk3_hits s w a

/-! ## The hit that a miss leaves behind -/

section
variable {s t : State} {w : Bool} {a : LAddr} {q : PAddr}

/-- A TRANSLATE that succeeds keeps the page offset, and grants the access again by the permission
byte it leaves (R92, R100, R102). -/
theorem translate_hits (h : translate w a s = .ok (some q, t)) :
    SameOffset q a ∧ permOk t (walkMode t) t.lastPerm w = true := by
  rcases translate_cases h with ⟨-, e, -⟩ | ⟨-, -, e, rfl⟩ | ⟨-, -, -, _, -, e, -⟩ |
    ⟨-, -, -, phys, perm, wb, hk, e, rfl⟩
  · cases e
  · cases e
    exact ⟨sameOffset_setWidth fun _ _ => rfl,
      permOk_of_writable_user (e := permAll) (by decide) (by decide) _ _ w⟩
  · cases e
  · cases e
    have hhits := walk_hits s w a
    rw [hk] at hhits
    obtain ⟨hoff, hperm⟩ := hhits
    refine ⟨hoff, ?_⟩
    rw [translate_frame h]
    exact hperm

theorem translate_cacheFor {p : Option PAddr} (h : translate w a s = .ok (p, t)) (v : Bool) :
    cacheFor v t = cacheFor v s := by
  rw [translate_frame h]
  cases v <;> rfl

/-- A page cached after a walk that grants it is found by the next access of its kind, with its
route (R139, R180). -/
theorem lookup_fillCache {lp : LPage} {pp : PPage} (hs : CachesWf s)
    (hfree : ∀ k ∈ (cacheFor w s).slots, k.valid = true → k.lpage ≠ lp)
    (hc : cacheable s pp w = true) (hp : permOk s (walkMode s) s.lastPerm w = true) :
    ∃ k, lookup (fillCache w lp pp s) w (cacheFor w (fillCache w lp pp s)) lp = some k ∧
      k.ppage = pp ∧ (w && k.route) = (w && codePresent s pp) := by
  rw [fillCache, if_pos hc]
  cases w
  · exact ⟨_, lookup_insert (t := ⟨true, lp, pp, s.lastPerm, false⟩) hs.rc rfl hfree hp, rfl, rfl⟩
  · exact ⟨_, lookup_insert (t := ⟨true, lp, pp, s.lastPerm, codePresent s pp⟩) hs.wc rfl hfree hp,
      rfl, rfl⟩

/-- A page with the linear address's offset is the address it was taken from. -/
theorem hitAddr_ppageOf (h : SameOffset q a) : hitAddr (ppageOf q) a = q := by
  refine BitVec.eq_of_getLsbD_eq fun i hi => ?_
  by_cases hoff : i < 12
  · rw [hitAddr, getLsbD_append_extractLsb _ a (by omega), h i hoff]
  · have hpage : decide (i - 12 < 28) = true := decide_eq_true (by omega)
    rw [hitAddr, BitVec.getLsbD_append, if_neg (by omega), ppageOf, BitVec.getLsbD_extractLsb]
    simp [hpage, Nat.add_sub_cancel' (Nat.le_of_not_lt hoff)]

/-- A mask that keeps the page offset leaves an address its offset (R182). -/
theorem SameOffset.and_mask {m : PAddr} (hm : m.extractLsb 11 0 = 0xFFF#12)
    (h : SameOffset q a) : SameOffset (q &&& m) a := fun i hi => by
  have hbit : m.getLsbD i = (BitVec.allOnes 40).getLsbD i :=
    getLsbD_eq_of_extractLsb_eq (hm.trans (by decide)) (Nat.zero_le i) (by omega)
  rw [BitVec.getLsbD_and, h i hi, hbit, BitVec.getLsbD_allOnes, decide_eq_true (by omega),
    Bool.and_true]

/-- An ACCESS within one page that misses and leaves no abort pending: its walk, the mask and the
insertion (R180, R183). -/
theorem execAccess_miss_next {sz : AccessSize} (ha : s.abrt = 0)
    (hp : a.toNat % 4096 + sizeBytes sz ≤ 4096)
    (hmiss : lookup s w (cacheFor w s) (lpageOf a) = none)
    (hx : execAccess w sz a s = .next t) (ht : t.abrt = 0) :
    ∃ q p u, translate w a s = .ok (some q, u) ∧ q &&& u.rammask = p ∧
      t = drive ⟨p.setWidth 64,
          stOk ||| stWhen (w && cacheable u (ppageOf p) w && codePresent u (ppageOf p)) stRoute, 0,
          BitVec.ofNat 4 (sizeBytes sz)⟩
        (fillCache w (lpageOf a) (ppageOf p) u) := by
  cases hu : translate w a s with
  | error r =>
    rw [(execAccess_one_refused_iff ha hp).mpr (translateCached_error_iff.mpr ⟨hmiss, hu⟩)] at hx
    cases hx
  | ok pu =>
    obtain ⟨_ | q, u⟩ := pu
    · rw [execAccess_miss_none ha hp hmiss hu] at hx
      cases hx
      exact absurd ht ((translate_none_iff hu).mp rfl)
    · rw [execAccess_miss_some ha hp hmiss hu rfl] at hx
      cases hx
      exact ⟨q, _, u, rfl, rfl, rfl⟩

end

end Sys2Proof.Machine

open Sys2Proof.Machine

/-- Settles O46: the slot is the one found. -/
theorem accessHitMakesNoWalk : Obligations.AccessHitMakesNoWalk := by
  unfold Obligations.AccessHitMakesNoWalk
  intro s w sz a k ha hs hp hk hv hl hperm
  rw [← stOk_or_route]
  exact execAccess_hit ha hp
    (lookup_of_granted (hs.cacheFor w) (cacheFor_slots w s ▸ hk) hv hl hperm)

/-- Settles O47: the sub-access misses, and each answer of TRANSLATE decides it. -/
theorem accessMissTranslatesThenInserts : Obligations.AccessMissTranslatesThenInserts := by
  unfold Obligations.AccessMissTranslatesThenInserts
  intro s t w sz a ha hp hdenied hx p pp cached route
  have hmiss := lookup_none_of_denied hdenied
  obtain ⟨q, u, hu, rfl⟩ := execTranslate_next hx
  have hq := translate_none_iff hu
  cases q with
  | none =>
    refine ⟨fun _ => ?_, fun h => absurd h (hq.mp rfl)⟩
    exact execAccess_miss_none ha hp hmiss hu
  | some q =>
    refine ⟨fun h => absurd (hq.mpr h) nofun, fun _ => ?_⟩
    have hmask : q &&& u.rammask = p := by
      rw [(translate_accessFrame hu).rammask]
      simp [p, translateOutputs]
    have henv : u.env = s.env := by rw [translate_frame hu]
    have hcached : cacheable u pp w = cached := by rw [cacheable, henv]
    have hroute : (w && cacheable u pp w && codePresent u pp) = route := by
      rw [hcached, codePresent, henv]
    obtain ⟨v, hv, hfill⟩ :=
      exec_insert_fillCache w (lpageOf a) pp (translateOutputs (some q)) u
    refine ⟨v, hv, ?_⟩
    calc exec (.access w sz a) s
      _ = .next (drive ⟨p.setWidth 64, stOk ||| stWhen route stRoute, 0,
          BitVec.ofNat 4 (sizeBytes sz)⟩ (fillCache w (lpageOf a) pp u)) :=
        hroute ▸ execAccess_miss_some ha hp hmiss hu hmask
      _ = _ := by
        rw [stOk_or_route, ← hfill, hcached]
        rfl

/-- Settles O53: the page is inserted as the walk gave it, granted to the access and with its
offset. -/
theorem repeatedAccessHitsAlike : Obligations.RepeatedAccessHitsAlike := by
  unfold Obligations.RepeatedAccessHitsAlike
  intro s t w sz a ha hs hp hfree hmask hx ht hcache
  rw [← cacheFor_slots] at hfree
  have hmiss : lookup s w (cacheFor w s) (lpageOf a) = none :=
    lookup_none_iff_denied.mpr fun k hk hv hl => absurd hl (hfree k hk hv)
  obtain ⟨q, p, u, hu, hqp, rfl⟩ := execAccess_miss_next ha hp hmiss hx ht
  have henv : u.env = s.env := by rw [translate_frame hu]
  have hc : cacheable u (ppageOf p) w = true := by simpa [cacheable, henv] using hcache
  obtain ⟨hoff, hperm⟩ := translate_hits hu
  have hoff' : SameOffset p a :=
    hqp ▸ hoff.and_mask (m := u.rammask) ((translate_accessFrame hu).rammask ▸ hmask)
  obtain ⟨k, hk, hpage, hroute⟩ :=
    lookup_fillCache (keeps_cachesWf.translate _ _ _ _ _ hu hs)
      (translate_cacheFor hu w ▸ hfree) hc hperm
  have hhit := execAccess_hit (w := w) ht hp (k := k) (by cases w <;> exact hk)
  rw [exec, hhit, hpage, hroute, hc, Bool.and_true, hitAddr_ppageOf hoff']
  rfl

end

section
/-! PROOFS. The access front-end (42_frontend_control.md R180 to R185): the split of an access at a
page boundary, the caches of the two kinds, the pages under the mask, and the abort that is carried. -/

namespace Sys2Proof.Machine

/-! ## The split -/

/-- The second part of a straddling access starts a page, and wraps at `2^32` (R181). -/
theorem secondPart_toNat {a : LAddr} {n0 : Nat} (h : a.toNat % 4096 + n0 = 4096) :
    (a + BitVec.ofNat 32 n0).toNat = (a.toNat + n0) % 2 ^ 32 ∧
      (a + BitVec.ofNat 32 n0).toNat % 4096 = 0 := by
  have hb : (a + BitVec.ofNat 32 n0).toNat = (a.toNat + n0) % 2 ^ 32 := by
    rw [BitVec.toNat_add, BitVec.toNat_ofNat, Nat.add_mod_mod]
  refine ⟨hb, ?_⟩
  rw [hb, Nat.mod_mod_of_dvd _ (by decide)]
  omega

/-! ## What is driven is not read

`Commutes` does not fit `drive`: a command's own outputs replace what was driven before it. -/

section
variable {s t : State} {w : Bool} {a : LAddr}

theorem writeBacks_drive (o : Outputs) (l : List WriteBack) (s : State) :
    writeBacks l (drive o s) = drive o (writeBacks l s) := by
  induction l generalizing s with
  | nil => rfl
  | cons b l ih => exact ih (writeBack b s)

theorem fillCache_drive (o : Outputs) (lp : LPage) (pp : PPage) (s : State) :
    fillCache w lp pp (drive o s) = drive o (fillCache w lp pp s) := by
  unfold fillCache
  rw [apply_ite (drive o), apply_ite (drive o)]
  rfl

/-- A translation does not read the outputs (R26). -/
theorem translate_drive (o : Outputs) {p : Option PAddr} (h : translate w a s = .ok (p, t)) :
    translate w a (drive o s) = .ok (p, drive o t) := by
  have hk : walk (drive o s) w a = walk s w a :=
    walk_congr rfl rfl (fun _ _ _ => rfl) (fun _ _ => rfl) rfl (fun _ => rfl)
  have hreach : KeepsReach (drive o) := fun _ _ h => h
  rcases translate_cases h with ⟨ha, rfl, rfl⟩ | ⟨ha, hp, rfl, rfl⟩ | ⟨ha, hp, hr, q, hq, rfl, rfl⟩ |
    ⟨ha, hp, hr, phys, perm, wb, hq, rfl, rfl⟩
  · exact translate_abort ha
  · exact translate_off ha hp
  · rw [translate_walk (s := drive o s) ⟨ha, hp⟩, hk, if_neg (by rw [hreach.all hr]; decide), hq]
    rfl
  · rw [translate_walk (s := drive o s) ⟨ha, hp⟩, hk, if_neg (by rw [hreach.all hr]; decide), hq]
    dsimp only [commitWalk]
    rw [show ∀ l, logPort l (drive o s) = drive o (logPort l s) from fun _ => rfl, writeBacks_drive]
    rfl

/-- A sub-access does not read the outputs (R26). -/
theorem translateCached_drive (o : Outputs) {p : Option SubResult}
    (h : translateCached w a s = .ok (p, t)) :
    translateCached w a (drive o s) = .ok (p, drive o t) := by
  have hl : lookup (drive o s) w (cacheFor w (drive o s)) (lpageOf a) =
      lookup s w (cacheFor w s) (lpageOf a) := by cases w <;> rfl
  unfold translateCached
  rw [hl]
  rcases translateCached_cases h with ⟨k, hk, rfl, rfl⟩ | ⟨hk, ht, rfl⟩ | ⟨hk, q, u, hu, rfl, rfl⟩
  · rw [hk]
  · rw [hk, translate_drive o ht]
  · rw [hk, translate_drive o hu, ← fillCache_drive]
    rfl

/-- A sub-access after outputs were driven does what it does without them, up to the outputs. -/
theorem translateCached_of_drive {o : Outputs} {p : Option SubResult}
    (h : translateCached w a (drive o s) = .ok (p, t)) :
    translateCached w a s = .ok (p, drive s.out t) :=
  translateCached_drive (s := drive o s) s.out h

end

/-! ## An ACCESS and its parts -/

section
variable {s t u : State} {w : Bool} {sz : AccessSize} {a : LAddr} {n0 : Nat}

/-- An ACCESS within one page: its sub-access fails, leaving an abort pending, or succeeds (R183). -/
theorem execAccess_one_cases (h : s.abrt = 0) (hp : a.toNat % 4096 + sizeBytes sz ≤ 4096)
    (hx : execAccess w sz a s = .next t) :
    (t.abrt ≠ 0 ∧ ∃ u, translateCached w a s = .ok (none, u) ∧ t = drive faultOutputs u) ∨
    (t.abrt = 0 ∧ ∃ p u, translateCached w a s = .ok (some p, u) ∧
      t = drive ⟨p.phys.setWidth 64, stOk ||| stWhen p.route stRoute, 0,
        BitVec.ofNat 4 (sizeBytes sz)⟩ u) := by
  rw [execAccess_one h hp] at hx
  split at hx
  · cases hx
  · next u hu =>
    cases hx
    exact .inl ⟨(translateCached_none_iff hu h).mp rfl, u, hu, rfl⟩
  · next p u hu =>
    cases hx
    exact .inr ⟨by simpa using (translateCached_none_iff hu h).not.mp nofun, p, u, hu, rfl⟩

/-- An ACCESS faults where its parts do (R183). -/
theorem execAccess_none (h : s.abrt = 0)
    (hx : translateSubs w (splitAccess a (sizeBytes sz)) s = .ok (none, u)) :
    execAccess w sz a s = .next (drive faultOutputs u) := by
  unfold execAccess
  rw [if_neg (not_not.mpr h)]
  dsimp only
  rw [hx]

/-- A straddling ACCESS whose first part faults ends there (R215). -/
theorem execAccess_two_first_none (h : s.abrt = 0) (h0 : a.toNat % 4096 + n0 = 4096)
    (hn : n0 < sizeBytes sz) (hp : translateCached w a s = .ok (none, u)) :
    execAccess w sz a s = .next (drive faultOutputs u) :=
  execAccess_none h (by rw [splitAccess_two h0 hn, translateSubs_two, hp])

/-- A straddling ACCESS whose second part faults keeps what the first part did (R215). -/
theorem execAccess_two_second_none {p : SubResult} (h : s.abrt = 0)
    (h0 : a.toNat % 4096 + n0 = 4096) (hn : n0 < sizeBytes sz)
    (hp : translateCached w a s = .ok (some p, t))
    (hq : translateCached w (a + BitVec.ofNat 32 n0) t = .ok (none, u)) :
    execAccess w sz a s = .next (drive faultOutputs u) :=
  execAccess_none h (by simp only [splitAccess_two h0 hn, translateSubs_two, hp, hq])

/-- The status of a split access, from the statuses of its parts (R183). -/
theorem splitStatus_eq (r r' : Bool) :
    stOk ||| stWhen (r || r') stRoute ||| stSplit =
      stOk ||| stWhen r stRoute ||| (stOk ||| stWhen r' stRoute) ||| 0b1000 := by
  cases r <;> cases r' <;> rfl

/-- What the parts of an access can do: the first fails and ends them, or succeeds and the others
follow it (R183, R215). -/
theorem translateSubs_cons_cases {x : SubAccess} {l : List SubAccess}
    {ps : Option (List SubResult)} (h : translateSubs w (x :: l) s = .ok (ps, t)) :
    (translateCached w x.addr s = .ok (none, t) ∧ ps = none) ∨
    ∃ p u qs, translateCached w x.addr s = .ok (some p, u) ∧ translateSubs w l u = .ok (qs, t) ∧
      ps = qs.map (p :: ·) := by
  rw [translateSubs] at h
  split at h
  · cases h
  · next u hu => cases h; exact .inl ⟨hu, rfl⟩
  · next p u hu =>
    split at h
    · cases h
    · next v hv => cases h; exact .inr ⟨p, u, none, hu, hv, rfl⟩
    · next qs v hv => cases h; exact .inr ⟨p, u, some qs, hu, hv, rfl⟩

/-- The parts of an access fail only by leaving an abort pending (R213). -/
theorem translateSubs_none_abrt {l : List SubAccess} (h : translateSubs w l s = .ok (none, t))
    (ha : s.abrt = 0) : t.abrt ≠ 0 := by
  induction l generalizing s with
  | nil => cases h
  | cons x l ih =>
    rcases translateSubs_cons_cases h with ⟨hx, -⟩ | ⟨p, u, qs, hx, hl, hqs⟩
    · exact (translateCached_none_iff hx ha).mp rfl
    · rw [Option.map_eq_none_iff.mp hqs.symm] at hl
      exact ih hl (not_not.mp ((translateCached_none_iff hx ha).not.mp nofun))

/-- An ACCESS that leaves no abort pending has translated all its parts (R183). -/
theorem execAccess_succeeds (hx : execAccess w sz a s = .next t) (ht : t.abrt = 0) :
    ∃ ps u, translateSubs w (splitAccess a (sizeBytes sz)) s = .ok (some ps, u) ∧
      t = drive (accessOutputs (splitAccess a (sizeBytes sz)) ps) u := by
  unfold execAccess at hx
  split at hx
  · next ha =>
    cases hx
    exact absurd ht ha
  · next ha =>
    dsimp only at hx
    split at hx
    · cases hx
    · next u hu =>
      cases hx
      exact absurd (by simpa using ht) (translateSubs_none_abrt hu (not_not.mp ha))
    · next ps u hu =>
      cases hx
      exact ⟨ps, u, hu, rfl⟩

end

/-! ## The error code of a faulting access -/

/-- A sub-access leaves the W bit of a pending abort's error code right: its own fault has its own
kind (R103, R185). -/
theorem translateCached_errorKind {w : Bool} {a : LAddr} {s t : State} {p : Option SubResult}
    (h : translateCached w a s = .ok (p, t)) (hs : s.abrt ≠ 0 → s.abrtErr.getLsbD 1 = w) :
    t.abrt ≠ 0 → t.abrtErr.getLsbD 1 = w := by
  rcases translateCached_cases h with ⟨k, -, -, rfl⟩ | ⟨-, ht, -⟩ | ⟨-, q, u, hu, -, rfl⟩
  · exact hs
  · rcases translate_cases ht with ⟨-, -, rfl⟩ | ⟨-, -, e, -⟩ | ⟨-, -, -, q, -, -, rfl⟩ |
      ⟨-, -, -, phys, perm, wb, -, e, -⟩
    · exact hs
    · cases e
    · exact fun _ => errorCode_write s w q
    · cases e
  · rw [fillCache_abrt]
    exact fun hne => absurd ((translate_none_iff hu).mpr hne) nofun

/-! ## Pages under the mask -/

/-- A physical page lies under a page mask (R182). -/
def UnderMask (m pp : PPage) : Prop := pp &&& m = pp

/-- The pages of a cache's valid slots lie under a mask. -/
def Cache.Masked (m : PPage) (c : Cache) : Prop :=
  ∀ t ∈ c.slots, t.valid = true → UnderMask m t.ppage

theorem pagesMasked_iff {s : State} :
    PagesMasked s ↔ s.rc.Masked (ppageOf s.rammask) ∧ s.wc.Masked (ppageOf s.rammask) := Iff.rfl

section
variable {m : PPage} {c : Cache} {s t : State} {w : Bool}

theorem Cache.Masked.insert (h : c.Masked m) {k : Slot} (hk : UnderMask m k.ppage)
    (n : Nat) : (c.insert n k).Masked m := fun x hx hv => by
  rcases mem_insert hx with rfl | hx
  · exact hk
  · exact h x hx hv

/-- A flushed cache has no valid slot. -/
theorem Cache.Masked.flush (m : PPage) (c : Cache) : c.flush.Masked m := fun x hx hv => by
  rw [mem_flush_valid hx] at hv
  cases hv

theorem Cache.Masked.dropPage (h : c.Masked m) (pp : PPage) : (c.dropPage pp).Masked m :=
  fun x hx hv => by
    obtain ⟨k, hk, rfl | rfl⟩ := mem_dropPage hx
    · exact h x hk hv
    · cases hv

theorem PagesMasked.cacheFor (h : PagesMasked s) (w : Bool) :
    (cacheFor w s).Masked (ppageOf s.rammask) := by
  cases w
  · exact h.1
  · exact h.2

/-- The masking reads `RAMMASK` and the two caches alone. -/
theorem PagesMasked.congr (h : PagesMasked s) (hm : t.rammask = s.rammask) (hr : t.rc = s.rc)
    (hw : t.wc = s.wc) : PagesMasked t := by
  rw [pagesMasked_iff, hm, hr, hw]
  exact h

/-- A flush leaves no page to mask, whatever the mask is (R193). -/
theorem pagesMasked_flushCaches (s : State) : PagesMasked (flushCaches s) :=
  pagesMasked_iff.mpr ⟨.flush _ s.rc, .flush _ s.wc⟩

theorem PagesMasked.drive (h : PagesMasked s) (o : Outputs) : PagesMasked (drive o s) :=
  h.congr (drive_rammask ..) (drive_rc ..) (drive_wc ..)

theorem PagesMasked.flushWhen (h : PagesMasked s) (b : Bool) : PagesMasked (flushWhen b s) := by
  cases b
  · exact h
  · exact pagesMasked_flushCaches s

theorem PagesMasked.fillCache (h : PagesMasked s) (lp : LPage) {pp : PPage}
    (hp : UnderMask (ppageOf s.rammask) pp) : PagesMasked (fillCache w lp pp s) := by
  unfold Machine.fillCache
  split
  · cases w
    · exact ⟨Cache.Masked.insert h.1 hp _, h.2⟩
    · exact ⟨h.1, Cache.Masked.insert h.2 hp _⟩
  · exact h

theorem PagesMasked.translate {a : LAddr} {p : Option PAddr} (h : PagesMasked s)
    (hx : translate w a s = .ok (p, t)) : PagesMasked t := by
  rw [translate_frame hx]
  exact h

/-- The page of a masked address lies under the mask's page (R182). -/
theorem underMask_and (q m : PAddr) : UnderMask (ppageOf m) (ppageOf (q &&& m)) := by
  unfold UnderMask ppageOf
  rw [BitVec.extractLsb_and, BitVec.and_assoc, BitVec.and_self]

/-- The page of a hit's address is the slot's (R180). -/
theorem ppageOf_hitAddr (pp : PPage) (a : LAddr) : ppageOf (hitAddr pp a) = pp := by
  unfold ppageOf hitAddr
  exact BitVec.extractLsb'_append_eq_left

/-- A sub-access keeps the cached pages masked, and its own page is one: a cached one or one that it
masked (R182). -/
theorem PagesMasked.translateCached {a : LAddr} {p : Option SubResult} (h : PagesMasked s)
    (hx : translateCached w a s = .ok (p, t)) :
    PagesMasked t ∧ ∀ r, p = some r → UnderMask (ppageOf s.rammask) (ppageOf r.phys) := by
  rcases translateCached_cases hx with ⟨k, hk, rfl, rfl⟩ | ⟨-, ht, rfl⟩ | ⟨-, q, u, hu, rfl, rfl⟩
  · refine ⟨h, fun r hr => ?_⟩
    cases hr
    obtain ⟨hmem, hhit⟩ := lookup_some hk
    rw [ppageOf_hitAddr]
    exact h.cacheFor w k hmem (hits_iff.mp hhit).1
  · exact ⟨h.translate ht, nofun⟩
  · have hpage := underMask_and q u.rammask
    refine ⟨(h.translate hu).fillCache _ hpage, fun r hr => ?_⟩
    cases hr
    rwa [(translate_accessFrame hu).rammask] at hpage ⊢

/-- The pages of all parts of an access lie under the mask (R182). -/
theorem PagesMasked.translateSubs {l : List SubAccess} {ps : List SubResult} (h : PagesMasked s)
    (hx : translateSubs w l s = .ok (some ps, t)) :
    ∀ p ∈ ps, UnderMask (ppageOf s.rammask) (ppageOf p.phys) := by
  induction l generalizing s ps with
  | nil => cases hx; exact nofun
  | cons x l ih =>
    rcases translateSubs_cons_cases hx with ⟨-, e⟩ | ⟨p, u, qs, hp, hl, e⟩
    · cases e
    · obtain ⟨qs, rfl, rfl⟩ := Option.map_eq_some_iff.mp e.symm
      obtain ⟨hu, hpage⟩ := h.translateCached hp
      have hrest := ih hu hl
      rw [(translateCached_accessFrame hp).rammask] at hrest
      exact List.forall_mem_cons.mpr ⟨hpage p rfl, hrest⟩

/-- An address that an access drives is a part's, or 0 where there is no such part; 0 lies under
every mask. -/
theorem underMask_getD {ps : List SubResult} (h : ∀ p ∈ ps, UnderMask m (ppageOf p.phys))
    (i : Nat) : UnderMask m (ppageOf ((ps.map SubResult.phys).getD i 0)) := by
  rw [List.getD_eq_getElem?_getD, List.getElem?_map]
  cases hi : ps[i]? with
  | none => exact BitVec.zero_and
  | some p => exact h p (List.mem_of_getElem? hi)

/-- What an ACCESS that leaves no abort pending drives lies under the mask (R182, R183). -/
theorem PagesMasked.execAccess_out {sz : AccessSize} {a : LAddr} (h : PagesMasked s)
    (hx : execAccess w sz a s = .next t) (ht : t.abrt = 0) :
    UnderMask (ppageOf s.rammask) (ppageOf (t.out.res.setWidth 40)) ∧
      UnderMask (ppageOf s.rammask) (ppageOf (t.out.res1.setWidth 40)) := by
  obtain ⟨ps, u, hu, rfl⟩ := execAccess_succeeds hx ht
  have hpages := underMask_getD (h.translateSubs hu)
  simpa [accessOutputs] using And.intro (hpages 0) (hpages 1)

/-- Every command but a direct insertion keeps the cached pages masked: a load of `RAMMASK` flushes
them (R182, R193). -/
theorem PagesMasked.exec {i : Instr} (h : PagesMasked s) (hx : exec i s = .next t)
    (hi : ∀ lp pp, i ≠ .insertRead lp pp ∧ i ≠ .insertWrite lp pp) : PagesMasked t := by
  cases i with
  | translate w a =>
    obtain ⟨p, u, hu, rfl⟩ := execTranslate_next hx
    exact (h.translate hu).drive _
  | translateNoabrt w a => rw [execTranslateNoabrt_frame hx]; exact h
  | access w sz a =>
    exact execAccess_keeps (fun _ _ _ _ hc hu => (hu.translateCached hc).1)
      (fun o _ hu => hu.drive o) hx h
  | insertRead lp pp => exact absurd rfl (hi lp pp).1
  | insertWrite lp pp => exact absurd rfl (hi lp pp).2
  | flush | invalidate | writeCr3 | setRammask =>
    cases hx
    exact (pagesMasked_flushCaches _).drive _
  | flushWritePage pp => cases hx; exact ⟨h.1, Cache.Masked.dropPage h.2 pp⟩
  | writeCr0 v =>
    cases hx
    exact (PagesMasked.flushWhen (s := { s with cr0 := v }) (h.congr rfl rfl rfl) _).drive _
  | writeCr4 v =>
    cases hx
    exact (PagesMasked.flushWhen (s := { s with cr4 := v }) (h.congr rfl rfl rfl) _).drive _
  | lookupRead | lookupWrite | setPriv | writeAbort => cases hx; exact h

end

/-! ## A pending abort -/

/-- A translating command that finds an abort pending drives SENTINEL and FAULT, and does nothing
else (R91, R184). -/
theorem exec_pendingAbort {i : Instr} {s : State} (hi : Translating i) (h : s.abrt ≠ 0) :
    exec i s = .next (drive faultOutputs s) := by
  cases i with
  | translate w a => exact execTranslate_abort h
  | translateNoabrt w a => exact execTranslateNoabrt_abort h
  | access w sz a => exact execAccess_abort h
  | _ => cases hi

/-- A sequence of translating commands does no more than its first one (R184). -/
theorem runAll_pendingAbort {i : Instr} {l : List Instr} {s : State} (h : s.abrt ≠ 0)
    (hl : ∀ j ∈ i :: l, Translating j) : runAll (i :: l) s = .next (drive faultOutputs s) := by
  induction l generalizing i s with
  | nil =>
    rw [runAll, exec_pendingAbort (hl i (by simp)) h]
    rfl
  | cons j l ih =>
    rw [runAll, exec_pendingAbort (hl i (by simp)) h]
    exact ih (s := drive faultOutputs s) h fun k hk => hl k (List.mem_cons_of_mem i hk)

/-- Instructions run after others go on from the state the others leave. -/
theorem runAll_append {l l' : List Instr} {s t : State} (h : runAll l s = .next t) :
    runAll (l ++ l') s = runAll l' t := by
  induction l generalizing s with
  | nil => cases h; rfl
  | cons i l ih =>
    rw [runAll] at h
    rw [List.cons_append, runAll]
    cases hi : exec i s with
    | next u => rw [hi] at h; exact ih h
    | fault f => rw [hi] at h; cases h
    | refused r => rw [hi] at h; cases h

end Sys2Proof.Machine

open Sys2Proof.Machine

/-- Settles O45: an access that passes its page's end has its second part at the next page. -/
theorem accessSplitsAtPageBoundary : Obligations.AccessSplitsAtPageBoundary := by
  unfold Obligations.AccessSplitsAtPageBoundary
  intro a sz n
  refine ⟨splitAccess_one, fun h => ?_⟩
  obtain ⟨n0, h0⟩ : ∃ n0, a.toNat % 4096 + n0 = 4096 := ⟨4096 - a.toNat % 4096, by omega⟩
  have hn : n0 < n := by omega
  exact ⟨_, n0, splitAccess_two h0 hn, h0, by omega, hn, secondPart_toNat h0⟩

/-- Settles O48: each one-byte access is its sub-access, and the second does not read what the first
drove. -/
theorem splitAccessIsTwoAccesses : Obligations.SplitAccessIsTwoAccesses := by
  unfold Obligations.SplitAccessIsTwoAccesses
  intro s t u w sz a b n0 hs h0 hn hb hx
  subst hb
  rcases execAccess_one_cases hs (oneByte_within a) hx with ⟨hta, t', ht', rfl⟩ |
    ⟨hta, p, t', ht', rfl⟩
  · exact ⟨fun _ => execAccess_two_first_none hs h0 hn ht', fun h => absurd h hta⟩
  · refine ⟨fun h => absurd hta h, fun _ hy => ?_⟩
    rcases execAccess_one_cases hta (oneByte_within _) hy with ⟨hua, u', hu', rfl⟩ |
      ⟨hua, q, u', hu', rfl⟩
    · have hfull := execAccess_two_second_none hs h0 hn ht' (translateCached_of_drive hu')
      exact ⟨fun _ => hfull, fun h => absurd h hua⟩
    · refine ⟨fun h => absurd hua h, fun _ => ?_⟩
      rw [exec, execAccess_two hs h0 hn ht' (translateCached_of_drive hu'), splitStatus_eq]
      rfl

/-- Settles O50: each command of the sequence only drives SENTINEL and FAULT, so the abort stands until
the load. -/
theorem pendingAbortIsCarried : Obligations.PendingAbortIsCarried := by
  unfold Obligations.PendingAbortIsCarried
  intro s l hs hne hl
  cases l with
  | nil => exact absurd rfl hne
  | cons i l =>
    have hrun := runAll_pendingAbort hs hl
    exact ⟨hrun, _, runAll_append hrun, rfl⟩

/-- Settles O51: an ACCESS leaves the other cache and commutes with a change of it, and the fault of
a sub-access has its kind in W. -/
theorem readsAndWritesKeepApart : Obligations.ReadsAndWritesKeepApart := by
  unfold Obligations.ReadsAndWritesKeepApart
  intro s t w sz a hx
  have hother := (execAccess_accessFrame hx).other
  refine ⟨?_, ?_, fun hs => ?_⟩
  · rintro rfl
    exact ⟨hother, fun c => (commutes_writeCache c).access (fun _ _ h => h) hx⟩
  · rintro rfl
    exact ⟨hother, fun c => (commutes_readCache c).access (fun _ _ h => h) hx⟩
  · exact execAccess_keeps (P := fun u => u.abrt ≠ 0 → u.abrtErr.getLsbD 1 = w)
      (fun _ _ _ _ => translateCached_errorKind) (fun _ _ h => h) hx fun h => absurd hs h

/-- Settles O52: a walk's page is masked before it is cached and driven, a hit gives a masked slot's
page, and a change of the mask flushes. -/
theorem cachedPagesStayMasked : Obligations.CachedPagesStayMasked := by
  unfold Obligations.CachedPagesStayMasked
  refine fun i s t h hx hi => ⟨h.exec hx hi, ?_⟩
  rintro w sz a rfl ht
  exact h.execAccess_out hx ht

end

section
/-! PROOFS. The loads of the CPU core (42_frontend_control.md R190 to R195): which of them flush. -/

namespace Sys2Proof.Machine

section
variable {s : State} {v : Dword}

theorem cr0Flushes_iff :
    cr0Flushes s v = true ↔
      s.cfg.flushOnModeChange = true ∧ s.cr0.getLsbD 31 ≠ v.getLsbD 31 := by
  simp [cr0Flushes]

theorem cr4Flushes_iff :
    cr4Flushes s v = true ↔
      s.cfg.flushOnModeChange = true ∧
        (s.cr4.getLsbD 4 ≠ v.getLsbD 4 ∨ s.cr4.getLsbD 5 ≠ v.getLsbD 5) := by
  simp [cr4Flushes]

end

end Sys2Proof.Machine

open Sys2Proof.Machine

/-- Settles O54, from when each load flushes. -/
theorem modeLoadsFlushOnChange : Obligations.ModeLoadsFlushOnChange := by
  unfold Obligations.ModeLoadsFlushOnChange
  intro s v
  rw [← cr0Flushes_iff, ← cr4Flushes_iff]
  refine ⟨fun h => ?_, fun h => ?_, fun h => ?_, fun h => ?_⟩
  · rw [exec, execWriteCr0, h]; rfl
  · rw [exec, execWriteCr0, Bool.eq_false_iff.mpr h]; rfl
  · rw [exec, execWriteCr4, h]; rfl
  · rw [exec, execWriteCr4, Bool.eq_false_iff.mpr h]; rfl

/-- Settles O55: neither load asks what the register held. -/
theorem baseAndMaskLoadsAlwaysFlush : Obligations.BaseAndMaskLoadsAlwaysFlush := by
  unfold Obligations.BaseAndMaskLoadsAlwaysFlush
  exact fun s => ⟨fun _ => rfl, fun _ => rfl⟩

/-- Settles O56: each load writes its registers and the outputs. -/
theorem privAndAbortLoadsKeepCaches : Obligations.PrivAndAbortLoadsKeepCaches := by
  unfold Obligations.PrivAndAbortLoadsKeepCaches
  exact fun s => ⟨fun _ _ => rfl, fun _ => rfl⟩

end

section
/-! PROOFS. The page fault of a TRANSLATE (60_exceptions.md R213). -/

open Sys2Proof.Machine

/-- Settles O27: an abort that was not pending was raised, which only a failed walk does; the walk
writes nothing of its own. -/
theorem faultActionWritesThreeRegisters : Obligations.FaultActionWritesThreeRegisters := by
  unfold Obligations.FaultActionWritesThreeRegisters
  intro s t w a ha hx ht
  obtain ⟨p, u, hu, rfl⟩ := execTranslate_next hx
  have hnone : p = none := (translate_none_iff hu).mpr ht
  rcases translate_cases hu with ⟨hpending, -, -⟩ | ⟨-, -, hsome, -⟩ | ⟨-, -, -, q, -, -, rfl⟩ |
    ⟨-, -, -, _, _, _, -, hsome, -⟩
  · exact absurd ha hpending
  · cases hnone.symm.trans hsome
  · exact ⟨q, (walk s w a).reads, by rw [hnone]; rfl⟩
  · cases hnone.symm.trans hsome

end

section
/-! PROOFS. Reset and the lifecycle (70_reset_and_hazards.md R240, R241): the table reset loads, the
lookups and translations that follow it, and the fault after `close`. -/

namespace Sys2Proof.Machine

/-! ## Empty caches -/

theorem mem_empty_valid {n : Nat} {t : Slot} (h : t ∈ (Cache.empty n).slots) : t.valid = false := by
  rw [mem_empty h]; rfl

/-- A cache that reset left misses every page (R241). -/
theorem lookup_empty (s : State) (w : Bool) (n : Nat) (lp : LPage) :
    lookup s w (Cache.empty n) lp = none :=
  lookup_of_no_valid lp fun _ => mem_empty_valid

/-! ## After reset -/

section
variable (cfg : Config) (env : Platform)

/-- Both caches miss every page after reset (R241). -/
theorem lookup_resetWith (w : Bool) (lp : LPage) :
    lookup (State.resetWith cfg env) w (cacheFor w (State.resetWith cfg env)) lp = none := by
  cases w <;> exact lookup_empty ..

/-- A lookup of the read cache misses, and drives the outputs that reset left (R140). -/
theorem exec_lookupRead_resetWith (lp : LPage) :
    exec (.lookupRead lp) (State.resetWith cfg env) = .next (State.resetWith cfg env) := by
  have hmiss : lookup (State.resetWith cfg env) false (State.resetWith cfg env).rc lp = none :=
    lookup_resetWith cfg env false lp
  rw [exec, execLookupRead, hmiss]; rfl

/-- A lookup of the write cache misses, and drives the outputs that reset left (R141). -/
theorem exec_lookupWrite_resetWith (lp : LPage) :
    exec (.lookupWrite lp) (State.resetWith cfg env) = .next (State.resetWith cfg env) := by
  have hmiss : lookup (State.resetWith cfg env) true (State.resetWith cfg env).wc lp = none :=
    lookup_resetWith cfg env true lp
  rw [exec, execLookupWrite, hmiss]; rfl

theorem pg_resetWith : pg (State.resetWith cfg env) = false := BitVec.getLsbD_zero

/-- Paging is off after reset: the address is the logical one, `LAST_PERM` is 0x07 (R92). -/
theorem translate_resetWith (w : Bool) (a : LAddr) :
    translate w a (State.resetWith cfg env) =
      .ok (some (a.setWidth 40), { State.resetWith cfg env with lastPerm := permAll }) :=
  translate_off rfl (pg_resetWith cfg env)

/-- Reset leaves no memory listed, both caches empty and the registers 0 (R240). -/
theorem inv_resetWith : Inv (State.resetWith cfg env) :=
  inv_of_empty ⟨.nil, nofun⟩ rfl rfl rfl rfl

end

/-- The status of a translated access is OK without FAULT, with ROUTE or not (R26). -/
theorem stOk_or_route_bits (route : Bool) :
    (stOk ||| stWhen route stRoute).getLsbD 0 = true ∧
      (stOk ||| stWhen route stRoute).getLsbD 1 = false := by
  cases route <;> decide

/-! ## The end of the block -/

/-- A closed block takes no input (R240). -/
theorem step_closed {s : State} {x : Input} {rest : List Input} (hc : s.closed = true)
    (h : s.inputs = x :: rest) : step s = .fault .afterClose := by
  unfold step takeNext; rw [h]; exact if_pos hc

end Sys2Proof.Machine

open Sys2Proof Sys2Proof.Machine

/-- Settles O9: the caches are empty, so an ACCESS goes to TRANSLATE, which makes no walk; its address
leaves under the mask that reset loaded. -/
theorem afterResetTranslationIsIdentity : Obligations.AfterResetTranslationIsIdentity := by
  unfold Obligations.AfterResetTranslationIsIdentity
  intro cfg env
  refine ⟨exec_lookupRead_resetWith cfg env, exec_lookupWrite_resetWith cfg env,
    fun w sz a hp => ?_, rfl, rfl⟩
  refine ⟨_, execAccess_miss_some rfl hp (lookup_resetWith cfg env w _)
    (translate_resetWith cfg env w a) rfl, rfl,
    stOk_or_route_bits _⟩

/-- Settles O8: `reset` loads the table, `close` leaves a block that takes no input. -/
theorem resetLoadsTable : Obligations.ResetLoadsTable := by
  unfold Obligations.ResetLoadsTable
  refine ⟨fun s rest ho hi => ⟨_, step_takes ho hi, fun _ => mem_empty_valid,
    fun _ => mem_empty_valid, ?_⟩,
    fun s rest ho hi => ⟨_, step_takes ho hi, fun _ _ => step_closed rfl⟩⟩
  exact ⟨rfl, rfl, rfl, rfl, rfl, rfl, rfl, rfl, rfl, rfl, rfl, rfl, rfl, rfl, rfl, rfl⟩

/-- Settles O10: the default setting is one of the settings. -/
theorem resetMeetsInvariant : Obligations.ResetMeetsInvariant := by
  unfold Obligations.ResetMeetsInvariant
  exact ⟨inv_resetWith, inv_resetWith Config.standard Platform.standard⟩

end
